-- ==== Sys2Proof/Word.lean ====
section
/-! DEFINITION. The word types of the WCE: the bit strings the spec shifts, masks or adds. Byte strings of any other
length are lists of bytes (00_scope.md R8); their operations stand in Machine/Bytes.lean. -/

namespace Sys2Proof

/-- A byte, an integer in [0, 255] (00_scope.md R8). -/
abbrev Byte := BitVec 8

/-- A register or bus word, 32 bits (00_scope.md R6: bus width). -/
abbrev Word := BitVec 32

/-- A Keccak lane, 64 bits (00_scope.md R13). -/
abbrev Lane := BitVec 64

/-- A 16-byte block as the integer `be(b)` of its bytes: bit 127 is the most significant bit of byte 0
(00_scope.md R8, R9; 42_ctr_ghash_gcm.md R211). -/
abbrev Block := BitVec 128

/-- The 25 lanes of a sponge state in lane-index order `x + 5*y` (10_state.md R37). -/
abbrev Lanes := Vector Lane 25

end Sys2Proof
end

