-- ==== Sys2Proof/Config.lean ====
section
/-! DEFINITION. What an implementation of the WCE fixes (the OPEN parameters of 00_scope.md R6 that a rule depends on),
the constants R6 gives, and the free values the spec leaves unspecified. -/

namespace Sys2Proof

/-- Parameter GCM_FIRST_COUNTER: the counter block of the first GCM payload block (00_scope.md R6,
42_ctr_ghash_gcm.md R223). -/
inductive GcmFirstCounter where
  /-- The payload starts at `inc32(J0)`; the default. -/
  | inc32J0
  /-- The payload starts at `J0`. -/
  | j0
deriving DecidableEq, Repr

/-- Parameter GHASH_PAD: how AAD and ciphertext are padded (00_scope.md R6, 42_ctr_ghash_gcm.md R218). -/
inductive GhashPad where
  /-- Each of AAD and ciphertext is padded by itself; the default. -/
  | perSegment
  /-- Their concatenation is padded once. -/
  | joint
deriving DecidableEq, Repr

/-- The OPEN parameters of 00_scope.md R6, arguments of the model (log entry 3). LATENCY alone is not here: it is time,
and no functional rule depends on it (70_reset_and_hazards.md R402; log entry 9). -/
structure Params where
  /-- SPM_BYTES, the size of the scratchpad. -/
  spmBytes : Nat
  /-- GCM_FIRST_COUNTER. -/
  gcmFirstCounter : GcmFirstCounter
  /-- GHASH_PAD. -/
  ghashPad : GhashPad
  /-- WCE_BASE, the host address of offset 0x000: the platform's choice, any value (20_memory.md R93; log entry 11). -/
  wceBase : Nat
deriving DecidableEq, Repr

namespace Config

/-- The defaults of 00_scope.md R6: 4096, INC32_J0, PER_SEGMENT. R6 gives WCE_BASE no default: here it is 0
(DESIGN CHOICE, unsafe, log entry 11). -/
def defaults : Params := ⟨4096, .inc32J0, .perSegment, 0⟩

/-- RATE_BYTES of 00_scope.md R6. -/
def rateBytes : Nat := 136

/-- TAG_BYTES of 00_scope.md R6. -/
def tagBytes : Nat := 16

/-- What ID always reads: the bytes "WCE1" as a big-endian word (10_state.md R36). -/
def idWord : Word := 0x57434531

/-- What VERSION always reads (10_state.md R36). -/
def versionWord : Word := 0x00000001

/-- The host offset of SPM byte 0 (20_memory.md R80). -/
def spmBase : Nat := 0x1000

/-- FREE VALUE: the n-th unspecified word a host read while BUSY returns (20_memory.md R89; log entry 5). -/
opaque drawnWord : Nat → Word

/-- FREE VALUE: the n-th unspecified byte a reset leaves in the scratchpad (70_reset_and_hazards.md R390, R392; log
entries 4 and 6). -/
opaque drawnByte : Nat → Byte

end Config
end Sys2Proof
end

