-- ==== Sys2Proof/Syntax.lean ====
section
/-! DEFINITION. The commands of the WCE (30_encoding.md R113), the two fields of a command word, and the events that
reach the machine from outside: host accesses, turns of the engine, power cycles. -/

namespace Sys2Proof

/-- The 31 commands, in the order of 30_encoding.md R113. A command word has no operand field: operands are ARG0 to
ARG7, read at the engine step (R112), so every constructor is plain. -/
inductive Instr where
  | nop
  | kinit | kabsorb | kfinal | ksqueeze | kpermute | khash
  | aesKeyexp | aesEnc
  | ctrXor | ctrInc
  | ghSeth | ghUpdate | gfMul | gcmJ0 | gcmEnc | gcmDec
  | ecFinv | ecPadd | ecPdbl | ecSmul | ecOncurve
  | ecdsaRecover | ecAddr
  | encWord | eip712Digest
  | permitDomain | permitToken | permitBatch | permitDigest | permitVerify
deriving DecidableEq, Repr

/-- The format CMDW of 30_encoding.md R110: OPC in bits 7:0, RSVD in bits 31:8. -/
structure CommandFields where
  /-- Bits 31:8, which must be 0. -/
  rsvd : BitVec 24
  /-- Bits 7:0, the operation code. -/
  opc : BitVec 8
deriving DecidableEq, Repr

/-- A host access (20_memory.md R84, R87): its width in bits, where it goes and, for a write, the value. On the host's
bus `place` is an address; inside the block it is the offset relative to WCE_BASE (R93; `relativeAccess` in
Machine/Bus.lean). An access that is not 32 bits wide is not performed, so its value is never used. -/
inductive Access where
  | read (width place : Nat)
  | write (width place : Nat) (value : Word)
deriving DecidableEq, Repr

/-- One event of the interleaving of 20_memory.md R95 (log entry 1). -/
inductive Turn where
  /-- The engine takes its step, if a command is waiting for it (60_exceptions.md R360). -/
  | engine
  /-- The host performs one access, at an address of its bus (20_memory.md R84, R93). -/
  | host (a : Access)
  /-- The power goes off and on (70_reset_and_hazards.md R390). -/
  | powerOn
deriving DecidableEq, Repr

end Sys2Proof
end

