-- ==== Sys2Proof/WellFormed.lean ====
section
/-! DEFINITION. The checks of the syntax: parameters in their legal ranges (00_scope.md R6), command words in the opcode
map (30_encoding.md R110, R113), host accesses of the one legal width and alignment (20_memory.md R84, R87). A command
itself has no operand field (30_encoding.md R112), so every `Instr` is well formed. -/

namespace Sys2Proof

/-- The ranges of 00_scope.md R6: SPM_BYTES a multiple of 4, at least 1024, at most 2^20. -/
def Params.wellFormed (p : Params) : Bool :=
  p.spmBytes % 4 == 0 && decide (1024 ≤ p.spmBytes) && decide (p.spmBytes ≤ 2 ^ 20)

/-- The operation codes 30_encoding.md R115 calls legal, that is, all but the ranges it lists as illegal. -/
def legalOpcode (opc : BitVec 8) : Bool :=
  let n := opc.toNat
  !(decide (0x01 ≤ n ∧ n ≤ 0x0F) || decide (0x16 ≤ n ∧ n ≤ 0x1F) || decide (0x22 ≤ n ∧ n ≤ 0x27)
    || decide (0x2A ≤ n ∧ n ≤ 0x2F) || decide (0x36 ≤ n ∧ n ≤ 0x3F) || decide (0x45 ≤ n ∧ n ≤ 0x47)
    || decide (0x4A ≤ n ∧ n ≤ 0x4F) || decide (0x57 ≤ n))

/-- A legal command word: RSVD is 0 and OPC is in the opcode map (30_encoding.md R110, R115). -/
def CommandFields.wellFormed (c : CommandFields) : Bool := c.rsvd == 0 && legalOpcode c.opc

/-- The accesses the WCE performs: 32 bits wide, at an offset that is a multiple of 4 (20_memory.md R84, R87). -/
def Access.wellFormed : Access → Bool
  | .read width off => width == 32 && off % 4 == 0
  | .write width off _ => width == 32 && off % 4 == 0

end Sys2Proof
end

