-- ==== Sys2Proof/Decode.lean ====
section
/-! DEFINITION. The decoder of command words, total on every 32-bit word and rejecting by name (30_encoding.md R111),
and after it the encoder, written from the same table (R113, R114). -/

namespace Sys2Proof

/-- Why a command word is ILLEGAL_CMD (30_encoding.md R111, R115). -/
inductive DecodeError where
  /-- RSVD (bits 31:8) is not 0. -/
  | reservedBits
  /-- RSVD is 0 and OPC is not in the opcode map. -/
  | unlistedOpcode
deriving DecidableEq, Repr

/-- The two fields of a command word (30_encoding.md R110). -/
def commandFields (w : Word) : CommandFields := ⟨w.extractLsb' 8 24, w.extractLsb' 0 8⟩

/-- The command an operation code names (30_encoding.md R113). -/
def opcodeMap (opc : BitVec 8) : Option Instr :=
  match opc.toNat with
  | 0x00 => some .nop
  | 0x10 => some .kinit
  | 0x11 => some .kabsorb
  | 0x12 => some .kfinal
  | 0x13 => some .ksqueeze
  | 0x14 => some .kpermute
  | 0x15 => some .khash
  | 0x20 => some .aesKeyexp
  | 0x21 => some .aesEnc
  | 0x28 => some .ctrXor
  | 0x29 => some .ctrInc
  | 0x30 => some .ghSeth
  | 0x31 => some .ghUpdate
  | 0x32 => some .gfMul
  | 0x33 => some .gcmJ0
  | 0x34 => some .gcmEnc
  | 0x35 => some .gcmDec
  | 0x40 => some .ecFinv
  | 0x41 => some .ecPadd
  | 0x42 => some .ecPdbl
  | 0x43 => some .ecSmul
  | 0x44 => some .ecOncurve
  | 0x48 => some .ecdsaRecover
  | 0x49 => some .ecAddr
  | 0x50 => some .encWord
  | 0x51 => some .eip712Digest
  | 0x52 => some .permitDomain
  | 0x53 => some .permitToken
  | 0x54 => some .permitBatch
  | 0x55 => some .permitDigest
  | 0x56 => some .permitVerify
  | _ => none

/-- Decoding (30_encoding.md R111): total, either one command of R113 or a named rejection, which the engine reports as
ILLEGAL_CMD. -/
def decode (w : Word) : Except DecodeError Instr :=
  let c := commandFields w
  if c.rsvd ≠ 0 then .error .reservedBits
  else match opcodeMap c.opc with
    | some i => .ok i
    | none => .error .unlistedOpcode

/-- What the decoder reads from an instruction whose bits are `w`, as spec/opcode_table.json numbers them: the WCE has
one 32-bit word (30_encoding.md R110), stored little-endian on its bus (20_memory.md R85), so bit 0 of `w` is bit 0 of
CMD. A number that does not fit one word is no command word. -/
def decodeTableWord (nbits w : Nat) : Option Instr :=
  let v := w % 2 ^ nbits
  if v < 2 ^ 32 then
    match decode (BitVec.ofNat 32 v) with
    | .ok i => some i
    | .error _ => none
  else none

/-- The operation code of a command (30_encoding.md R113). -/
def opcodeOf : Instr → BitVec 8
  | .nop => 0x00
  | .kinit => 0x10
  | .kabsorb => 0x11
  | .kfinal => 0x12
  | .ksqueeze => 0x13
  | .kpermute => 0x14
  | .khash => 0x15
  | .aesKeyexp => 0x20
  | .aesEnc => 0x21
  | .ctrXor => 0x28
  | .ctrInc => 0x29
  | .ghSeth => 0x30
  | .ghUpdate => 0x31
  | .gfMul => 0x32
  | .gcmJ0 => 0x33
  | .gcmEnc => 0x34
  | .gcmDec => 0x35
  | .ecFinv => 0x40
  | .ecPadd => 0x41
  | .ecPdbl => 0x42
  | .ecSmul => 0x43
  | .ecOncurve => 0x44
  | .ecdsaRecover => 0x48
  | .ecAddr => 0x49
  | .encWord => 0x50
  | .eip712Digest => 0x51
  | .permitDomain => 0x52
  | .permitToken => 0x53
  | .permitBatch => 0x54
  | .permitDigest => 0x55
  | .permitVerify => 0x56

/-- The command word of a command: RSVD 0, OPC of R113 (30_encoding.md R110, R114). -/
def encode (i : Instr) : Word := (0 : BitVec 24) ++ opcodeOf i

end Sys2Proof
end

