-- ==== Sys2Proof/Machine/Bytes.lean ====
section
/-! DEFINITION. Byte strings and their integer encodings (00_scope.md R8, R9), and the byte views of blocks, lanes and
round-key words (10_state.md R37, R38). -/

namespace Sys2Proof.Machine

/-- `0^n`: n zero bytes (00_scope.md R8). -/
def zeros (n : Nat) : List Byte := List.replicate n 0

/-- `b[i..j)`: the bytes i to j-1 of a string (00_scope.md R8). -/
def slice (b : List Byte) (i j : Nat) : List Byte := (b.drop i).take (j - i)

/-- `b ^ c`: the bytewise XOR (00_scope.md R8); the result is as long as the shorter string. -/
def xorBytes (b c : List Byte) : List Byte := List.zipWith (fun x y => x ^^^ y) b c

/-- `be(b)`: the first byte is the most significant (00_scope.md R9). -/
def be (b : List Byte) : Nat := b.foldl (fun acc x => 256 * acc + x.toNat) 0

/-- `le(b)`: the first byte is the least significant (00_scope.md R9). -/
def le : List Byte → Nat
  | [] => 0
  | x :: b => x.toNat + 256 * le b

/-- `be_n(v)`: the n-byte string whose `be` is v (00_scope.md R9), for v below 256^n. -/
def beBytes (n v : Nat) : List Byte := (List.range n).map fun i => BitVec.ofNat 8 (v >>> (8 * (n - 1 - i)))

/-- `le_n(v)`: the n-byte string whose `le` is v (00_scope.md R9), for v below 256^n. -/
def leBytes (n v : Nat) : List Byte := (List.range n).map fun i => BitVec.ofNat 8 (v >>> (8 * i))

/-- The 16 bytes of a block, first byte first (00_scope.md R8, R9). -/
def blockBytes (b : Block) : List Byte := beBytes 16 b.toNat

/-- The block with the given 16 bytes (00_scope.md R8, R9). -/
def bytesBlock (b : List Byte) : Block := BitVec.ofNat 128 (be b)

/-- The vector of length n whose element i is `f i`. -/
def tabulate {α : Type} (n : Nat) (f : Nat → α) : Vector α n := ⟨((List.range n).map f).toArray, by simp⟩

/-- `statebytes(A) = le_8(A[0]) ‖ ... ‖ le_8(A[24])` (10_state.md R37). -/
def stateBytes (A : Lanes) : List Byte := A.toList.flatMap fun v => leBytes 8 v.toNat

/-- The sponge state with the given 200 state bytes (10_state.md R37). -/
def bytesLanes (b : List Byte) : Lanes := tabulate 25 fun i => BitVec.ofNat 64 (le (slice b (8 * i) (8 * i + 8)))

/-- The 240 bytes of RK: byte 4i + j is byte j of word w[i], byte 0 the first (10_state.md R38). -/
def roundKeyBytes (rk : Vector Word 60) : List Byte := rk.toList.flatMap fun w => beBytes 4 w.toNat

end Sys2Proof.Machine
end

