-- ==== Sys2Proof/Machine/State.lean ====
section
/-! DEFINITION. The state of the WCE (10_state.md R30 to R43) as plain data, the error codes of 60_exceptions.md R351, and
the state after power-on reset (70_reset_and_hazards.md R390). INVENTORY.md lists every field with its rule. -/

namespace Sys2Proof.Machine

/-- ERRCODE takes exactly these values (60_exceptions.md R351). Their numbers stand in `ErrorCode.code` (Flags.lean). -/
inductive ErrorCode where
  | ok
  | illegalCmd
  | invalidLength
  | outOfBounds
  | noKey
  | invalidRange
  | pointNotOnCurve
  | degenerate
  | recoveryFailure
  | authFailure
deriving DecidableEq, Repr

/-- The scratchpad's contents: (address, byte) pairs, addresses strictly rising, none equal to what an unlisted address
reads as (`Memory.wf` in Ops.lean). -/
abbrev Memory := List Host.Cell

/-- The machine. Fields with a register name are the registers of 10_state.md R30; the last four are the model's own. -/
structure State where
  /-- CTRL.IE (R35). -/
  ie : Bool
  /-- STATUS.BUSY (R34). -/
  busy : Bool
  /-- STATUS.DONE (R34). -/
  done : Bool
  /-- STATUS.ERR (R34). -/
  err : Bool
  /-- STATUS.OVERRUN (R34). -/
  overrun : Bool
  /-- STATUS.ERRCODE (R34). -/
  errcode : ErrorCode
  /-- CMD, the last accepted command word (R33). -/
  cmd : Word
  /-- RESULT (R36). -/
  result : Word
  /-- AESNR, the number of rounds of the held key, 0 when none is held (R38). STATUS.KEYVALID is its view. -/
  aesnr : Word
  /-- ARG0 to ARG7 (R31). -/
  args : Vector Word 8
  /-- The counter block CB (R39). -/
  cb : Block
  /-- The hash subkey H (R40). -/
  h : Block
  /-- The GHASH accumulator Y (R41). -/
  y : Block
  /-- The register J0 (R42). -/
  j0 : Block
  /-- The sponge state KSTATE (R37). -/
  kstate : Lanes
  /-- The round keys RK, words w[0..59], byte 0 of a word in its bits 31:24 (R38). -/
  rk : Vector Word 60
  /-- The scratchpad SPM (R43, 20_memory.md R80). -/
  spm : Memory
  /-- MODEL: the OPEN parameters (00_scope.md R6), fixed for a machine (log entry 3). -/
  params : Params
  /-- MODEL: the events still to come, first first (20_memory.md R95; log entry 1). -/
  agenda : List Turn
  /-- MODEL: the word the last host read returned (20_memory.md R84; log entry 7). -/
  readData : Word
  /-- MODEL: how many unspecified values have been drawn (20_memory.md R89, 70_reset_and_hazards.md R392; log entry 5). -/
  drawn : Nat
deriving DecidableEq, Repr

/-- The WCE never traps and no behaviour of it hangs (60_exceptions.md R350; 93_implementation_defined.md part 1), so
nothing raises a fault: a command that fails completes with an ErrorCode, which is a next state. -/
inductive Fault where
deriving DecidableEq, Repr

/-- The reasons a step can be refused. -/
inductive Refusal where
  /-- Raised by an arm of `exec` that has no meaning yet; safe (the model stops). No arm raises it now. -/
  | notModelled (mnemonic : String)
deriving DecidableEq, Repr

/-- What a step or a command answers. -/
abbrev Result := Host.Outcome State Fault Refusal

/-- The machine right after power-on reset (70_reset_and_hazards.md R390), with the default parameters (00_scope.md R6).
The spec leaves the SPM contents unspecified: here nothing is listed (DESIGN CHOICE, unsafe, log entry 4). Nothing is on
the agenda (log entries 1 and 2). -/
def State.reset : State where
  ie := false
  busy := false
  done := false
  err := false
  overrun := false
  errcode := .ok
  cmd := 0
  result := 0
  aesnr := 0
  args := Vector.replicate 8 0
  cb := 0
  h := 0
  y := 0
  j0 := 0
  kstate := Vector.replicate 25 0
  rk := Vector.replicate 60 0
  spm := []
  params := Config.defaults
  agenda := []
  readData := 0
  drawn := 0

end Sys2Proof.Machine
end

