-- ==== Sys2Proof/Machine/Ops.lean ====
section
/-! DEFINITION. The named operations every command and every host access is written with: the scratchpad
(20_memory.md R80 to R83), accepting a command and completing one, with or without an error
(60_exceptions.md R350 to R360: the WCE has no other exception), drawing unspecified bytes and resetting the registers
(70_reset_and_hazards.md R390 to R393). -/

namespace Sys2Proof.Machine

/-! ### The scratchpad's bytes -/

/-- What an unlisted address reads as. The spec leaves the power-on contents unspecified (20_memory.md R80):
DESIGN CHOICE, unsafe, log entry 4. -/
def unlistedByte : Byte := 0

/-- The byte at an address. -/
def Memory.read : Memory → Nat → Byte
  | [], _ => unlistedByte
  | (b, v) :: m, a => if b = a then v else Memory.read m a

/-- The list with the pair (a, v) in its place by address. -/
def Memory.insert (a : Nat) (v : Byte) : Memory → Memory
  | [] => [(a, v)]
  | (b, w) :: m =>
    if a < b then (a, v) :: (b, w) :: m
    else if a = b then (a, v) :: m
    else (b, w) :: Memory.insert a v m

/-- The memory after byte `a` is set to `v`; it stays in canonical form. -/
def Memory.write (m : Memory) (a : Nat) (v : Byte) : Memory :=
  if v = unlistedByte then m.filter (fun c => c.1 ≠ a) else Memory.insert a v m

/-- The canonical form: addresses strictly rising from `lo` on, no entry equal to what an unlisted address reads as. -/
def Memory.wfFrom (lo : Nat) : Memory → Bool
  | [] => true
  | (a, v) :: m => decide (lo ≤ a) && decide (v ≠ unlistedByte) && Memory.wfFrom (a + 1) m

/-- The canonical form of a memory. -/
def Memory.wf (m : Memory) : Bool := Memory.wfFrom 0 m

/-- `MemWrite` on the cells: byte i of the string goes to `off + i` (20_memory.md R82). -/
def Memory.writeBytes (m : Memory) (off : Nat) : List Byte → Memory
  | [] => m
  | v :: vs => Memory.writeBytes (m.write off v) (off + 1) vs

/-! ### The scratchpad of a state -/

/-- SPM byte `a` (20_memory.md R80). -/
def State.readByte (s : State) (a : Nat) : Byte := Memory.read s.spm a

/-- `MemRead(off, n)` (20_memory.md R81). -/
def State.memRead (s : State) (off n : Nat) : List Byte := (List.range n).map fun i => s.readByte (off + i)

/-- `MemWrite(off, n, v)` for the n-byte string v (20_memory.md R82). -/
def State.memWrite (s : State) (off : Nat) (v : List Byte) : State := { s with spm := Memory.writeBytes s.spm off v }

/-- An SPM region (off, n) (20_memory.md R83). -/
structure Region where
  off : Nat
  len : Nat
deriving DecidableEq, Repr

/-- A region is in bounds exactly when off + n ≤ SPM_BYTES, on unbounded integers, also for n = 0 (20_memory.md R83). -/
def State.inBounds (s : State) (r : Region) : Bool := decide (r.off + r.len ≤ s.params.spmBytes)

/-- The byte at address `a` lies in the region. -/
def Region.covers (r : Region) (a : Nat) : Bool := decide (r.off ≤ a ∧ a < r.off + r.len)

/-! ### Checks -/

/-- `raise e` unless the condition holds (00_scope.md R10). -/
def require (c : Bool) (e : ErrorCode) : Except ErrorCode Unit := if c then .ok () else .error e

/-- Every region in bounds, else OUT_OF_BOUNDS (20_memory.md R83, 60_exceptions.md R353 step 3). -/
def requireRegions (s : State) (rs : List Region) : Except ErrorCode Unit := require (rs.all s.inBounds) .outOfBounds

/-- STATUS.KEYVALID: 1 exactly when AESNR ≠ 0 (10_state.md R38). -/
def State.keyValid (s : State) : Bool := s.aesnr != 0

/-- A key is held, else NO_KEY (60_exceptions.md R353 step 4). -/
def requireKey (s : State) : Except ErrorCode Unit := require s.keyValid .noKey

/-! ### Accepting and completing a command -/

/-- Acceptance of a command word (60_exceptions.md R359). -/
def State.accept (s : State) (v : Word) : State :=
  { s with cmd := v, done := false, err := false, errcode := .ok, busy := true }

/-- Completion: BUSY <- 0, DONE <- 1, ERR <- (code ≠ 0), ERRCODE <- code (60_exceptions.md R360). -/
def State.complete (s : State) (code : ErrorCode) : State :=
  { s with busy := false, done := true, err := decide (code ≠ .ok), errcode := code }

/-- The end of the engine step (60_exceptions.md R360): the writes of a command that succeeded, or none of them if it
raised an error (R356), then completion. This is the WCE's one way of reporting an error: it has no trap (R350, R364). -/
def conclude (s : State) (r : Except ErrorCode State) : Result :=
  match r with
  | .ok t => .next (t.complete .ok)
  | .error e => .next (s.complete e)

/-- A command word that decodes to nothing ends with ILLEGAL_CMD and changes nothing else (30_encoding.md R111). -/
def concludeIllegal (s : State) : Result := conclude s (.error .illegalCmd)

/-! ### The agenda -/

/-- The state with the first event of the agenda taken off (log entry 1). -/
def State.popAgenda (s : State) : State := { s with agenda := s.agenda.tail }

/-! ### Unspecified values and reset -/

/-- Sets the n bytes from `off` on to drawn values, one draw a byte (70_reset_and_hazards.md R390, R392). -/
def State.drawBytes (s : State) (off : Nat) : Nat → State
  | 0 => s
  | n + 1 =>
    State.drawBytes { s with spm := s.spm.write off (Config.drawnByte s.drawn), drawn := s.drawn + 1 } (off + 1) n

/-- Makes the bytes of a region that exist in the SPM unspecified (log entry 6). -/
def State.drawRegion (s : State) (r : Region) : State := s.drawBytes r.off (min r.len (s.params.spmBytes - r.off))

/-- Every register takes its power-on value (70_reset_and_hazards.md R390); the SPM and the model's own fields stay. -/
def State.resetRegisters (s : State) : State :=
  { s with
    ie := false, busy := false, done := false, err := false, overrun := false, errcode := .ok,
    cmd := 0, result := 0, aesnr := 0, args := Vector.replicate 8 0,
    cb := 0, h := 0, y := 0, j0 := 0,
    kstate := Vector.replicate 25 0, rk := Vector.replicate 60 0 }

/-- Power-on reset as an event: the registers as in R390, every SPM byte drawn (70_reset_and_hazards.md R390;
93_implementation_defined.md U1). -/
def State.powerOn (s : State) : State := (s.drawRegion ⟨0, s.params.spmBytes⟩).resetRegisters

end Sys2Proof.Machine
end

