-- ==== Sys2Proof/Machine/Operands.lean ====
section
/-! DEFINITION. The operands of the commands (30_encoding.md R112, R113): the argument registers as unsigned integers, how
many of them each command names, and the SPM regions each command writes, as its rule computes them from its ARG values
(20_memory.md R83; 70_reset_and_hazards.md R392). -/

namespace Sys2Proof.Machine

/-- ARGi as an unsigned 32-bit integer (10_state.md R31, 30_encoding.md R112). -/
def State.arg (s : State) (i : Fin 8) : Nat := s.args[i].toNat

/-- How many argument registers a command names; they are ARG0 up to that many (30_encoding.md R113). -/
def argCount : Instr → Nat
  | .nop | .kinit | .kpermute | .ctrInc | .ghSeth => 0
  | .ecOncurve => 1
  | .kabsorb | .kfinal | .ksqueeze | .aesKeyexp | .aesEnc | .ghUpdate | .gcmJ0 | .ecFinv | .ecPdbl | .ecAddr => 2
  | .khash | .ctrXor | .gfMul | .ecPadd | .ecSmul | .ecdsaRecover | .encWord | .eip712Digest | .permitToken => 3
  | .permitDomain | .permitBatch => 4
  | .permitDigest => 6
  | .permitVerify => 7
  | .gcmEnc | .gcmDec => 8

/-- The SPM regions a command writes when it succeeds, in the order its rule lists them, from its ARG values. -/
def outputRegions (i : Instr) (s : State) : List Region :=
  match i with
  | .nop | .kinit | .kabsorb | .kfinal | .kpermute => []
  | .ksqueeze => [⟨s.arg 0, s.arg 1⟩]
  | .khash => [⟨s.arg 2, 32⟩]
  | .aesKeyexp => []
  | .aesEnc => [⟨s.arg 1, 16⟩]
  | .ctrXor => [⟨s.arg 2, s.arg 1⟩]
  | .ctrInc | .ghSeth | .ghUpdate | .gcmJ0 => []
  | .gfMul => [⟨s.arg 2, 16⟩]
  | .gcmEnc => [⟨s.arg 6, s.arg 5⟩, ⟨s.arg 7, 16⟩]
  | .gcmDec => [⟨s.arg 6, s.arg 5⟩]
  | .ecFinv => [⟨s.arg 1, 32⟩]
  | .ecPadd => [⟨s.arg 2, 64⟩]
  | .ecPdbl => [⟨s.arg 1, 64⟩]
  | .ecSmul => [⟨s.arg 2, 64⟩]
  | .ecOncurve => []
  | .ecdsaRecover => [⟨s.arg 2, 64⟩]
  | .ecAddr => [⟨s.arg 1, 20⟩]
  | .encWord => [⟨s.arg 2, 32⟩]
  | .eip712Digest => [⟨s.arg 2, 32⟩]
  | .permitDomain => [⟨s.arg 3, 32⟩]
  | .permitToken => [⟨s.arg 2, 32⟩]
  | .permitBatch => [⟨s.arg 3, 32⟩]
  | .permitDigest => [⟨s.arg 5, 32⟩]
  | .permitVerify => []

/-- The output regions of the command that is running, none when none runs or its word is illegal
(70_reset_and_hazards.md R392). -/
def State.runningOutputs (s : State) : List Region :=
  if s.busy then
    match decode s.cmd with
    | .ok i => outputRegions i s
    | .error _ => []
  else []

/-- The soft reset (70_reset_and_hazards.md R392): a running command is cancelled and the bytes of its output regions
become unspecified; every register takes its power-on value; no other SPM byte changes. -/
def State.softReset (s : State) : State := (s.runningOutputs.foldl State.drawRegion s).resetRegisters

end Sys2Proof.Machine
end

