-- ==== Sys2Proof/Machine/Flags.lean ====
section
/-! DEFINITION. The only status flags of the WCE (10_state.md R46): the words STATUS and CTRL (R34, R35), what a write to
each does, the numbers of the error codes (60_exceptions.md R351) and the interrupt output (R362). -/

namespace Sys2Proof.Machine

/-- The number of an error code (60_exceptions.md R351). -/
def ErrorCode.code : ErrorCode → BitVec 8
  | .ok => 0x00
  | .illegalCmd => 0x01
  | .invalidLength => 0x02
  | .outOfBounds => 0x03
  | .noKey => 0x04
  | .invalidRange => 0x05
  | .pointNotOnCurve => 0x06
  | .degenerate => 0x07
  | .recoveryFailure => 0x08
  | .authFailure => 0x09

/-- STATUS as a word: BUSY 0, DONE 1, ERR 2, OVERRUN 3, KEYVALID 4, ERRCODE 15:8, every other bit 0 (10_state.md R34). -/
def State.statusWord (s : State) : Word :=
  (0 : BitVec 16) ++ s.errcode.code ++ (0 : BitVec 3) ++ BitVec.ofBool s.keyValid ++ BitVec.ofBool s.overrun
    ++ BitVec.ofBool s.err ++ BitVec.ofBool s.done ++ BitVec.ofBool s.busy

/-- CTRL as a word: IE in bit 0; SRST and the reserved bits read 0 (10_state.md R35). -/
def State.ctrlWord (s : State) : Word := (0 : BitVec 31) ++ BitVec.ofBool s.ie

/-- A write to STATUS clears each of DONE (bit 1), ERR (bit 2) and OVERRUN (bit 3) whose bit is 1 and changes nothing
else (10_state.md R34). -/
def State.writeStatus (s : State) (v : Word) : State :=
  { s with done := s.done && !v.getLsbD 1, err := s.err && !v.getLsbD 2, overrun := s.overrun && !v.getLsbD 3 }

/-- A write to CTRL: with SRST (bit 1) set the soft reset, which leaves IE = 0; else IE takes bit 0 (10_state.md R35). -/
def State.writeCtrl (s : State) (v : Word) : State :=
  if v.getLsbD 1 then s.softReset else { s with ie := v.getLsbD 0 }

/-- The interrupt output: IRQ = CTRL.IE AND STATUS.DONE (60_exceptions.md R362). -/
def State.irq (s : State) : Bool := s.ie && s.done

end Sys2Proof.Machine
end

