-- ==== Sys2Proof/Machine/Bus.lean ====
section
/-! DEFINITION. The host bus (20_memory.md R84 to R89) over the register map of 10_state.md R30. -/

namespace Sys2Proof.Machine

/-- What lies at an offset that is a multiple of 4 (10_state.md R30); for a byte window, which of its words. -/
inductive Target where
  | id | version | ctrl | status | cmd | result | spmsize | aesnr
  | arg (i : Fin 8)
  | cb (m : Nat) | h (m : Nat) | y (m : Nat) | j0 (m : Nat)
  | kstate (m : Nat)
  | rk (m : Nat)
  | spm (j : Nat)
  | unmapped
deriving DecidableEq, Repr

/-- The register map (10_state.md R30), and unmapped everywhere else (20_memory.md R86). The SPM window ends where no
whole word of the SPM is left; SPM_BYTES is a multiple of 4 (00_scope.md R6), so that is 0x1000 + SPM_BYTES. -/
def locate (p : Params) (off : Nat) : Target :=
  if off = 0x000 then .id
  else if off = 0x004 then .version
  else if off = 0x008 then .ctrl
  else if off = 0x00C then .status
  else if off = 0x010 then .cmd
  else if off = 0x014 then .result
  else if off = 0x018 then .spmsize
  else if off = 0x01C then .aesnr
  else if off < 0x020 then .unmapped
  else if off < 0x040 then .arg (Fin.ofNat 8 ((off - 0x020) / 4))
  else if off < 0x050 then .cb ((off - 0x040) / 4)
  else if off < 0x060 then .h ((off - 0x050) / 4)
  else if off < 0x070 then .y ((off - 0x060) / 4)
  else if off < 0x080 then .j0 ((off - 0x070) / 4)
  else if off < 0x100 then .unmapped
  else if off < 0x1C8 then .kstate ((off - 0x100) / 4)
  else if off < 0x200 then .unmapped
  else if off < 0x2F0 then .rk ((off - 0x200) / 4)
  else if off < Config.spmBase then .unmapped
  else if off + 4 ≤ Config.spmBase + p.spmBytes then .spm (off - Config.spmBase)
  else .unmapped

/-- Word m of a byte window: `le(W[4m .. 4m+4))` (20_memory.md R85). -/
def windowWord (w : List Byte) (m : Nat) : Word := BitVec.ofNat 32 (le (slice w (4 * m) (4 * m + 4)))

/-- The window after a write of v to its word m: `W[4m .. 4m+4) <- le_4(v)` (20_memory.md R85). -/
def windowUpdate (w : List Byte) (m : Nat) (v : Word) : List Byte :=
  w.take (4 * m) ++ leBytes 4 v.toNat ++ w.drop (4 * m + 4)

/-- The exact value a host read returns (20_memory.md R84 to R86; 10_state.md R33 to R42). -/
def State.targetWord (s : State) : Target → Word
  | .id => Config.idWord
  | .version => Config.versionWord
  | .ctrl => s.ctrlWord
  | .status => s.statusWord
  | .cmd => s.cmd
  | .result => s.result
  | .spmsize => BitVec.ofNat 32 s.params.spmBytes
  | .aesnr => s.aesnr
  | .arg i => s.args[i]
  | .cb m => windowWord (blockBytes s.cb) m
  | .h m => windowWord (blockBytes s.h) m
  | .y m => windowWord (blockBytes s.y) m
  | .j0 m => windowWord (blockBytes s.j0) m
  | .kstate m => windowWord (stateBytes s.kstate) m
  | .rk m => windowWord (roundKeyBytes s.rk) m
  | .spm j => BitVec.ofNat 32 (le (s.memRead j 4))
  | .unmapped => 0

/-- What a read while BUSY = 1 does not return exactly: CB, H, Y, J0, KSTATE, RK, SPM, RESULT, AESNR
(20_memory.md R89). -/
def Target.hiddenWhileBusy : Target → Bool
  | .result | .aesnr | .cb _ | .h _ | .y _ | .j0 _ | .kstate _ | .rk _ | .spm _ => true
  | .id | .version | .ctrl | .status | .cmd | .spmsize | .arg _ | .unmapped => false

/-- What a write while BUSY = 1 is dropped at: CMD, ARG0 to ARG7, CB, H, Y, J0, KSTATE, SPM (20_memory.md R88). -/
def Target.lockedWhileBusy : Target → Bool
  | .cmd | .arg _ | .cb _ | .h _ | .y _ | .j0 _ | .kstate _ | .spm _ => true
  | .id | .version | .ctrl | .status | .result | .spmsize | .aesnr | .rk _ | .unmapped => false

/-- The effect of a write that is not dropped (20_memory.md R84 to R86; 10_state.md R33 to R42): read-only and unmapped
targets ignore it. -/
def State.writeTarget (s : State) (t : Target) (v : Word) : State :=
  match t with
  | .ctrl => s.writeCtrl v
  | .status => s.writeStatus v
  | .cmd => s.accept v
  | .arg i => { s with args := s.args.set i v }
  | .cb m => { s with cb := bytesBlock (windowUpdate (blockBytes s.cb) m v) }
  | .h m => { s with h := bytesBlock (windowUpdate (blockBytes s.h) m v) }
  | .y m => { s with y := bytesBlock (windowUpdate (blockBytes s.y) m v) }
  | .j0 m => { s with j0 := bytesBlock (windowUpdate (blockBytes s.j0) m v) }
  | .kstate m => { s with kstate := bytesLanes (windowUpdate (stateBytes s.kstate) m v) }
  | .spm j => s.memWrite j (leBytes 4 v.toNat)
  | .id | .version | .result | .spmsize | .aesnr | .rk _ | .unmapped => s

/-- A host read at a target: exact, or a drawn word while BUSY (20_memory.md R89). -/
def State.readTarget (s : State) (t : Target) : State :=
  if s.busy && t.hiddenWhileBusy then { s with readData := Config.drawnWord s.drawn, drawn := s.drawn + 1 }
  else { s with readData := s.targetWord t }

/-- A host write at a target, dropped with OVERRUN while BUSY where R88 says so (20_memory.md R88). -/
def State.hostWrite (s : State) (t : Target) (v : Word) : State :=
  if s.busy && t.lockedWhileBusy then { s with overrun := true } else s.writeTarget t v

/-- One access to the block, at an offset relative to WCE_BASE (20_memory.md R84). A narrow or misaligned one is not
performed: a write has no effect and a read returns 0 (R87). -/
def State.blockAccess (s : State) (a : Access) : State :=
  match a with
  | .read _ off =>
    if a.wellFormed then s.readTarget (locate s.params off) else { s with readData := 0 }
  | .write _ off v =>
    if a.wellFormed then s.hostWrite (locate s.params off) v else s

/-- An access by address as an access by offset relative to the block's base, or none below the base
(20_memory.md R93). -/
def relativeAccess (base : Nat) : Access → Option Access
  | .read width addr => if base ≤ addr then some (.read width (addr - base)) else none
  | .write width addr v => if base ≤ addr then some (.write width (addr - base) v) else none

/-- One host access, by its address: the block's, at its offset relative to WCE_BASE (20_memory.md R93). One at an address
below WCE_BASE is not the block's and changes nothing (DEDUCED, log entry 11). -/
def State.hostAccess (s : State) (a : Access) : State :=
  match relativeAccess s.params.wceBase a with
  | some b => s.blockAccess b
  | none => s

end Sys2Proof.Machine
end

