-- ==== Sys2Proof/Machine/Aes.lean ====
section
/-! DEFINITION. The AES key schedule, the forward cipher and their two commands (41_aes.md). A 16-byte state is the list
of its bytes in block order, that is, s[r, c] is byte r + 4c (R180). -/

namespace Sys2Proof.Machine

/-! ### The field and the S-box -/

/-- `xtime(a)` (41_aes.md R181). -/
def xtime (a : Byte) : Byte := (a <<< 1) ^^^ (if a.getLsbD 7 then 0x1B else 0)

/-- `mul(a, b)` in GF(2^8): the XOR of `xtime^i(a)` over the bits i set in b (41_aes.md R181). -/
def gf8Mul (a b : Byte) : Byte :=
  ((List.range 8).foldl (fun (zv : Byte × Byte) i => (if b.getLsbD i then zv.1 ^^^ zv.2 else zv.1, xtime zv.2)) (0, a)).1

/-- The S-box, one row a value of the high nibble (41_aes.md R182). -/
def sboxRows : List (List Byte) :=
  [[0x63, 0x7c, 0x77, 0x7b, 0xf2, 0x6b, 0x6f, 0xc5, 0x30, 0x01, 0x67, 0x2b, 0xfe, 0xd7, 0xab, 0x76],
   [0xca, 0x82, 0xc9, 0x7d, 0xfa, 0x59, 0x47, 0xf0, 0xad, 0xd4, 0xa2, 0xaf, 0x9c, 0xa4, 0x72, 0xc0],
   [0xb7, 0xfd, 0x93, 0x26, 0x36, 0x3f, 0xf7, 0xcc, 0x34, 0xa5, 0xe5, 0xf1, 0x71, 0xd8, 0x31, 0x15],
   [0x04, 0xc7, 0x23, 0xc3, 0x18, 0x96, 0x05, 0x9a, 0x07, 0x12, 0x80, 0xe2, 0xeb, 0x27, 0xb2, 0x75]]
  ++ [[0x09, 0x83, 0x2c, 0x1a, 0x1b, 0x6e, 0x5a, 0xa0, 0x52, 0x3b, 0xd6, 0xb3, 0x29, 0xe3, 0x2f, 0x84],
   [0x53, 0xd1, 0x00, 0xed, 0x20, 0xfc, 0xb1, 0x5b, 0x6a, 0xcb, 0xbe, 0x39, 0x4a, 0x4c, 0x58, 0xcf],
   [0xd0, 0xef, 0xaa, 0xfb, 0x43, 0x4d, 0x33, 0x85, 0x45, 0xf9, 0x02, 0x7f, 0x50, 0x3c, 0x9f, 0xa8],
   [0x51, 0xa3, 0x40, 0x8f, 0x92, 0x9d, 0x38, 0xf5, 0xbc, 0xb6, 0xda, 0x21, 0x10, 0xff, 0xf3, 0xd2]]
  ++ [[0xcd, 0x0c, 0x13, 0xec, 0x5f, 0x97, 0x44, 0x17, 0xc4, 0xa7, 0x7e, 0x3d, 0x64, 0x5d, 0x19, 0x73],
   [0x60, 0x81, 0x4f, 0xdc, 0x22, 0x2a, 0x90, 0x88, 0x46, 0xee, 0xb8, 0x14, 0xde, 0x5e, 0x0b, 0xdb],
   [0xe0, 0x32, 0x3a, 0x0a, 0x49, 0x06, 0x24, 0x5c, 0xc2, 0xd3, 0xac, 0x62, 0x91, 0x95, 0xe4, 0x79],
   [0xe7, 0xc8, 0x37, 0x6d, 0x8d, 0xd5, 0x4e, 0xa9, 0x6c, 0x56, 0xf4, 0xea, 0x65, 0x7a, 0xae, 0x08]]
  ++ [[0xba, 0x78, 0x25, 0x2e, 0x1c, 0xa6, 0xb4, 0xc6, 0xe8, 0xdd, 0x74, 0x1f, 0x4b, 0xbd, 0x8b, 0x8a],
   [0x70, 0x3e, 0xb5, 0x66, 0x48, 0x03, 0xf6, 0x0e, 0x61, 0x35, 0x57, 0xb9, 0x86, 0xc1, 0x1d, 0x9e],
   [0xe1, 0xf8, 0x98, 0x11, 0x69, 0xd9, 0x8e, 0x94, 0x9b, 0x1e, 0x87, 0xe9, 0xce, 0x55, 0x28, 0xdf],
   [0x8c, 0xa1, 0x89, 0x0d, 0xbf, 0xe6, 0x42, 0x68, 0x41, 0x99, 0x2d, 0x0f, 0xb0, 0x54, 0xbb, 0x16]]

/-- SBOX[v] (41_aes.md R182). -/
def sbox (v : Byte) : Byte := (sboxRows.getD (v.toNat / 16) []).getD (v.toNat % 16) 0

/-! ### The key schedule -/

/-- Byte j of a round-key word, byte 0 the first (10_state.md R38, 41_aes.md R183). -/
def wordByte (w : Word) (j : Nat) : Byte := BitVec.ofNat 8 (w.toNat >>> (8 * (3 - j)))

/-- The word with the given 4 bytes, the first in bits 31:24 (41_aes.md R183). -/
def bytesWord (b : List Byte) : Word := BitVec.ofNat 32 (be b)

/-- RotWord: a0 ‖ a1 ‖ a2 ‖ a3 becomes a1 ‖ a2 ‖ a3 ‖ a0 (41_aes.md R183). -/
def rotWord (w : Word) : Word := w.rotateLeft 8

/-- SubWord: SBOX on each of the 4 bytes (41_aes.md R183). -/
def subWord (w : Word) : Word := bytesWord ((List.range 4).map fun j => sbox (wordByte w j))

/-- Rcon[1..10] (41_aes.md R183). -/
def rcons : List Byte := [0x01, 0x02, 0x04, 0x08, 0x10, 0x20, 0x40, 0x80, 0x1B, 0x36]

/-- Rcon[j] ‖ 00 ‖ 00 ‖ 00 (41_aes.md R183). -/
def rconWord (j : Nat) : Word := (rcons.getD (j - 1) 0) ++ (0 : BitVec 24)

/-- The word w[i] of the schedule from the words before it, newest first (41_aes.md R183). -/
def scheduleWord (nk i : Nat) (before : List Word) : Word :=
  let t := before.getD 0 0
  let u :=
    if i % nk = 0 then subWord (rotWord t) ^^^ rconWord (i / nk)
    else if nk = 8 ∧ i % 8 = 4 then subWord t
    else t
  before.getD (nk - 1) 0 ^^^ u

/-- Extends the schedule, held newest first, by n words from word i on (41_aes.md R183). -/
def extendSchedule (nk : Nat) : Nat → Nat → List Word → List Word
  | 0, _, ws => ws
  | n + 1, i, ws => extendSchedule nk n (i + 1) (scheduleWord nk i ws :: ws)

/-- Nr for a key of klen bytes: Nk + 6 (41_aes.md R183). -/
def roundsOf (klen : Nat) : Nat := klen / 4 + 6

/-- The key expansion of a key of 16, 24 or 32 bytes: its 4(Nr + 1) words in order (41_aes.md R183). -/
def keyExpansion (K : List Byte) : List Word :=
  let nk := K.length / 4
  let first := (List.range nk).map fun i => bytesWord (slice K (4 * i) (4 * i + 4))
  (extendSchedule nk (4 * (roundsOf K.length + 1) - nk) nk first.reverse).reverse

/-! ### The cipher -/

/-- The byte s[r, c] of a state (41_aes.md R180). -/
def stateByte (s : List Byte) (r c : Nat) : Byte := s.getD (r + 4 * c) 0

/-- The state whose byte s[r, c] is `f r c` (41_aes.md R180). -/
def stateOf (f : Nat → Nat → Byte) : List Byte := (List.range 16).map fun k => f (k % 4) (k / 4)

/-- SubBytes (41_aes.md R184). -/
def subBytes (s : List Byte) : List Byte := stateOf fun r c => sbox (stateByte s r c)

/-- ShiftRows (41_aes.md R185). -/
def shiftRows (s : List Byte) : List Byte := stateOf fun r c => stateByte s r ((c + r) % 4)

/-- MixColumns: the matrix of 41_aes.md R186, whose row r has 2 at column r and 3 at column r + 1 mod 4. -/
def mixColumns (s : List Byte) : List Byte :=
  stateOf fun r c =>
    gf8Mul 2 (stateByte s r c) ^^^ gf8Mul 3 (stateByte s ((r + 1) % 4) c)
      ^^^ stateByte s ((r + 2) % 4) c ^^^ stateByte s ((r + 3) % 4) c

/-- AddRoundKey(s, rd) (41_aes.md R187). -/
def addRoundKey (w : Vector Word 60) (s : List Byte) (rd : Nat) : List Byte :=
  stateOf fun r c => stateByte s r c ^^^ wordByte (w.toList.getD (4 * rd + c) 0) r

/-- The middle rounds: n of them, from round rd on (41_aes.md R188). -/
def middleRounds (w : Vector Word 60) : Nat → Nat → List Byte → List Byte
  | 0, _, s => s
  | n + 1, rd, s => middleRounds w n (rd + 1) (addRoundKey w (mixColumns (shiftRows (subBytes s))) rd)

/-- `AESEnc(w, Nr, in)` (41_aes.md R188). -/
def aesEncrypt (w : Vector Word 60) (nr : Nat) (input : Block) : Block :=
  let s := middleRounds w (nr - 1) 1 (addRoundKey w (blockBytes input) 0)
  bytesBlock (addRoundKey w (shiftRows (subBytes s)) nr)

/-- `E(in)`: AESEnc with the round keys held in RK and AESNR (41_aes.md R188). -/
def State.cipher (s : State) (input : Block) : Block := aesEncrypt s.rk s.aesnr.toNat input

/-! ### The commands -/

/-- AES_KEYEXP src, klen: expand and hold a key; the words of RK beyond the schedule become 0 (41_aes.md R190). -/
def execAesKeyexp (s : State) : Result :=
  let src := s.arg 0
  let klen := s.arg 1
  conclude s do
    require (decide (klen = 16 ∨ klen = 24 ∨ klen = 32)) .invalidLength
    requireRegions s [⟨src, klen⟩]
    let w := keyExpansion (s.memRead src klen)
    pure { s with rk := tabulate 60 fun i => w.getD i 0, aesnr := BitVec.ofNat 32 (roundsOf klen) }

/-- AES_ENC src, dst: encrypt one block (41_aes.md R191). -/
def execAesEnc (s : State) : Result :=
  let src := s.arg 0
  let dst := s.arg 1
  conclude s do
    requireRegions s [⟨src, 16⟩, ⟨dst, 16⟩]
    requireKey s
    pure (s.memWrite dst (blockBytes (s.cipher (bytesBlock (s.memRead src 16)))))

end Sys2Proof.Machine
end

