-- ==== Sys2Proof/Machine/Control.lean ====
section
/-! DEFINITION. The engine-control command (46_engine_control.md). -/

namespace Sys2Proof.Machine

/-- NOP: only acceptance and completion (46_engine_control.md R340). -/
def execNop (s : State) : Result := conclude s (pure s)

end Sys2Proof.Machine
end

