-- ==== Sys2Proof/Machine/Ec.lean ====
section
/-! DEFINITION. secp256k1 field and point arithmetic and its five commands (43_ec_point.md). -/

namespace Sys2Proof.Machine

/-! ### Constants and encodings -/

/-- The field prime p = 2^256 - 2^32 - 977 (43_ec_point.md R250). -/
def curveP : Nat := 0xFFFFFFFFFFFFFFFFFFFFFFFFFFFFFFFFFFFFFFFFFFFFFFFFFFFFFFFEFFFFFC2F

/-- The order n of the group (43_ec_point.md R250). -/
def curveN : Nat := 0xFFFFFFFFFFFFFFFFFFFFFFFFFFFFFFFEBAAEDCE6AF48A03BBFD25E8CD0364141

/-- An affine point (43_ec_point.md R252). -/
structure Point where
  x : Nat
  y : Nat
deriving DecidableEq, Repr

/-- The generator G (43_ec_point.md R250). -/
def curveG : Point :=
  ⟨0x79BE667EF9DCBBAC55A06295CE870B07029BFCDB2DCE28D959F2815B16F81798,
   0x483ADA7726A3C4655DA4FBFC0E1108A8FD17B448A68554199C47D08FFB10D4B8⟩

/-- A point of the internal group law: an affine point, or O as `none` (43_ec_point.md R257). -/
abbrev GroupPoint := Option Point

/-- The integer at an SPM offset, 32 bytes big-endian (43_ec_point.md R251). -/
def State.scalarAt (s : State) (off : Nat) : Nat := be (s.memRead off 32)

/-- `Point(off)` (43_ec_point.md R252). -/
def State.pointAt (s : State) (off : Nat) : Point := ⟨s.scalarAt off, s.scalarAt (off + 32)⟩

/-- `be_32(x) ‖ be_32(y)` (43_ec_point.md R252). -/
def pointBytes (p : Point) : List Byte := beBytes 32 p.x ++ beBytes 32 p.y

/-- Both coordinates are below p (43_ec_point.md R252). -/
def Point.inRange (p : Point) : Bool := decide (p.x < curveP ∧ p.y < curveP)

/-! ### Field and group functions -/

/-- `(a - b) mod m`, a negative value taken into [0, m) (43_ec_point.md R255). -/
def subMod (m a b : Nat) : Nat := (a + (m - b % m)) % m

/-- Reads the low n bits of k from the most significant on: doubles for each bit, and adds where it is 1
(43_ec_point.md R258). -/
def doubleAndAdd {α : Type} (double add : α → α) (k : Nat) : Nat → α → α
  | 0, r => r
  | n + 1, r => doubleAndAdd double add k n (if k.testBit n then add (double r) else double r)

/-- The bit length of k (43_ec_point.md R258). -/
def bitLength (k : Nat) : Nat := if k = 0 then 0 else k.log2 + 1

/-- `b^e mod m`, by squaring and multiplying (43_ec_point.md R254, R259). -/
def powMod (m b e : Nat) : Nat := doubleAndAdd (fun r => r * r % m) (fun r => r * b % m) e (bitLength e) (1 % m)

/-- `FInv(a) = a^(p-2) mod p` (43_ec_point.md R254). -/
def fieldInv (a : Nat) : Nat := powMod curveP a (curveP - 2)

/-- `OnCurve(x, y)`: (y^2 - x^3 - 7) mod p = 0 (43_ec_point.md R253). -/
def Point.onCurve (p : Point) : Bool := subMod curveP (p.y * p.y) (p.x * p.x * p.x + 7) == 0

/-- The point of slope l through `a`, whose third intersection comes from x-coordinates `a.x` and `x2`
(43_ec_point.md R255, R256: "Same combination formula"). -/
def combine (l : Nat) (a : Point) (x2 : Nat) : Point :=
  let x3 := subMod curveP (l * l) (a.x + x2)
  ⟨x3, subMod curveP (l * subMod curveP a.x x3) a.y⟩

/-- Affine addition of points with unequal x (43_ec_point.md R255). -/
def pointAdd (a b : Point) : Point :=
  combine (subMod curveP b.y a.y * fieldInv (subMod curveP b.x a.x) % curveP) a b.x

/-- Affine doubling of a point with y ≠ 0 (43_ec_point.md R256). -/
def pointDouble (a : Point) : Point :=
  combine (3 * (a.x * a.x) * fieldInv (2 * a.y % curveP) % curveP) a a.x

/-- The internal group law `Add(A, B)` (43_ec_point.md R257). -/
def groupAdd : GroupPoint → GroupPoint → GroupPoint
  | none, b => b
  | some a, none => some a
  | some a, some b =>
    if a.x = b.x ∧ (a.y + b.y) % curveP = 0 then none
    else if a.x = b.x then some (pointDouble a)
    else some (pointAdd a b)

/-- `SMul(k, Q)`: the bits of k from the most significant, starting at O (43_ec_point.md R258). -/
def scalarMul (k : Nat) (Q : GroupPoint) : GroupPoint :=
  doubleAndAdd (fun R => groupAdd R R) (fun R => groupAdd R Q) k (bitLength k) none

/-- `Sqrt(a) = a^((p+1)/4) mod p` (43_ec_point.md R259). -/
def fieldSqrt (a : Nat) : Nat := powMod curveP a ((curveP + 1) / 4)

/-! ### The commands -/

/-- EC_FINV a, dst: field inverse (43_ec_point.md R260). -/
def execEcFinv (s : State) : Result :=
  let a := s.arg 0
  let dst := s.arg 1
  conclude s do
    requireRegions s [⟨a, 32⟩, ⟨dst, 32⟩]
    let x := s.scalarAt a
    require (decide (x < curveP)) .invalidRange
    require (x != 0) .degenerate
    pure (s.memWrite dst (beBytes 32 (fieldInv x)))

/-- EC_PADD p, q, dst: add two points with unequal x (43_ec_point.md R261). -/
def execEcPadd (s : State) : Result :=
  let p := s.arg 0
  let q := s.arg 1
  let dst := s.arg 2
  conclude s do
    requireRegions s [⟨p, 64⟩, ⟨q, 64⟩, ⟨dst, 64⟩]
    let P := s.pointAt p
    let Q := s.pointAt q
    require (P.inRange && Q.inRange) .invalidRange
    require (P.onCurve && Q.onCurve) .pointNotOnCurve
    require (P.x != Q.x) .degenerate
    pure (s.memWrite dst (pointBytes (pointAdd P Q)))

/-- EC_PDBL p, dst: double a point (43_ec_point.md R262). -/
def execEcPdbl (s : State) : Result :=
  let p := s.arg 0
  let dst := s.arg 1
  conclude s do
    requireRegions s [⟨p, 64⟩, ⟨dst, 64⟩]
    let P := s.pointAt p
    require P.inRange .invalidRange
    require P.onCurve .pointNotOnCurve
    require (P.y != 0) .degenerate
    pure (s.memWrite dst (pointBytes (pointDouble P)))

/-- The point a command writes: O has no encoding, so a product or sum that is O is the given error
(43_ec_point.md R252). -/
def finitePoint (g : GroupPoint) (e : ErrorCode) : Except ErrorCode Point :=
  match g with
  | some p => .ok p
  | none => .error e

/-- EC_SMUL k, p, dst: scalar multiplication (43_ec_point.md R263; log entry 13). -/
def execEcSmul (s : State) : Result :=
  let k := s.arg 0
  let p := s.arg 1
  let dst := s.arg 2
  conclude s do
    requireRegions s [⟨k, 32⟩, ⟨p, 64⟩, ⟨dst, 64⟩]
    let kk := s.scalarAt k
    let P := s.pointAt p
    require (decide (kk < curveN)) .invalidRange
    require P.inRange .invalidRange
    require P.onCurve .pointNotOnCurve
    require (kk != 0) .degenerate
    let R ← finitePoint (scalarMul kk (some P)) .degenerate
    pure (s.memWrite dst (pointBytes R))

/-- EC_ONCURVE p: test a point; RESULT is 1 when it is on the curve, else 0 (43_ec_point.md R264). -/
def execEcOncurve (s : State) : Result :=
  let p := s.arg 0
  conclude s do
    requireRegions s [⟨p, 64⟩]
    let P := s.pointAt p
    require P.inRange .invalidRange
    pure { s with result := if P.onCurve then 1 else 0 }

end Sys2Proof.Machine
end

