-- ==== Sys2Proof/Machine/Keccak.lean ====
section
/-! DEFINITION. Keccak-f[1600], the rate-136 sponge with padding byte 0x01, and the six sponge commands (40_keccak.md). -/

namespace Sys2Proof.Machine

/-! ### The permutation -/

/-- The round constants RC[0..23] (40_keccak.md R140). -/
def roundConstants : List Lane :=
  [0x0000000000000001, 0x0000000000008082, 0x800000000000808A, 0x8000000080008000,
   0x000000000000808B, 0x0000000080000001, 0x8000000080008081, 0x8000000000008009]
  ++ [0x000000000000008A, 0x0000000000000088, 0x0000000080008009, 0x000000008000000A,
   0x000000008000808B, 0x800000000000008B, 0x8000000000008089, 0x8000000000008003]
  ++ [0x8000000000008002, 0x8000000000000080, 0x000000000000800A, 0x800000008000000A,
   0x8000000080008081, 0x8000000000008080, 0x0000000080000001, 0x8000000080008008]

/-- The ρ offsets r[x, y], one row a value of y (40_keccak.md R141). -/
def rotationOffsets : List (List Nat) :=
  [[0, 1, 62, 28, 27], [36, 44, 6, 55, 20], [3, 10, 43, 25, 39], [41, 45, 15, 21, 8], [18, 2, 61, 56, 14]]

/-- r[x, y] (40_keccak.md R141). -/
def rotationOffset (x y : Nat) : Nat := (rotationOffsets.getD y []).getD x 0

/-- `rotl64(v, n)` (00_scope.md R11). -/
def rotl64 (v : Lane) (n : Nat) : Lane := v.rotateLeft n

/-- Lane A[x, y], with x and y taken mod 5 (10_state.md R37). -/
def lane (A : Lanes) (x y : Nat) : Lane := A.toList.getD (x % 5 + 5 * (y % 5)) 0

/-- The state whose lane A[x, y] is `f x y` (10_state.md R37). -/
def lanesOf (f : Nat → Nat → Lane) : Lanes := tabulate 25 fun i => f (i % 5) (i / 5)

/-- C[x], the parity of column x (40_keccak.md R143). -/
def columnParity (A : Lanes) (x : Nat) : Lane :=
  lane A x 0 ^^^ lane A x 1 ^^^ lane A x 2 ^^^ lane A x 3 ^^^ lane A x 4

/-- θ (40_keccak.md R143); x - 1 is x + 4 mod 5. -/
def theta (A : Lanes) : Lanes :=
  lanesOf fun x y => lane A x y ^^^ (columnParity A ((x + 4) % 5) ^^^ rotl64 (columnParity A ((x + 1) % 5)) 1)

/-- ρ (40_keccak.md R144). -/
def rho (A : Lanes) : Lanes := lanesOf fun x y => rotl64 (lane A x y) (rotationOffset x y)

/-- π (40_keccak.md R145, R142). -/
def piStep (A : Lanes) : Lanes := lanesOf fun x y => lane A (x + 3 * y) x

/-- χ (40_keccak.md R146). -/
def chi (A : Lanes) : Lanes := lanesOf fun x y => lane A x y ^^^ (~~~(lane A (x + 1) y) &&& lane A (x + 2) y)

/-- ι with the round constant of its round (40_keccak.md R147). -/
def iota (A : Lanes) (rc : Lane) : Lanes :=
  lanesOf fun x y => if x = 0 ∧ y = 0 then lane A x y ^^^ rc else lane A x y

/-- One round (40_keccak.md R148). -/
def keccakRound (A : Lanes) (rc : Lane) : Lanes := iota (chi (piStep (rho (theta A)))) rc

/-- Keccak-f[1600]: the 24 rounds in order (40_keccak.md R148). -/
def keccakF (A : Lanes) : Lanes := roundConstants.foldl keccakRound A

/-! ### The sponge -/

/-- The zero state, the empty sponge (40_keccak.md R152, R155). -/
def zeroLanes : Lanes := Vector.replicate 25 0

/-- `Pad(M)` for a string shorter than 136 bytes (40_keccak.md R149). -/
def pad (M : List Byte) : List Byte :=
  if M.length = 135 then M ++ [0x81] else M ++ [0x01] ++ zeros (134 - M.length) ++ [0x80]

/-- The state with a 136-byte block XORed into lanes 0 to 16 (40_keccak.md R150). -/
def xorBlock (A : Lanes) (B : List Byte) : Lanes :=
  lanesOf fun x y =>
    let i := x + 5 * y
    if i < 17 then lane A x y ^^^ BitVec.ofNat 64 (le (slice B (8 * i) (8 * i + 8))) else lane A x y

/-- `Absorb(A, B)` (40_keccak.md R150). -/
def absorb (A : Lanes) (B : List Byte) : Lanes := keccakF (xorBlock A B)

/-- Absorbs the first n 136-byte blocks of M, in order (40_keccak.md R152, R156). -/
def absorbBlocks : Nat → Lanes → List Byte → Lanes
  | 0, A, _ => A
  | n + 1, A, M => absorbBlocks n (absorb A (M.take 136)) (M.drop 136)

/-- `Squeeze(A, n)` for n ≤ 136 (40_keccak.md R151). -/
def squeeze (A : Lanes) (n : Nat) : List Byte := (stateBytes A).take n

/-- The sponge state after the whole message M, padding included (40_keccak.md R152). -/
def spongeState (M : List Byte) : Lanes :=
  let q := M.length / 136
  absorb (absorbBlocks q zeroLanes M) (pad (M.drop (136 * q)))

/-- The 32-byte digest `Keccak256(M)` (40_keccak.md R152). -/
def keccak256 (M : List Byte) : List Byte := squeeze (spongeState M) 32

/-! ### The commands -/

/-- KINIT: the sponge state becomes zero (40_keccak.md R155). -/
def execKinit (s : State) : Result := conclude s (pure { s with kstate := zeroLanes })

/-- KABSORB src, nblk: absorb whole rate blocks (40_keccak.md R156). -/
def execKabsorb (s : State) : Result :=
  let src := s.arg 0
  let nblk := s.arg 1
  conclude s do
    requireRegions s [⟨src, 136 * nblk⟩]
    pure { s with kstate := absorbBlocks nblk s.kstate (s.memRead src (136 * nblk)) }

/-- KFINAL src, len: pad and absorb the last block (40_keccak.md R157). -/
def execKfinal (s : State) : Result :=
  let src := s.arg 0
  let len := s.arg 1
  conclude s do
    require (decide (len ≤ 135)) .invalidLength
    requireRegions s [⟨src, len⟩]
    pure { s with kstate := absorb s.kstate (pad (s.memRead src len)) }

/-- KSQUEEZE dst, len: read output bytes; the state stays (40_keccak.md R158). -/
def execKsqueeze (s : State) : Result :=
  let dst := s.arg 0
  let len := s.arg 1
  conclude s do
    require (decide (len ≤ 136)) .invalidLength
    requireRegions s [⟨dst, len⟩]
    pure (s.memWrite dst (squeeze s.kstate len))

/-- KPERMUTE: Keccak-f[1600] once (40_keccak.md R159). -/
def execKpermute (s : State) : Result := conclude s (pure { s with kstate := keccakF s.kstate })

/-- KHASH src, len, dst: the whole hash of a region, leaving KSTATE at the final state (40_keccak.md R160). -/
def execKhash (s : State) : Result :=
  let src := s.arg 0
  let len := s.arg 1
  let dst := s.arg 2
  conclude s do
    requireRegions s [⟨src, len⟩, ⟨dst, 32⟩]
    let A := spongeState (s.memRead src len)
    pure ({ s with kstate := A }.memWrite dst (squeeze A 32))

end Sys2Proof.Machine
end

