-- ==== Sys2Proof/Machine/Ecdsa.lean ====
section
/-! DEFINITION. ECDSA public-key recovery, address derivation and their two commands (44_ecdsa.md). -/

namespace Sys2Proof.Machine

/-- A signature (r, s, v) (44_ecdsa.md R281). -/
structure Signature where
  r : Nat
  s : Nat
  v : Nat
deriving DecidableEq, Repr

/-- The signature in a 65-byte string r ‖ s ‖ v (44_ecdsa.md R281). -/
def bytesSignature (b : List Byte) : Signature := ⟨be (slice b 0 32), be (slice b 32 64), (b.getD 64 0).toNat⟩

/-- `Par(v)`, the parity v selects, or none for a v that fails (44_ecdsa.md R280). -/
def parityOf (v : Nat) : Option Nat :=
  if v = 27 ∨ v = 28 then some (v - 27) else if v = 0 ∨ v = 1 then some v else none

/-- The point R with x-coordinate r and a y of the given parity, if there is one (44_ecdsa.md R282, R259). -/
def liftX (r parity : Nat) : Option Point :=
  let a := (r * r * r + 7) % curveP
  let y := fieldSqrt a
  if y * y % curveP ≠ a then none
  else some ⟨r, if y % 2 = parity then y else curveP - y⟩

/-- `Recover(e, r, s, v)` (44_ecdsa.md R282). -/
def recover (e : Nat) (sig : Signature) : Option Point :=
  match parityOf sig.v with
  | none => none
  | some parity =>
    if ¬(1 ≤ sig.r ∧ sig.r ≤ curveN - 1 ∧ 1 ≤ sig.s ∧ sig.s ≤ curveN - 1) then none
    else match liftX sig.r parity with
      | none => none
      | some R =>
        let ri := powMod curveN sig.r (curveN - 2)
        let u1 := subMod curveN 0 (e * ri)
        let u2 := sig.s * ri % curveN
        groupAdd (scalarMul u1 (some curveG)) (scalarMul u2 (some R))

/-- `Address(X) = Keccak256(X)[12 .. 32)` (44_ecdsa.md R283). -/
def addressOf (X : List Byte) : List Byte := slice (keccak256 X) 12 32

/-- ECDSA_RECOVER dig, sig, dst: recover the public key; every failure is RECOVERY_FAILURE (44_ecdsa.md R285). -/
def execEcdsaRecover (s : State) : Result :=
  let dig := s.arg 0
  let sig := s.arg 1
  let dst := s.arg 2
  conclude s do
    requireRegions s [⟨dig, 32⟩, ⟨sig, 65⟩, ⟨dst, 64⟩]
    let Q ← finitePoint (recover (be (s.memRead dig 32)) (bytesSignature (s.memRead sig 65))) .recoveryFailure
    pure (s.memWrite dst (pointBytes Q))

/-- EC_ADDR pub, dst: address of a public key; the bytes are hashed as given (44_ecdsa.md R286). -/
def execEcAddr (s : State) : Result :=
  let pub := s.arg 0
  let dst := s.arg 1
  conclude s do
    requireRegions s [⟨pub, 64⟩, ⟨dst, 20⟩]
    pure (s.memWrite dst (addressOf (s.memRead pub 64)))

end Sys2Proof.Machine
end

