-- ==== Sys2Proof/Machine/Gcm.lean ====
section
/-! DEFINITION. The counter block, counter mode, GF(2^128), GHASH, J0 and GCM, and their eight commands
(42_ctr_ghash_gcm.md). `E` is the cipher under the held key (41_aes.md R188). -/

namespace Sys2Proof.Machine

/-! ### Functions -/

/-- `inc32`: only the last 4 bytes change, as a wrapping big-endian counter (42_ctr_ghash_gcm.md R210). -/
def inc32 (cb : Block) : Block := cb.extractLsb' 32 96 ++ (cb.extractLsb' 0 32 + 1)

/-- Multiplication of V by α (42_ctr_ghash_gcm.md R212). -/
def mulAlpha (v : Block) : Block :=
  if v.getLsbD 0 then (v >>> 1) ^^^ 0xE1000000000000000000000000000000 else v >>> 1

/-- The rounds of GFMul for the bits n-1 down to 0 of be(X), from Z and V (42_ctr_ghash_gcm.md R212). -/
def gfRounds (x : Block) : Nat → Block → Block → Block
  | 0, z, _ => z
  | n + 1, z, v => gfRounds x n (if x.getLsbD n then z ^^^ v else z) (mulAlpha v)

/-- `GFMul(X, Y)`: the bits of X most significant first (42_ctr_ghash_gcm.md R211, R212). -/
def gfMul (x y : Block) : Block := gfRounds x 128 0 y

/-- GHASH over the first n blocks of a string (42_ctr_ghash_gcm.md R213). -/
def ghashBlocks (h : Block) : Nat → Block → List Byte → Block
  | 0, y, _ => y
  | n + 1, y, S => ghashBlocks h n (gfMul (y ^^^ bytesBlock (S.take 16)) h) (S.drop 16)

/-- `GHASH(H, Y, S)` for a string of whole blocks (42_ctr_ghash_gcm.md R213). -/
def ghash (h y : Block) (S : List Byte) : Block := ghashBlocks h (S.length / 16) y S

/-- `zpad(X) = 0^((16 - len mod 16) mod 16)` for a string of the given length (42_ctr_ghash_gcm.md R214, R218). -/
def zpad (len : Nat) : List Byte := zeros ((16 - len % 16) % 16)

/-- `DeriveJ0(IV)` for the cipher E (42_ctr_ghash_gcm.md R214). -/
def deriveJ0 (E : Block → Block) (IV : List Byte) : Block :=
  if IV.length = 12 then bytesBlock (IV ++ [0x00, 0x00, 0x00, 0x01])
  else ghash (E 0) 0 (IV ++ zpad IV.length ++ zeros 8 ++ beBytes 8 (8 * IV.length))

/-- The keystream rounds of `GCTR` for the first n blocks of X (42_ctr_ghash_gcm.md R215). -/
def gctrBlocks (E : Block → Block) : Nat → Block → List Byte → List Byte × Block
  | 0, cb, _ => ([], cb)
  | n + 1, cb, X =>
    let rest := gctrBlocks E n (inc32 cb) (X.drop 16)
    (xorBytes (X.take 16) (blockBytes (E cb)) ++ rest.1, rest.2)

/-- `GCTR(CB, X)`: the output and the counter block after the last one used (42_ctr_ghash_gcm.md R215). -/
def gctr (E : Block → Block) (cb : Block) (X : List Byte) : List Byte × Block :=
  gctrBlocks E ((X.length + 15) / 16) cb X

/-- The string GHASH runs over for the tag, by GHASH_PAD (42_ctr_ghash_gcm.md R218). -/
def tagInput (p : GhashPad) (A C : List Byte) : List Byte :=
  let lengths := beBytes 8 (8 * A.length) ++ beBytes 8 (8 * C.length)
  match p with
  | .perSegment => A ++ zpad A.length ++ C ++ zpad C.length ++ lengths
  | .joint => A ++ C ++ zpad (A.length + C.length) ++ lengths

/-- `Tag(A, C, J0)` (42_ctr_ghash_gcm.md R218). -/
def gcmTag (E : Block → Block) (p : GhashPad) (A C : List Byte) (j0 : Block) : Block :=
  E j0 ^^^ ghash (E 0) 0 (tagInput p A C)

/-- The counter block of the first payload block, by GCM_FIRST_COUNTER (42_ctr_ghash_gcm.md R223). -/
def firstCounter (f : GcmFirstCounter) (j0 : Block) : Block :=
  match f with
  | .inc32J0 => inc32 j0
  | .j0 => j0

/-! ### The commands -/

/-- CTR_XOR src, len, dst: counter mode over a byte region; CB advances (42_ctr_ghash_gcm.md R216). -/
def execCtrXor (s : State) : Result :=
  let src := s.arg 0
  let len := s.arg 1
  let dst := s.arg 2
  conclude s do
    requireRegions s [⟨src, len⟩, ⟨dst, len⟩]
    requireKey s
    let out := gctr s.cipher s.cb (s.memRead src len)
    pure { s.memWrite dst out.1 with cb := out.2 }

/-- CTR_INC: CB <- inc32(CB); no key is needed (42_ctr_ghash_gcm.md R217). -/
def execCtrInc (s : State) : Result := conclude s (pure { s with cb := inc32 s.cb })

/-- GH_SETH: H <- E(0^16) (42_ctr_ghash_gcm.md R219). -/
def execGhSeth (s : State) : Result :=
  conclude s do
    requireKey s
    pure { s with h := s.cipher 0 }

/-- GH_UPDATE src, nblk: fold blocks into Y; no key is needed (42_ctr_ghash_gcm.md R220). -/
def execGhUpdate (s : State) : Result :=
  let src := s.arg 0
  let nblk := s.arg 1
  conclude s do
    requireRegions s [⟨src, 16 * nblk⟩]
    pure { s with y := ghash s.h s.y (s.memRead src (16 * nblk)) }

/-- GF_MUL a, b, dst: multiply two field elements (42_ctr_ghash_gcm.md R221). -/
def execGfMul (s : State) : Result :=
  let a := s.arg 0
  let b := s.arg 1
  let dst := s.arg 2
  conclude s do
    requireRegions s [⟨a, 16⟩, ⟨b, 16⟩, ⟨dst, 16⟩]
    pure (s.memWrite dst (blockBytes (gfMul (bytesBlock (s.memRead a 16)) (bytesBlock (s.memRead b 16)))))

/-- GCM_J0 iv, ivlen: derive J0; a key is needed for every ivlen (42_ctr_ghash_gcm.md R222). -/
def execGcmJ0 (s : State) : Result :=
  let iv := s.arg 0
  let ivlen := s.arg 1
  conclude s do
    requireRegions s [⟨iv, ivlen⟩]
    requireKey s
    pure { s with j0 := deriveJ0 s.cipher (s.memRead iv ivlen) }

/-- GCM_ENC iv, ivlen, aad, aadlen, src, len, dst, tag: authenticated encryption; the tag is written last
(42_ctr_ghash_gcm.md R223). -/
def execGcmEnc (s : State) : Result :=
  let iv := s.arg 0
  let ivlen := s.arg 1
  let aad := s.arg 2
  let aadlen := s.arg 3
  let src := s.arg 4
  let len := s.arg 5
  let dst := s.arg 6
  let tag := s.arg 7
  conclude s do
    requireRegions s [⟨iv, ivlen⟩, ⟨aad, aadlen⟩, ⟨src, len⟩, ⟨dst, len⟩, ⟨tag, 16⟩]
    requireKey s
    let A := s.memRead aad aadlen
    let j0 := deriveJ0 s.cipher (s.memRead iv ivlen)
    let C := (gctr s.cipher (firstCounter s.params.gcmFirstCounter j0) (s.memRead src len)).1
    let T := gcmTag s.cipher s.params.ghashPad A C j0
    pure ((s.memWrite dst C).memWrite tag (blockBytes T))

/-- GCM_DEC iv, ivlen, aad, aadlen, src, len, dst, tag: authenticated decryption; a tag mismatch is AUTH_FAILURE and
writes nothing (42_ctr_ghash_gcm.md R224). -/
def execGcmDec (s : State) : Result :=
  let iv := s.arg 0
  let ivlen := s.arg 1
  let aad := s.arg 2
  let aadlen := s.arg 3
  let src := s.arg 4
  let len := s.arg 5
  let dst := s.arg 6
  let tag := s.arg 7
  conclude s do
    requireRegions s [⟨iv, ivlen⟩, ⟨aad, aadlen⟩, ⟨src, len⟩, ⟨dst, len⟩, ⟨tag, 16⟩]
    requireKey s
    let A := s.memRead aad aadlen
    let C := s.memRead src len
    let j0 := deriveJ0 s.cipher (s.memRead iv ivlen)
    let T := gcmTag s.cipher s.params.ghashPad A C j0
    require (s.memRead tag 16 == blockBytes T) .authFailure
    pure (s.memWrite dst (gctr s.cipher (firstCounter s.params.gcmFirstCounter j0) C).1)

end Sys2Proof.Machine
end

