-- ==== Sys2Proof/Machine/Permit.lean ====
section
/-! DEFINITION. The word encoder, the typed-data and permit digests, permit verification and their seven commands
(45_eip712.md). -/

namespace Sys2Proof.Machine

/-! ### Encoders and operand layouts -/

/-- `Word(b)` for a string of at most 32 bytes: right-aligned, left-zero-padded (45_eip712.md R300). -/
def encodeWord (b : List Byte) : List Byte := zeros (32 - b.length) ++ b

/-- `Enc(v1, ..., vm)` (45_eip712.md R300). -/
def encodeWords (vs : List (List Byte)) : List Byte := vs.flatMap encodeWord

/-- The permit parameter block (45_eip712.md R302); each field is used as the bytes stored. -/
structure PermitBlock where
  domainTypehash : List Byte
  tokenTypehash : List Byte
  batchTypehash : List Byte
  chainId : List Byte
  verifyingContract : List Byte
  spender : List Byte
  nonce : List Byte
  deadline : List Byte
deriving DecidableEq, Repr

/-- The fields of a 232-byte parameter block (45_eip712.md R302). -/
def bytesPermitBlock (b : List Byte) : PermitBlock where
  domainTypehash := slice b 0 32
  tokenTypehash := slice b 32 64
  batchTypehash := slice b 64 96
  chainId := slice b 96 128
  verifyingContract := slice b 128 148
  spender := slice b 148 168
  nonce := slice b 168 200
  deadline := slice b 200 232

/-- The parameter block at an SPM offset (45_eip712.md R302). -/
def State.permitBlockAt (s : State) (prm : Nat) : PermitBlock := bytesPermitBlock (s.memRead prm 232)

/-- The first n 52-byte estate records of a string (45_eip712.md R303). -/
def records : Nat → List Byte → List (List Byte)
  | 0, _ => []
  | n + 1, b => b.take 52 :: records n (b.drop 52)

/-- The cnt estate records at an SPM offset (45_eip712.md R303). -/
def State.estatesAt (s : State) (est cnt : Nat) : List (List Byte) := records cnt (s.memRead est (52 * cnt))

/-! ### Digests -/

/-- `Domain(B, name)` (45_eip712.md R304). -/
def domainDigest (B : PermitBlock) (name : List Byte) : List Byte :=
  keccak256 (encodeWords [B.domainTypehash, keccak256 name, B.chainId, B.verifyingContract])

/-- `TokenDigest(B, e)` for a 52-byte record token ‖ amount (45_eip712.md R303, R305). -/
def tokenDigest (B : PermitBlock) (e : List Byte) : List Byte :=
  keccak256 (encodeWords [B.tokenTypehash, slice e 0 20, slice e 20 52])

/-- `Permissions(B, E)`: the token digests, packed, hashed (45_eip712.md R301, R305). -/
def permissionsDigest (B : PermitBlock) (E : List (List Byte)) : List Byte := keccak256 (E.flatMap (tokenDigest B))

/-- `Batch(B, E)` (45_eip712.md R306). -/
def batchDigest (B : PermitBlock) (E : List (List Byte)) : List Byte :=
  keccak256 (encodeWords [B.batchTypehash, permissionsDigest B E, B.spender, B.nonce, B.deadline])

/-- `TypedDigest(ds, sh)` (45_eip712.md R301, R307). -/
def typedDigest (ds sh : List Byte) : List Byte := keccak256 ([0x19, 0x01] ++ ds ++ sh)

/-- `PermitDigest(B, name, E)` (45_eip712.md R308). -/
def permitDigest (B : PermitBlock) (name : List Byte) (E : List (List Byte)) : List Byte :=
  typedDigest (domainDigest B name) (batchDigest B E)

/-- `Verify`: whether the address of the recovered key is the testator's, or none when the recovery fails
(45_eip712.md R309). -/
def verifyPermit (digest sig testator : List Byte) : Option Bool :=
  match recover (be digest) (bytesSignature sig) with
  | none => none
  | some Q => some (addressOf (pointBytes Q) == testator)

/-! ### The commands -/

/-- ENC_WORD src, len, dst: encode one word (45_eip712.md R310). -/
def execEncWord (s : State) : Result :=
  let src := s.arg 0
  let len := s.arg 1
  let dst := s.arg 2
  conclude s do
    require (decide (len ≤ 32)) .invalidLength
    requireRegions s [⟨src, len⟩, ⟨dst, 32⟩]
    pure (s.memWrite dst (encodeWord (s.memRead src len)))

/-- EIP712_DIGEST ds, sh, dst: typed-data digest (45_eip712.md R311). -/
def execEip712Digest (s : State) : Result :=
  let ds := s.arg 0
  let sh := s.arg 1
  let dst := s.arg 2
  conclude s do
    requireRegions s [⟨ds, 32⟩, ⟨sh, 32⟩, ⟨dst, 32⟩]
    pure (s.memWrite dst (typedDigest (s.memRead ds 32) (s.memRead sh 32)))

/-- PERMIT_DOMAIN prm, nam, nlen, dst: domain separator (45_eip712.md R312). -/
def execPermitDomain (s : State) : Result :=
  let prm := s.arg 0
  let nam := s.arg 1
  let nlen := s.arg 2
  let dst := s.arg 3
  conclude s do
    requireRegions s [⟨prm, 232⟩, ⟨nam, nlen⟩, ⟨dst, 32⟩]
    pure (s.memWrite dst (domainDigest (s.permitBlockAt prm) (s.memRead nam nlen)))

/-- PERMIT_TOKEN prm, est, dst: per-token digest (45_eip712.md R313). -/
def execPermitToken (s : State) : Result :=
  let prm := s.arg 0
  let est := s.arg 1
  let dst := s.arg 2
  conclude s do
    requireRegions s [⟨prm, 232⟩, ⟨est, 52⟩, ⟨dst, 32⟩]
    pure (s.memWrite dst (tokenDigest (s.permitBlockAt prm) (s.memRead est 52)))

/-- PERMIT_BATCH prm, est, cnt, dst: batch digest over cnt estates (45_eip712.md R314). -/
def execPermitBatch (s : State) : Result :=
  let prm := s.arg 0
  let est := s.arg 1
  let cnt := s.arg 2
  let dst := s.arg 3
  conclude s do
    requireRegions s [⟨prm, 232⟩, ⟨est, 52 * cnt⟩, ⟨dst, 32⟩]
    pure (s.memWrite dst (batchDigest (s.permitBlockAt prm) (s.estatesAt est cnt)))

/-- PERMIT_DIGEST prm, nam, nlen, est, cnt, dst: the final permit digest (45_eip712.md R315). -/
def execPermitDigest (s : State) : Result :=
  let prm := s.arg 0
  let nam := s.arg 1
  let nlen := s.arg 2
  let est := s.arg 3
  let cnt := s.arg 4
  let dst := s.arg 5
  conclude s do
    requireRegions s [⟨prm, 232⟩, ⟨nam, nlen⟩, ⟨est, 52 * cnt⟩, ⟨dst, 32⟩]
    pure (s.memWrite dst (permitDigest (s.permitBlockAt prm) (s.memRead nam nlen) (s.estatesAt est cnt)))

/-- The boolean a verification answers, or RECOVERY_FAILURE (45_eip712.md R309, R316). -/
def verified (o : Option Bool) : Except ErrorCode Bool :=
  match o with
  | some b => .ok b
  | none => .error .recoveryFailure

/-- PERMIT_VERIFY prm, nam, nlen, est, cnt, sig, tst: verify a permit signature; RESULT is 1 when the signer is the
testator, else 0; no SPM byte is written (45_eip712.md R316). -/
def execPermitVerify (s : State) : Result :=
  let prm := s.arg 0
  let nam := s.arg 1
  let nlen := s.arg 2
  let est := s.arg 3
  let cnt := s.arg 4
  let sig := s.arg 5
  let tst := s.arg 6
  conclude s do
    requireRegions s [⟨prm, 232⟩, ⟨nam, nlen⟩, ⟨est, 52 * cnt⟩, ⟨sig, 65⟩, ⟨tst, 20⟩]
    let digest := permitDigest (s.permitBlockAt prm) (s.memRead nam nlen) (s.estatesAt est cnt)
    let ok ← verified (verifyPermit digest (s.memRead sig 65) (s.memRead tst 20))
    pure { s with result := if ok then 1 else 0 }

end Sys2Proof.Machine
end

