-- ==== Sys2Proof/Machine/Dispatch.lean ====
section
/-! DEFINITION. One arm per command (30_encoding.md R113): each is one call of the command's meaning. -/

namespace Sys2Proof.Machine

/-- The engine step of a command whose word has been decoded: its rule and its completion (60_exceptions.md R360). -/
def exec (i : Instr) (s : State) : Host.Outcome State Fault Refusal :=
  match i with
  | .nop => Sys2Proof.Machine.execNop s
  | .kinit => Sys2Proof.Machine.execKinit s
  | .kabsorb => Sys2Proof.Machine.execKabsorb s
  | .kfinal => Sys2Proof.Machine.execKfinal s
  | .ksqueeze => Sys2Proof.Machine.execKsqueeze s
  | .kpermute => Sys2Proof.Machine.execKpermute s
  | .khash => Sys2Proof.Machine.execKhash s
  | .aesKeyexp => Sys2Proof.Machine.execAesKeyexp s
  | .aesEnc => Sys2Proof.Machine.execAesEnc s
  | .ctrXor => Sys2Proof.Machine.execCtrXor s
  | .ctrInc => Sys2Proof.Machine.execCtrInc s
  | .ghSeth => Sys2Proof.Machine.execGhSeth s
  | .ghUpdate => Sys2Proof.Machine.execGhUpdate s
  | .gfMul => Sys2Proof.Machine.execGfMul s
  | .gcmJ0 => Sys2Proof.Machine.execGcmJ0 s
  | .gcmEnc => Sys2Proof.Machine.execGcmEnc s
  | .gcmDec => Sys2Proof.Machine.execGcmDec s
  | .ecFinv => Sys2Proof.Machine.execEcFinv s
  | .ecPadd => Sys2Proof.Machine.execEcPadd s
  | .ecPdbl => Sys2Proof.Machine.execEcPdbl s
  | .ecSmul => Sys2Proof.Machine.execEcSmul s
  | .ecOncurve => Sys2Proof.Machine.execEcOncurve s
  | .ecdsaRecover => Sys2Proof.Machine.execEcdsaRecover s
  | .ecAddr => Sys2Proof.Machine.execEcAddr s
  | .encWord => Sys2Proof.Machine.execEncWord s
  | .eip712Digest => Sys2Proof.Machine.execEip712Digest s
  | .permitDomain => Sys2Proof.Machine.execPermitDomain s
  | .permitToken => Sys2Proof.Machine.execPermitToken s
  | .permitBatch => Sys2Proof.Machine.execPermitBatch s
  | .permitDigest => Sys2Proof.Machine.execPermitDigest s
  | .permitVerify => Sys2Proof.Machine.execPermitVerify s

end Sys2Proof.Machine
end

