-- ==== Sys2Proof/Machine/Engine.lean ====
section
/-! DEFINITION. The engine's turn and how the next event is chosen and performed (20_memory.md R95;
60_exceptions.md R360, R363). -/

namespace Sys2Proof.Machine

/-- The engine decodes CMD and runs the command, or ends it with ILLEGAL_CMD (60_exceptions.md R360,
30_encoding.md R111). -/
def runCommand (s : State) : Result :=
  match decode s.cmd with
  | .ok i => exec i s
  | .error _ => concludeIllegal s

/-- A turn of the engine: its one step while BUSY = 1 (60_exceptions.md R360); idle, keeping all state, while BUSY = 0
(R370). -/
def engineTurn (s : State) : Result := if s.busy then runCommand s else .next s

/-- The next event of the interleaving (20_memory.md R95; log entry 1). When nothing is on the agenda no host access
comes before the engine, so the engine has its turn. -/
def nextEvent (s : State) : Result :=
  match s.agenda with
  | [] => engineTurn s
  | .engine :: _ => engineTurn s.popAgenda
  | .host a :: _ => .next (s.popAgenda.hostAccess a)
  | .powerOn :: _ => .next s.popAgenda.powerOn

/-- The state in which the command word with the given number is accepted (60_exceptions.md R359) and the engine has
the next turn; every event on the agenda stays, after it (log entry 2). -/
def State.withAcceptedWord (s : State) (w : Nat) : State :=
  { s.accept (BitVec.ofNat 32 w) with agenda := if s.agenda.isEmpty then [] else .engine :: s.agenda }

end Sys2Proof.Machine
end

