-- ==== Sys2Proof/Machine/Step.lean ====
section
/-! DEFINITION. One step of the machine: one event of the interleaving of host and engine (20_memory.md R95). -/

namespace Sys2Proof.Machine

/-- One step: the next event (20_memory.md R95, 60_exceptions.md R363). -/
def step (s : State) : Host.Outcome State Fault Refusal := nextEvent s

/-- s with the instruction whose bits are w accepted into CMD, so that the very next step runs it. The WCE fetches
nothing (10_state.md R32): a command comes from a host write to CMD, which this stands for (log entry 2). -/
def State.withFetchWord (s : State) (nbits w : Nat) : State := s.withAcceptedWord (w % 2 ^ nbits)

end Sys2Proof.Machine
end

