-- ==== Sys2Proof/Safety.lean ====
section
/-! DEFINITION. What the claims about the machine are said with: the operands each command needs, what a completion
leaves, what the scratchpad holds afterwards, the classes of bus offsets, and the invariant every step keeps. These
tables are written from the spec, apart from the meanings, so that a claim compares two texts. -/

namespace Sys2Proof.Machine

/-! ### What a command needs -/

/-- The SPM regions a command names, inputs and outputs, in the order of its rule (20_memory.md R83 and the command's own
rule; 30_encoding.md R113). -/
def operandRegions (i : Instr) (s : State) : List Region :=
  match i with
  | .nop | .kinit | .kpermute | .ctrInc | .ghSeth => []
  | .kabsorb => [⟨s.arg 0, 136 * s.arg 1⟩]
  | .kfinal => [⟨s.arg 0, s.arg 1⟩]
  | .ksqueeze => [⟨s.arg 0, s.arg 1⟩]
  | .khash => [⟨s.arg 0, s.arg 1⟩, ⟨s.arg 2, 32⟩]
  | .aesKeyexp => [⟨s.arg 0, s.arg 1⟩]
  | .aesEnc => [⟨s.arg 0, 16⟩, ⟨s.arg 1, 16⟩]
  | .ctrXor => [⟨s.arg 0, s.arg 1⟩, ⟨s.arg 2, s.arg 1⟩]
  | .ghUpdate => [⟨s.arg 0, 16 * s.arg 1⟩]
  | .gfMul => [⟨s.arg 0, 16⟩, ⟨s.arg 1, 16⟩, ⟨s.arg 2, 16⟩]
  | .gcmJ0 => [⟨s.arg 0, s.arg 1⟩]
  | .gcmEnc | .gcmDec =>
    [⟨s.arg 0, s.arg 1⟩, ⟨s.arg 2, s.arg 3⟩, ⟨s.arg 4, s.arg 5⟩, ⟨s.arg 6, s.arg 5⟩, ⟨s.arg 7, 16⟩]
  | .ecFinv => [⟨s.arg 0, 32⟩, ⟨s.arg 1, 32⟩]
  | .ecPadd => [⟨s.arg 0, 64⟩, ⟨s.arg 1, 64⟩, ⟨s.arg 2, 64⟩]
  | .ecPdbl => [⟨s.arg 0, 64⟩, ⟨s.arg 1, 64⟩]
  | .ecSmul => [⟨s.arg 0, 32⟩, ⟨s.arg 1, 64⟩, ⟨s.arg 2, 64⟩]
  | .ecOncurve => [⟨s.arg 0, 64⟩]
  | .ecdsaRecover => [⟨s.arg 0, 32⟩, ⟨s.arg 1, 65⟩, ⟨s.arg 2, 64⟩]
  | .ecAddr => [⟨s.arg 0, 64⟩, ⟨s.arg 1, 20⟩]
  | .encWord => [⟨s.arg 0, s.arg 1⟩, ⟨s.arg 2, 32⟩]
  | .eip712Digest => [⟨s.arg 0, 32⟩, ⟨s.arg 1, 32⟩, ⟨s.arg 2, 32⟩]
  | .permitDomain => [⟨s.arg 0, 232⟩, ⟨s.arg 1, s.arg 2⟩, ⟨s.arg 3, 32⟩]
  | .permitToken => [⟨s.arg 0, 232⟩, ⟨s.arg 1, 52⟩, ⟨s.arg 2, 32⟩]
  | .permitBatch => [⟨s.arg 0, 232⟩, ⟨s.arg 1, 52 * s.arg 2⟩, ⟨s.arg 3, 32⟩]
  | .permitDigest => [⟨s.arg 0, 232⟩, ⟨s.arg 1, s.arg 2⟩, ⟨s.arg 3, 52 * s.arg 4⟩, ⟨s.arg 5, 32⟩]
  | .permitVerify =>
    [⟨s.arg 0, 232⟩, ⟨s.arg 1, s.arg 2⟩, ⟨s.arg 3, 52 * s.arg 4⟩, ⟨s.arg 5, 65⟩, ⟨s.arg 6, 20⟩]

/-- Every length operand is in its legal set (60_exceptions.md R351, row INVALID_LENGTH). -/
def lengthsLegal (i : Instr) (s : State) : Bool :=
  match i with
  | .kfinal => decide (s.arg 1 ≤ 135)
  | .ksqueeze => decide (s.arg 1 ≤ 136)
  | .aesKeyexp => s.arg 1 == 16 || s.arg 1 == 24 || s.arg 1 == 32
  | .encWord => decide (s.arg 1 ≤ 32)
  | .nop | .kinit | .kabsorb | .kpermute | .khash | .aesEnc | .ctrXor | .ctrInc | .ghSeth | .ghUpdate | .gfMul
  | .gcmJ0 | .gcmEnc | .gcmDec | .ecFinv | .ecPadd | .ecPdbl | .ecSmul | .ecOncurve | .ecdsaRecover | .ecAddr
  | .eip712Digest | .permitDomain | .permitToken | .permitBatch | .permitDigest | .permitVerify => true

/-- The AES-based commands, which need a held key (60_exceptions.md R351, row NO_KEY). -/
def needsKey (i : Instr) : Bool := i ∈ [.aesEnc, .ctrXor, .ghSeth, .gcmJ0, .gcmEnc, .gcmDec]

/-- A command's checks 2 to 4 of 60_exceptions.md R353 all pass: lengths legal, regions in bounds, a key held where one
is needed. -/
abbrev Ready (i : Instr) (s : State) : Prop :=
  lengthsLegal i s = true ∧ (operandRegions i s).all s.inBounds = true ∧ (needsKey i = true → s.keyValid = true)

/-! ### What a completion leaves -/

/-- The state a success leaves when the command writes nothing (60_exceptions.md R360). -/
def State.succeeded (s : State) : State := { s with busy := false, done := true, err := false, errcode := .ok }

/-- The state an error leaves (60_exceptions.md R356, R360). -/
def State.failed (s : State) (e : ErrorCode) : State := { s with busy := false, done := true, err := true, errcode := e }

/-- Every SPM byte outside the regions reads in `t` as in `s`. -/
def SpmKeptOutside (rs : List Region) (s t : State) : Prop :=
  ∀ a : Nat, (∀ r ∈ rs, r.covers a = false) → t.readByte a = s.readByte a

/-- `t` is `s` after a success that wrote the string `bs` to the region `r` and nothing else. -/
def WroteOnly (s t : State) (r : Region) (bs : List Byte) : Prop :=
  t = { s.succeeded with spm := t.spm } ∧ bs.length = r.len ∧ t.memRead r.off r.len = bs ∧ SpmKeptOutside [r] s t

/-- The state after the host has written its operands to ARG0, ARG1, ..., and 0 to the rest (30_encoding.md R116). -/
def State.withArgs (s : State) (l : List Nat) : State :=
  { s with args := tabulate 8 fun i => BitVec.ofNat 32 (l.getD i 0) }

/-- Two regions have no byte in common. -/
def Region.disjoint (r q : Region) : Prop := r.off + r.len ≤ q.off ∨ q.off + q.len ≤ r.off

/-! ### The permit pre-images

The strings the permit digests hash, read from the scratchpad field by field (45_eip712.md R302 to R308), apart from the
meanings. `Word(a)` of a 20-byte address is `zeros 12 ++ a` (R300). -/

/-- DOMAIN_TYPEHASH ‖ K(name) ‖ chainId ‖ Word(verifyingContract), 128 bytes (45_eip712.md R304). -/
def State.domainPreimage (s : State) (prm nam nlen : Nat) : List Byte :=
  s.memRead prm 32 ++ keccak256 (s.memRead nam nlen) ++ s.memRead (prm + 96) 32
    ++ (zeros 12 ++ s.memRead (prm + 128) 20)

/-- TOKEN_TYPEHASH ‖ Word(token) ‖ amount, 96 bytes, of the estate record at an offset (45_eip712.md R303, R305). -/
def State.tokenPreimage (s : State) (prm est : Nat) : List Byte :=
  s.memRead (prm + 32) 32 ++ (zeros 12 ++ s.memRead est 20) ++ s.memRead (est + 20) 32

/-- The token digests of the cnt records in order, packed, 32 cnt bytes (45_eip712.md R301, R305). -/
def State.permissionsPreimage (s : State) (prm est cnt : Nat) : List Byte :=
  (List.range cnt).flatMap fun i => keccak256 (s.tokenPreimage prm (est + 52 * i))

/-- BATCH_TYPEHASH ‖ permissions digest ‖ Word(spender) ‖ nonce ‖ deadline, 160 bytes (45_eip712.md R306). -/
def State.batchPreimage (s : State) (prm est cnt : Nat) : List Byte :=
  s.memRead (prm + 64) 32 ++ keccak256 (s.permissionsPreimage prm est cnt) ++ (zeros 12 ++ s.memRead (prm + 148) 20)
    ++ s.memRead (prm + 168) 32 ++ s.memRead (prm + 200) 32

/-- 0x19 ‖ 0x01 ‖ domain separator ‖ batch digest, 66 bytes (45_eip712.md R307, R308). -/
def State.permitPreimage (s : State) (prm nam nlen est cnt : Nat) : List Byte :=
  0x19 :: 0x01 :: (keccak256 (s.domainPreimage prm nam nlen) ++ keccak256 (s.batchPreimage prm est cnt))

/-! ### The agenda and the bus -/

/-- The next event is a turn of the engine (20_memory.md R95; log entry 1). -/
def EngineNext (s : State) : Prop := s.agenda = [] ∨ ∃ rest, s.agenda = .engine :: rest

/-- The access by address for an access by offset, with the block at the given base (20_memory.md R93). -/
def absoluteAccess (base : Nat) : Access → Access
  | .read width off => .read width (base + off)
  | .write width off v => .write width (base + off) v

/-- The host's turn with the given access to the block: `a` gives the offset, relative to WCE_BASE wherever it lies
(20_memory.md R93). -/
def State.hostTurn (s : State) (a : Access) : Turn := .host (absoluteAccess s.params.wceBase a)

/-- The next event is the given host access to the block, by offset, and `rest` follows it. -/
def HostNext (s : State) (a : Access) (rest : List Turn) : Prop := s.agenda = s.hostTurn a :: rest

/-- The unmapped offsets 20_memory.md R86 lists. -/
def unmappedOffset (p : Params) (off : Nat) : Prop :=
  (0x080 ≤ off ∧ off ≤ 0x0FF) ∨ (0x1C8 ≤ off ∧ off ≤ 0x1FF) ∨ (0x2F0 ≤ off ∧ off ≤ 0xFFF) ∨ 0x1000 + p.spmBytes ≤ off

/-- ID, VERSION, RESULT, SPMSIZE, AESNR, RK (20_memory.md R86; offsets of 10_state.md R30). -/
def readOnlyOffset (off : Nat) : Prop :=
  off = 0x000 ∨ off = 0x004 ∨ off = 0x014 ∨ off = 0x018 ∨ off = 0x01C ∨ (0x200 ≤ off ∧ off ≤ 0x2EF)

/-- ARG0 to ARG7, CB, H, Y, J0, KSTATE, SPM (20_memory.md R88; offsets of 10_state.md R30). -/
def dataOffset (p : Params) (off : Nat) : Prop :=
  (0x020 ≤ off ∧ off ≤ 0x07F) ∨ (0x100 ≤ off ∧ off ≤ 0x1C7) ∨ (0x1000 ≤ off ∧ off < 0x1000 + p.spmBytes)

/-- CB, H, Y, J0, KSTATE, RK, SPM, RESULT, AESNR (20_memory.md R89; offsets of 10_state.md R30). -/
def hiddenOffset (p : Params) (off : Nat) : Prop :=
  off = 0x014 ∨ off = 0x01C ∨ (0x040 ≤ off ∧ off ≤ 0x07F) ∨ (0x100 ≤ off ∧ off ≤ 0x1C7)
    ∨ (0x200 ≤ off ∧ off ≤ 0x2EF) ∨ (0x1000 ≤ off ∧ off < 0x1000 + p.spmBytes)

/-! ### The invariant -/

/-- The words of RK after those of the held key read as zero; with no key held all do (10_state.md R38). -/
def RoundKeysFit (s : State) : Prop :=
  ∀ i : Fin 60, (s.aesnr = 0 ∨ 4 * (s.aesnr.toNat + 1) ≤ i.val) → s.rk[i] = 0

/-- What holds of the machine in every state a step leaves, once it holds: legal parameters (00_scope.md R6), the SPM in
canonical form and inside SPM_BYTES (20_memory.md R80), AESNR one of its values and RK zero beyond the key
(10_state.md R38), RESULT a boolean (R36), and the STATUS fields as acceptance and completion leave them
(60_exceptions.md R359, R360). -/
structure State.Inv (s : State) : Prop where
  params : s.params.wellFormed = true
  canonical : s.spm.wf = true
  inside : ∀ c ∈ s.spm, c.1 < s.params.spmBytes
  keyRounds : s.aesnr = 0 ∨ s.aesnr = 10 ∨ s.aesnr = 12 ∨ s.aesnr = 14
  roundKeys : RoundKeysFit s
  boolean : s.result = 0 ∨ s.result = 1
  running : s.busy = true → s.done = false ∧ s.err = false ∧ s.errcode = .ok
  errors : s.err = true → s.errcode ≠ .ok

end Sys2Proof.Machine
end

