-- ==== Sys2Proof/Certificates/Slice0/Obligations.lean ====
section
/-! DEFINITION. The statements for the provers. Each docstring names the rule of spec/ it formalises, or says that it is
derived. `Ready`, `WroteOnly`, the offset classes and the invariant stand in Safety.lean. -/

open Sys2Proof Sys2Proof.Machine

/-! ### Encoding and the engine's turn -/

/-- Every word has at most one meaning, and it is the encoding of that command: no other word decodes to it
(30_encoding.md R110, R111, R114). -/
def Obligations.DecodeIsExactlyTheOpcodeMap : Prop :=
  ∀ (w : Word) (i : Instr), decode w = .ok i ↔ w = encode i

/-- The words of the opcode map, written out, and the illegal words of 95_test_vectors.md V-C1 (30_encoding.md R113). -/
def Obligations.ListedWordsDecode : Prop :=
  decode 0x00000000 = .ok .nop ∧ decode 0x00000010 = .ok .kinit ∧ decode 0x00000011 = .ok .kabsorb
  ∧ decode 0x00000012 = .ok .kfinal ∧ decode 0x00000013 = .ok .ksqueeze ∧ decode 0x00000014 = .ok .kpermute
  ∧ decode 0x00000015 = .ok .khash ∧ decode 0x00000020 = .ok .aesKeyexp ∧ decode 0x00000021 = .ok .aesEnc
  ∧ decode 0x00000028 = .ok .ctrXor ∧ decode 0x00000029 = .ok .ctrInc ∧ decode 0x00000030 = .ok .ghSeth
  ∧ decode 0x00000031 = .ok .ghUpdate ∧ decode 0x00000032 = .ok .gfMul ∧ decode 0x00000033 = .ok .gcmJ0
  ∧ decode 0x00000034 = .ok .gcmEnc ∧ decode 0x00000035 = .ok .gcmDec ∧ decode 0x00000040 = .ok .ecFinv
  ∧ decode 0x00000041 = .ok .ecPadd ∧ decode 0x00000042 = .ok .ecPdbl ∧ decode 0x00000043 = .ok .ecSmul
  ∧ decode 0x00000044 = .ok .ecOncurve ∧ decode 0x00000048 = .ok .ecdsaRecover ∧ decode 0x00000049 = .ok .ecAddr
  ∧ decode 0x00000050 = .ok .encWord ∧ decode 0x00000051 = .ok .eip712Digest ∧ decode 0x00000052 = .ok .permitDomain
  ∧ decode 0x00000053 = .ok .permitToken ∧ decode 0x00000054 = .ok .permitBatch ∧ decode 0x00000055 = .ok .permitDigest
  ∧ decode 0x00000056 = .ok .permitVerify
  ∧ decode 0x00000001 = .error .unlistedOpcode ∧ decode 0x00000016 = .error .unlistedOpcode
  ∧ decode 0x00000036 = .error .unlistedOpcode ∧ decode 0x00000057 = .error .unlistedOpcode
  ∧ decode 0x000000FF = .error .unlistedOpcode ∧ decode 0x00000115 = .error .reservedBits
  ∧ decode 0x80000010 = .error .reservedBits

/-- The engine's turn while BUSY: a word with RSVD ≠ 0 or an OPC outside the map ends with ILLEGAL_CMD and changes nothing
else; every other word decodes to a command, which executes (30_encoding.md R111, with the legal codes of R115). -/
def Obligations.EngineTurnDecodesTheWord : Prop :=
  ∀ s : State, EngineNext s → s.busy = true →
    ((commandFields s.cmd).wellFormed = false → step s = .next ({ s with agenda := s.agenda.tail }.failed .illegalCmd))
    ∧ ((commandFields s.cmd).wellFormed = true →
        ∃ i, decode s.cmd = .ok i ∧ step s = exec i { s with agenda := s.agenda.tail })

/-- A step runs the decoded command: when the engine has the next turn, a command is waiting and CMD decodes to `i`, the
step is `exec i` at that state with the turn taken off the agenda (60_exceptions.md R360; the agenda is the model's, log
entry 1). -/
def Obligations.StepRunsTheDecodedCommand : Prop :=
  ∀ (s : State) (i : Instr), EngineNext s → s.busy = true → decode s.cmd = .ok i →
    step s = exec i { s with agenda := s.agenda.tail }

/-- No step faults or refuses, no step changes the parameters, an idle engine keeps all state, and a host access at an
address below WCE_BASE is not the block's: it only takes its turn (60_exceptions.md R350, R370;
93_implementation_defined.md part 1; 20_memory.md R93; the last is read from R93 by inference, log entry 11). -/
def Obligations.StepAlwaysAnswersNext : Prop :=
  (∀ s : State, ∃ t, step s = .next t ∧ t.params = s.params)
  ∧ (∀ s : State, EngineNext s → s.busy = false → step s = .next { s with agenda := s.agenda.tail })
  ∧ ∀ (s : State) (width addr : Nat) (v : Word) (rest : List Turn), addr < s.params.wceBase →
      (s.agenda = .host (.read width addr) :: rest ∨ s.agenda = .host (.write width addr v) :: rest) →
      step s = .next { s with agenda := rest }

/-! ### The host bus -/

/-- A write to CMD is accepted exactly while BUSY = 0 (60_exceptions.md R359). -/
def Obligations.CmdWriteAcceptedWhenIdle : Prop :=
  ∀ (s : State) (v : Word) (rest : List Turn), HostNext s (.write 32 0x010 v) rest →
    (s.busy = false → step s = .next { s with
        agenda := rest, cmd := v, done := false, err := false, errcode := .ok, busy := true })
    ∧ (s.busy = true → step s = .next { s with agenda := rest, overrun := true })

/-- Narrow and misaligned accesses are not performed (20_memory.md R87). -/
def Obligations.NarrowOrMisalignedNotPerformed : Prop :=
  ∀ (s : State) (width off : Nat) (v : Word) (rest : List Turn), (width ≠ 32 ∨ off % 4 ≠ 0) →
    (HostNext s (.write width off v) rest → step s = .next { s with agenda := rest })
    ∧ (HostNext s (.read width off) rest → step s = .next { s with agenda := rest, readData := 0 })

/-- Unmapped offsets read 0 and ignore writes, read-only registers ignore writes, and neither sets OVERRUN, whether or
not a command runs (20_memory.md R86). -/
def Obligations.UnmappedAndReadOnlyAccesses : Prop :=
  ∀ (s : State) (off : Nat) (v : Word) (rest : List Turn), off % 4 = 0 →
    (unmappedOffset s.params off → HostNext s (.read 32 off) rest →
        step s = .next { s with agenda := rest, readData := 0 })
    ∧ (unmappedOffset s.params off ∨ readOnlyOffset off → HostNext s (.write 32 off v) rest →
        step s = .next { s with agenda := rest })

/-- While BUSY = 1 a write to CMD, ARG, CB, H, Y, J0, KSTATE or SPM is dropped and sets OVERRUN, and writes to CTRL and
STATUS take effect (20_memory.md R88). -/
def Obligations.BusyWritesDroppedWithOverrun : Prop :=
  ∀ (s : State) (off : Nat) (v : Word) (rest : List Turn), s.params.wellFormed = true → s.busy = true →
    off % 4 = 0 → HostNext s (.write 32 off v) rest →
    (off = 0x010 ∨ dataOffset s.params off → step s = .next { s with agenda := rest, overrun := true })
    ∧ (off = 0x00C → step s = .next { s with
        agenda := rest, done := s.done && !v.getLsbD 1, err := s.err && !v.getLsbD 2,
        overrun := s.overrun && !v.getLsbD 3 })
    ∧ (off = 0x008 → v.getLsbD 1 = false → step s = .next { s with agenda := rest, ie := v.getLsbD 0 })
    ∧ (off = 0x008 → v.getLsbD 1 = true → step s = .next { s with agenda := rest }.softReset)

/-- While BUSY = 1 a read of CB, H, Y, J0, KSTATE, RK, SPM, RESULT or AESNR returns the next free value, and each read
draws its own (20_memory.md R89; the draw count is the model's, log entry 5). -/
def Obligations.BusyReadsReturnFreshDraws : Prop :=
  ∀ (s : State) (off : Nat) (rest : List Turn), s.params.wellFormed = true → s.busy = true → off % 4 = 0 →
    hiddenOffset s.params off → HostNext s (.read 32 off) rest →
    step s = .next { s with agenda := rest, readData := Config.drawnWord s.drawn, drawn := s.drawn + 1 }

/-- What host reads return exactly: ID, VERSION, CTRL, STATUS, CMD, SPMSIZE and ARGi always; RESULT, AESNR and the byte
windows, little-endian, while BUSY = 0, so that lane i of KSTATE is its low word at 0x100 + 8i and its high word after it
(20_memory.md R84, R85, R89; 10_state.md R30, R36, R37). -/
def Obligations.HostReadsReturnTheRegisters : Prop :=
  ∀ (s : State) (off : Nat) (rest : List Turn), HostNext s (.read 32 off) rest →
    let answers (w : Word) := step s = .next { s with agenda := rest, readData := w }
    let wordOf (b : List Byte) (m : Nat) := BitVec.ofNat 32 (le (slice b (4 * m) (4 * m + 4)))
    (off = 0x000 → answers 0x57434531) ∧ (off = 0x004 → answers 0x00000001)
    ∧ (off = 0x008 → answers s.ctrlWord) ∧ (off = 0x00C → answers s.statusWord) ∧ (off = 0x010 → answers s.cmd)
    ∧ (off = 0x018 → answers (BitVec.ofNat 32 s.params.spmBytes))
    ∧ (∀ i : Fin 8, off = 0x020 + 4 * i.val → answers s.args[i])
    ∧ (s.busy = false →
        (off = 0x014 → answers s.result) ∧ (off = 0x01C → answers s.aesnr)
        ∧ (∀ m < 4, off = 0x040 + 4 * m → answers (wordOf (blockBytes s.cb) m))
        ∧ (∀ m < 4, off = 0x050 + 4 * m → answers (wordOf (blockBytes s.h) m))
        ∧ (∀ m < 4, off = 0x060 + 4 * m → answers (wordOf (blockBytes s.y) m))
        ∧ (∀ m < 4, off = 0x070 + 4 * m → answers (wordOf (blockBytes s.j0) m))
        ∧ (∀ m < 50, off = 0x100 + 4 * m → answers (wordOf (stateBytes s.kstate) m))
        ∧ (∀ i : Fin 25, off = 0x100 + 8 * i.val → answers (s.kstate[i].extractLsb' 0 32))
        ∧ (∀ i : Fin 25, off = 0x104 + 8 * i.val → answers (s.kstate[i].extractLsb' 32 32))
        ∧ (∀ m < 60, off = 0x200 + 4 * m → answers (wordOf (roundKeyBytes s.rk) m))
        ∧ (∀ m, 4 * m + 4 ≤ s.params.spmBytes → off = 0x1000 + 4 * m →
            answers (BitVec.ofNat 32 (le (s.memRead (4 * m) 4)))))

/-- STATUS: where its fields lie and which bits read 0; a write clears each of DONE, ERR and OVERRUN whose bit is 1 and
changes nothing else, ERRCODE kept, whether or not a command runs (10_state.md R34; 60_exceptions.md R351 for the codes). -/
def Obligations.StatusFieldsAndWriteOneToClear : Prop :=
  (∀ (s : State) (k : Nat), s.statusWord.getLsbD k =
      if k = 0 then s.busy else if k = 1 then s.done else if k = 2 then s.err else if k = 3 then s.overrun
      else if k = 4 then decide (s.aesnr ≠ 0) else if 8 ≤ k ∧ k < 16 then s.errcode.code.getLsbD (k - 8) else false)
  ∧ ∀ (s : State) (v : Word) (rest : List Turn), HostNext s (.write 32 0x00C v) rest →
      step s = .next { s with
        agenda := rest, done := s.done && !v.getLsbD 1, err := s.err && !v.getLsbD 2,
        overrun := s.overrun && !v.getLsbD 3 }

/-- CTRL: IE in bit 0 with IRQ = IE AND DONE, every other bit reads 0; a write with SRST = 0 sets IE alone and a write
with SRST = 1 performs the soft reset and leaves IE = 0, whether or not a command runs (10_state.md R35). -/
def Obligations.CtrlRegisterFields : Prop :=
  (∀ (s : State) (k : Nat), s.ctrlWord.getLsbD k = (decide (k = 0) && s.ie))
  ∧ (∀ s : State, s.irq = (s.ie && s.done))
  ∧ ∀ (s : State) (v : Word) (rest : List Turn), HostNext s (.write 32 0x008 v) rest →
      (v.getLsbD 1 = false → step s = .next { s with agenda := rest, ie := v.getLsbD 0 })
      ∧ (v.getLsbD 1 = true →
          ∃ t, step s = .next t ∧ t = { s with agenda := rest }.softReset ∧ t.ie = false)

/-- With BUSY = 0 a word written to ARG, CB, H, Y, J0, KSTATE or SPM is read back (20_memory.md R84, R85). -/
def Obligations.HostWriteThenReadBack : Prop :=
  ∀ (s : State) (off : Nat) (v : Word), s.params.wellFormed = true → s.busy = false → off % 4 = 0 →
    dataOffset s.params off →
    s.agenda = [s.hostTurn (.write 32 off v), s.hostTurn (.read 32 off)] →
    ∃ t, core.run 2 s = .next t ∧ t.readData = v

/-- With BUSY = 0 a host write changes the bytes le_4(v) at its place in its register or window, and nothing else
(20_memory.md R84, R85). -/
def Obligations.HostWriteFrame : Prop :=
  ∀ (s : State) (off : Nat) (v : Word) (rest : List Turn), s.busy = false → HostNext s (.write 32 off v) rest →
    let put (b : List Byte) (m : Nat) := b.take (4 * m) ++ leBytes 4 v.toNat ++ b.drop (4 * m + 4)
    (∀ i : Fin 8, off = 0x020 + 4 * i.val → step s = .next { s with agenda := rest, args := s.args.set i v })
    ∧ (∀ m < 4, off = 0x040 + 4 * m →
        ∃ t, step s = .next t ∧ t = { s with agenda := rest, cb := t.cb } ∧ blockBytes t.cb = put (blockBytes s.cb) m)
    ∧ (∀ m < 4, off = 0x050 + 4 * m →
        ∃ t, step s = .next t ∧ t = { s with agenda := rest, h := t.h } ∧ blockBytes t.h = put (blockBytes s.h) m)
    ∧ (∀ m < 4, off = 0x060 + 4 * m →
        ∃ t, step s = .next t ∧ t = { s with agenda := rest, y := t.y } ∧ blockBytes t.y = put (blockBytes s.y) m)
    ∧ (∀ m < 4, off = 0x070 + 4 * m →
        ∃ t, step s = .next t ∧ t = { s with agenda := rest, j0 := t.j0 } ∧ blockBytes t.j0 = put (blockBytes s.j0) m)
    ∧ (∀ m < 50, off = 0x100 + 4 * m →
        ∃ t, step s = .next t ∧ t = { s with agenda := rest, kstate := t.kstate }
          ∧ stateBytes t.kstate = put (stateBytes s.kstate) m)
    ∧ (∀ m, 4 * m + 4 ≤ s.params.spmBytes → off = 0x1000 + 4 * m →
        ∃ t, step s = .next t ∧ t = { s with agenda := rest, spm := t.spm }
          ∧ t.memRead (4 * m) 4 = leBytes 4 v.toNat ∧ SpmKeptOutside [⟨4 * m, 4⟩] s t)

/-! ### Reset, interrupt, interleaving -/

/-- The soft reset, whether or not a command runs: every register at its reset value, the command cancelled so that the
engine's next turn does nothing, every SPM byte kept that is not in an output region of the cancelled command, and the
bytes of its one output region, or of its two, each a fresh free value; a byte in both regions takes the draw of the
later one (70_reset_and_hazards.md R392; which draw a byte takes is the model's, log entries 5 and 6). -/
def Obligations.SoftResetCancelsAndResets : Prop :=
  ∀ (s : State) (v : Word) (rest : List Turn), HostNext s (.write 32 0x008 v) rest → v.getLsbD 1 = true →
    ∃ t, step s = .next t
      ∧ t = { s with
          ie := false, busy := false, done := false, err := false, overrun := false, errcode := .ok, cmd := 0,
          result := 0, aesnr := 0, args := Vector.replicate 8 0, cb := 0, h := 0, y := 0, j0 := 0,
          kstate := Vector.replicate 25 0, rk := Vector.replicate 60 0,
          agenda := rest, spm := t.spm, drawn := t.drawn }
      ∧ (s.busy = false → t.spm = s.spm ∧ t.drawn = s.drawn)
      ∧ (∀ e, s.busy = true → decode s.cmd = .error e → t.spm = s.spm ∧ t.drawn = s.drawn)
      ∧ (∀ i, s.busy = true → decode s.cmd = .ok i →
          SpmKeptOutside (outputRegions i s) s t
          ∧ (∀ r, outputRegions i s = [r] → ∀ k < r.len, r.off + k < s.params.spmBytes →
              t.readByte (r.off + k) = Config.drawnByte (s.drawn + k))
          ∧ ∀ r q, outputRegions i s = [r, q] →
              (∀ k < r.len, r.off + k < s.params.spmBytes → q.covers (r.off + k) = false →
                t.readByte (r.off + k) = Config.drawnByte (s.drawn + k))
              ∧ ∀ k < q.len, q.off + k < s.params.spmBytes →
                t.readByte (q.off + k)
                  = Config.drawnByte (s.drawn + min r.len (s.params.spmBytes - r.off) + k))
      ∧ ∀ more, rest = .engine :: more → step t = .next { t with agenda := more }

/-- Power-on reset: every register at its reset value, IRQ = 0, no command running, and every SPM byte a fresh free
value (70_reset_and_hazards.md R390; log entries 4 and 5). -/
def Obligations.PowerOnResetsEverything : Prop :=
  ∀ (s : State) (rest : List Turn), s.agenda = .powerOn :: rest →
    ∃ t, step s = .next t
      ∧ t = { s with
          ie := false, busy := false, done := false, err := false, overrun := false, errcode := .ok, cmd := 0,
          result := 0, aesnr := 0, args := Vector.replicate 8 0, cb := 0, h := 0, y := 0, j0 := 0,
          kstate := Vector.replicate 25 0, rk := Vector.replicate 60 0,
          agenda := rest, spm := t.spm, drawn := t.drawn }
      ∧ t.irq = false ∧ t.statusWord = 0 ∧ t.ctrlWord = 0
      ∧ ∀ a < s.params.spmBytes, t.readByte a = Config.drawnByte (s.drawn + a)

/-- The interrupt output is IE AND DONE: after any command it is IE, whatever the error code; a write of 1 to DONE, a
started command, IE = 0 and a soft reset each take it to 0; OVERRUN does not raise it (60_exceptions.md R362). -/
def Obligations.InterruptFollowsDone : Prop :=
  (∀ (i : Instr) (s t : State), exec i s = .next t → t.irq = s.ie)
  ∧ (∀ (s : State) (v : Word) (rest : List Turn), HostNext s (.write 32 0x00C v) rest → v.getLsbD 1 = true →
      ∃ t, step s = .next t ∧ t.irq = false)
  ∧ (∀ (s : State) (v : Word) (rest : List Turn), HostNext s (.write 32 0x010 v) rest → s.busy = false →
      ∃ t, step s = .next t ∧ t.irq = false)
  ∧ (∀ (s : State) (v : Word) (rest : List Turn), HostNext s (.write 32 0x008 v) rest →
      (v.getLsbD 0 = false ∨ v.getLsbD 1 = true) → ∃ t, step s = .next t ∧ t.irq = false)
  ∧ ∀ (s : State) (v : Word) (rest : List Turn), HostNext s (.write 32 0x010 v) rest → s.busy = true →
      ∃ t, step s = .next t ∧ t.overrun = true ∧ t.irq = s.irq

/-- Host access and engine step in either order: a STATUS write before the step has no effect on the completion, a write
to CMD or an ARG before it is dropped with OVERRUN and the command is not affected, and a soft reset before it cancels the
command; an ARG write after it takes effect (60_exceptions.md R363, 20_memory.md R95, 95_test_vectors.md PR-6). -/
def Obligations.RacesResolveByOrder : Prop :=
  ∀ (s u : State) (i : Instr) (v : Word) (k : Fin 8), s.busy = true → decode s.cmd = .ok i →
    exec i { s with agenda := [] } = .next u →
    (s.agenda = [s.hostTurn (.write 32 0x00C v), .engine] →
        core.run 2 s = .next { u with overrun := s.overrun && !v.getLsbD 3 })
    ∧ (s.agenda = [s.hostTurn (.write 32 0x010 v), .engine] → core.run 2 s = .next { u with overrun := true })
    ∧ (s.agenda = [s.hostTurn (.write 32 (0x020 + 4 * k.val) v), .engine] → core.run 2 s = .next { u with overrun := true })
    ∧ (s.agenda = [.engine, s.hostTurn (.write 32 (0x020 + 4 * k.val) v)] →
        core.run 2 s = .next { u with args := u.args.set k v })
    ∧ (s.agenda = [s.hostTurn (.write 32 0x008 v), .engine] → v.getLsbD 1 = true →
        ∃ t, core.run 2 s = .next t ∧ t.busy = false ∧ t.done = false)

/-! ### Keccak -/

/-- NOP changes only STATUS; KINIT zeroes KSTATE and KPERMUTE applies Keccak-f, with no condition and nothing else
changed (46_engine_control.md R340, 40_keccak.md R155, R159). -/
def Obligations.NopKinitKpermuteResults : Prop :=
  ∀ s : State, exec .nop s = .next s.succeeded
    ∧ exec .kinit s = .next { s.succeeded with kstate := Vector.replicate 25 0 }
    ∧ exec .kpermute s = .next { s.succeeded with kstate := keccakF s.kstate }

/-- The five step mappings lane by lane, ι for every round constant, and Keccak-f as their composition θ, ρ, π, χ, ι over
24 rounds, with the round constants written out (40_keccak.md R143 to R148, with R140 and R141). -/
def Obligations.KeccakStepMappings : Prop :=
  (∀ (A : Lanes) (rc : Lane) (x y : Nat), x < 5 → y < 5 →
    let C (x : Nat) := lane A x 0 ^^^ lane A x 1 ^^^ lane A x 2 ^^^ lane A x 3 ^^^ lane A x 4
    lane (theta A) x y = lane A x y ^^^ (C (x + 4) ^^^ (C (x + 1)).rotateLeft 1)
    ∧ lane (rho A) x y = (lane A x y).rotateLeft
        ([0, 1, 62, 28, 27, 36, 44, 6, 55, 20, 3, 10, 43, 25, 39, 41, 45, 15, 21, 8, 18, 2, 61, 56, 14].getD
          (x + 5 * y) 0)
    ∧ lane (piStep A) x y = lane A ((x + 3 * y) % 5) x
    ∧ lane (chi A) x y = lane A x y ^^^ (~~~(lane A (x + 1) y) &&& lane A (x + 2) y)
    ∧ lane (iota A rc) x y = if x = 0 ∧ y = 0 then lane A 0 0 ^^^ rc else lane A x y)
  ∧ ∀ A : Lanes,
    let RC : List Lane :=
      [0x0000000000000001, 0x0000000000008082, 0x800000000000808A, 0x8000000080008000, 0x000000000000808B,
        0x0000000080000001, 0x8000000080008081, 0x8000000000008009]
      ++ [0x000000000000008A, 0x0000000000000088, 0x0000000080008009, 0x000000008000000A, 0x000000008000808B,
        0x800000000000008B, 0x8000000000008089, 0x8000000000008003]
      ++ [0x8000000000008002, 0x8000000000000080, 0x000000000000800A, 0x800000008000000A, 0x8000000080008081,
        0x8000000000008080, 0x0000000080000001, 0x8000000080008008]
    keccakF A = RC.foldl (fun A rc => iota (chi (piStep (rho (theta A)))) rc) A

/-- KABSORB absorbs its blocks in order, and with nblk = 0 leaves KSTATE unchanged; KFINAL pads and absorbs the last
block; nothing else changes. Absorbing XORs the block, little-endian, into lanes 0 to 16, leaves lanes 17 to 24 as they
are, and permutes (40_keccak.md R150, R156, R157). -/
def Obligations.KabsorbKfinalResults : Prop :=
  (∀ s : State, Ready .kabsorb s →
    exec .kabsorb s = .next { s.succeeded with
      kstate := absorbBlocks (s.arg 1) s.kstate (s.memRead (s.arg 0) (136 * s.arg 1)) })
  ∧ (∀ s : State, Ready .kabsorb s → s.arg 1 = 0 → exec .kabsorb s = .next s.succeeded)
  ∧ (∀ s : State, Ready .kfinal s →
    exec .kfinal s = .next { s.succeeded with kstate := absorb s.kstate (pad (s.memRead (s.arg 0) (s.arg 1))) })
  ∧ (∀ (A : Lanes) (B : List Byte),
    absorb A B = keccakF (Vector.ofFn fun i : Fin 25 =>
      if i.val < 17 then A[i] ^^^ BitVec.ofNat 64 (le (slice B (8 * i.val) (8 * i.val + 8))) else A[i]))
  ∧ ∀ (n : Nat) (A : Lanes) (M : List Byte),
    absorbBlocks n A M = (List.range n).foldl (fun A j => absorb A (slice M (136 * j) (136 * j + 136))) A

/-- The final block is 136 bytes: the message, 0x01, zeros, with 0x80 ORed into the last byte, so 0x81 after 135 bytes and
0x01 ‖ 0^134 ‖ 0x80 after none; a whole message is absorbed as its floor(L/136) full blocks and the padded rest
(40_keccak.md R149). -/
def Obligations.PaddingOfTheLastBlock : Prop :=
  (∀ M : List Byte, M.length < 136 →
    (pad M).length = 136
    ∧ (∀ j < 136, (pad M).getD j 0 =
        (if j < M.length then M.getD j 0 else if j = M.length then 0x01 else 0x00) ||| (if j = 135 then 0x80 else 0x00))
    ∧ (M.length = 135 → pad M = M ++ [0x81]))
  ∧ pad [] = [0x01] ++ List.replicate 134 0x00 ++ [0x80]
  ∧ ∀ M : List Byte,
      let q := M.length / 136
      spongeState M = absorb (absorbBlocks q (Vector.replicate 25 0) (M.take (136 * q))) (pad (M.drop (136 * q)))

/-- KSQUEEZE writes the first len state bytes to dst; KSTATE and everything else stay (40_keccak.md R158, R151). -/
def Obligations.KsqueezeResult : Prop :=
  ∀ s : State, Ready .ksqueeze s →
    ∃ t, exec .ksqueeze s = .next t
      ∧ WroteOnly s t ⟨s.arg 0, s.arg 1⟩ ((stateBytes s.kstate).take (s.arg 1))

/-- KHASH writes Keccak-256 of the region, the first 32 bytes of the final state, to dst and leaves KSTATE at that state;
nothing else changes (40_keccak.md R160, R152, R151). -/
def Obligations.KhashResult : Prop :=
  ∀ s : State, Ready .khash s →
    let M := s.memRead (s.arg 0) (s.arg 1)
    ∃ t, exec .khash s = .next t
      ∧ t = { s.succeeded with kstate := spongeState M, spm := t.spm }
      ∧ (keccak256 M).length = 32 ∧ keccak256 M = (stateBytes t.kstate).take 32
      ∧ t.memRead (s.arg 2) 32 = keccak256 M
      ∧ SpmKeptOutside [⟨s.arg 2, 32⟩] s t

/-- Hashing by streaming (KINIT, KABSORB of the whole blocks, KFINAL of the rest, KSQUEEZE 32) leaves the same
KSTATE and the same scratchpad as the one-shot KHASH, for every message length (40_keccak.md R152, R155 to R158, R160). -/
def Obligations.StreamingHashEqualsKhash : Prop :=
  ∀ (s : State) (src len dst : Nat), s.params.wellFormed = true →
    src + len ≤ s.params.spmBytes → dst + 32 ≤ s.params.spmBytes →
    let q := len / 136
    ∃ s1 s2 s3 s4 t,
      exec .kinit s = .next s1
      ∧ exec .kabsorb (s1.withArgs [src, q]) = .next s2
      ∧ exec .kfinal (s2.withArgs [src + 136 * q, len - 136 * q]) = .next s3
      ∧ exec .ksqueeze (s3.withArgs [dst, 32]) = .next s4
      ∧ exec .khash (s.withArgs [src, len, dst]) = .next t
      ∧ s4.errcode = .ok ∧ t.errcode = .ok ∧ s4.kstate = t.kstate
      ∧ t.memRead dst 32 = keccak256 (s.memRead src len) ∧ ∀ a, s4.readByte a = t.readByte a

/-! ### AES -/

/-- AES_KEYEXP holds the key: AESNR, the schedule in RK, zero beyond it, KEYVALID = 1; nothing else changes
(41_aes.md R190, 10_state.md R38). -/
def Obligations.AesKeyexpResult : Prop :=
  ∀ s : State, Ready .aesKeyexp s →
    let w := keyExpansion (s.memRead (s.arg 0) (s.arg 1))
    let nr := s.arg 1 / 4 + 6
    ∃ t, exec .aesKeyexp s = .next t
      ∧ t = { s.succeeded with rk := t.rk, aesnr := BitVec.ofNat 32 nr }
      ∧ t.keyValid = true ∧ w.length = 4 * (nr + 1)
      ∧ (∀ i : Fin 60, i.val < 4 * (nr + 1) → t.rk[i] = w.getD i.val 0)
      ∧ ∀ i : Fin 60, 4 * (nr + 1) ≤ i.val → t.rk[i] = 0

/-- RotWord and SubWord byte by byte, and the words of the key schedule satisfy its recurrence, the extra SubWord of
32-byte keys included (41_aes.md R183; SBOX is in AesRoundFunctions). -/
def Obligations.KeyScheduleRecurrence : Prop :=
  (∀ (w : Word) (j : Nat), j < 4 →
    wordByte w j = w.extractLsb' (8 * (3 - j)) 8
    ∧ wordByte (rotWord w) j = wordByte w ((j + 1) % 4) ∧ wordByte (subWord w) j = sbox (wordByte w j))
  ∧ ∀ K : List Byte, (K.length = 16 ∨ K.length = 24 ∨ K.length = 32) →
    let nk := K.length / 4
    let w (i : Nat) := (keyExpansion K).getD i 0
    (keyExpansion K).length = 4 * (nk + 7)
    ∧ (∀ i < nk, w i = BitVec.ofNat 32 (be (slice K (4 * i) (4 * i + 4))))
    ∧ ∀ i, nk ≤ i → i < 4 * (nk + 7) → w i = w (i - nk) ^^^
        (if i % nk = 0 then
          subWord (rotWord (w (i - 1)))
            ^^^ (([0x01, 0x02, 0x04, 0x08, 0x10, 0x20, 0x40, 0x80, 0x1B, 0x36].getD (i / nk - 1) 0 : Byte)
              ++ (0 : BitVec 24))
        else if nk = 8 ∧ i % 8 = 4 then subWord (w (i - 1))
        else w (i - 1))

/-- AES_ENC writes the encrypted block to dst and nothing else (41_aes.md R191). -/
def Obligations.AesEncResult : Prop :=
  ∀ s : State, Ready .aesEnc s →
    ∃ t, exec .aesEnc s = .next t
      ∧ WroteOnly s t ⟨s.arg 1, 16⟩
          (blockBytes (aesEncrypt s.rk s.aesnr.toNat (bytesBlock (s.memRead (s.arg 0) 16))))

/-- AES from the field up: mul is the XOR of xtime^i(a) over the bits i of b, SBOX[v] the affine map of the
field inverse of v (of 0 for v = 0), the four round functions byte by byte, and the cipher their sequence, key XOR
first and no MixColumns last (41_aes.md R181, R182, R184 to R188). -/
def Obligations.AesRoundFunctions : Prop :=
  (∀ a b : Byte,
    let xt (a : Byte) : Byte := (a <<< 1) ^^^ (if a.getLsbD 7 then 0x1B else 0)
    gf8Mul a b = (List.range 8).foldl (fun z i => if b.getLsbD i then z ^^^ xt^[i] a else z) 0)
  ∧ (∀ v : Byte, ∃ b : Byte, (if v = 0 then b = 0 else gf8Mul v b = 1)
    ∧ sbox v = b ^^^ b.rotateLeft 1 ^^^ b.rotateLeft 2 ^^^ b.rotateLeft 3 ^^^ b.rotateLeft 4 ^^^ 0x63)
  ∧ (∀ (w : Vector Word 60) (nr : Nat) (input : Block),
    let first := addRoundKey w (blockBytes input) 0
    let middle := (List.range (nr - 1)).foldl
      (fun s k => addRoundKey w (mixColumns (shiftRows (subBytes s))) (k + 1)) first
    aesEncrypt w nr input = bytesBlock (addRoundKey w (shiftRows (subBytes middle)) nr))
  ∧ ∀ (s : List Byte) (w : Vector Word 60) (rd r c : Nat), r < 4 → c < 4 →
    let a (r : Nat) := stateByte s r c
    stateByte (subBytes s) r c = sbox (stateByte s r c)
    ∧ stateByte (shiftRows s) r c = stateByte s r ((c + r) % 4)
    ∧ stateByte (mixColumns s) 0 c = gf8Mul 2 (a 0) ^^^ gf8Mul 3 (a 1) ^^^ a 2 ^^^ a 3
    ∧ stateByte (mixColumns s) 1 c = a 0 ^^^ gf8Mul 2 (a 1) ^^^ gf8Mul 3 (a 2) ^^^ a 3
    ∧ stateByte (mixColumns s) 2 c = a 0 ^^^ a 1 ^^^ gf8Mul 2 (a 2) ^^^ gf8Mul 3 (a 3)
    ∧ stateByte (mixColumns s) 3 c = gf8Mul 3 (a 0) ^^^ a 1 ^^^ a 2 ^^^ gf8Mul 2 (a 3)
    ∧ stateByte (addRoundKey w s rd) r c = stateByte s r c ^^^ wordByte (w.toList.getD (4 * rd + c) 0) r

/-! ### Counter mode, GHASH, GCM -/

/-- inc32 changes only the last 4 bytes, as a wrapping big-endian counter; CTR_INC applies it to CB and changes nothing
else (42_ctr_ghash_gcm.md R210, R217). -/
def Obligations.CtrIncResult : Prop :=
  (∀ cb : Block, blockBytes (inc32 cb)
      = (blockBytes cb).take 12 ++ beBytes 4 ((be ((blockBytes cb).drop 12) + 1) % 2 ^ 32))
  ∧ ∀ s : State, exec .ctrInc s = .next { s.succeeded with cb := inc32 s.cb }

/-- GCTR: byte k of the output is byte k of the input XOR byte k mod 16 of E(inc32^[k / 16] CB), for every cipher E, and
the counter block after it is inc32^[ceil(len / 16)] CB. CTR_XOR writes that string to dst and advances CB, its first 12
bytes kept; nothing else changes (42_ctr_ghash_gcm.md R215, R216). -/
def Obligations.CtrXorResult : Prop :=
  (∀ (E : Block → Block) (cb : Block) (X : List Byte),
    (gctr E cb X).1.length = X.length
    ∧ (∀ k < X.length, (gctr E cb X).1.getD k 0 = X.getD k 0 ^^^ (blockBytes (E (inc32^[k / 16] cb))).getD (k % 16) 0)
    ∧ (gctr E cb X).2 = inc32^[(X.length + 15) / 16] cb)
  ∧ ∀ s : State, Ready .ctrXor s →
    let out := gctr (aesEncrypt s.rk s.aesnr.toNat) s.cb (s.memRead (s.arg 0) (s.arg 1))
    ∃ t, exec .ctrXor s = .next t
      ∧ t = { s.succeeded with cb := t.cb, spm := t.spm }
      ∧ out.1.length = s.arg 1 ∧ t.memRead (s.arg 2) (s.arg 1) = out.1
      ∧ (∀ k < s.arg 1, t.readByte (s.arg 2 + k) = s.readByte (s.arg 0 + k)
          ^^^ (blockBytes (aesEncrypt s.rk s.aesnr.toNat (inc32^[k / 16] s.cb))).getD (k % 16) 0)
      ∧ SpmKeptOutside [⟨s.arg 2, s.arg 1⟩] s t
      ∧ t.cb = inc32^[(s.arg 1 + 15) / 16] s.cb
      ∧ (blockBytes t.cb).take 12 = (blockBytes s.cb).take 12

/-- CTR_XOR run on its own output, from the same CB, gives the input back: the same command decrypts
(42_ctr_ghash_gcm.md R216). -/
def Obligations.CtrXorIsItsOwnInverse : Prop :=
  ∀ (s : State) (src len dst back : Nat), s.params.wellFormed = true → s.keyValid = true →
    src + len ≤ s.params.spmBytes → dst + len ≤ s.params.spmBytes → back + len ≤ s.params.spmBytes →
    ∃ t u, exec .ctrXor (s.withArgs [src, len, dst]) = .next t
      ∧ exec .ctrXor ({ t with cb := s.cb }.withArgs [dst, len, back]) = .next u
      ∧ u.errcode = .ok ∧ u.memRead back len = s.memRead src len ∧ u.cb = t.cb

/-- GH_SETH, GH_UPDATE and GCM_J0 write H, Y and J0 and nothing else; GHASH XORs each 16-byte block into the accumulator
and multiplies by H, block by block (42_ctr_ghash_gcm.md R213, R219, R220, R222). -/
def Obligations.GhashRegisterResults : Prop :=
  (∀ s : State, Ready .ghSeth s → exec .ghSeth s = .next { s.succeeded with h := aesEncrypt s.rk s.aesnr.toNat 0 })
  ∧ (∀ s : State, Ready .ghUpdate s → exec .ghUpdate s = .next { s.succeeded with
      y := ghash s.h s.y (s.memRead (s.arg 0) (16 * s.arg 1)) })
  ∧ (∀ s : State, Ready .gcmJ0 s → exec .gcmJ0 s = .next { s.succeeded with
      j0 := deriveJ0 (aesEncrypt s.rk s.aesnr.toNat) (s.memRead (s.arg 0) (s.arg 1)) })
  ∧ ∀ (H Y : Block) (S : List Byte),
    ghash H Y S = (List.range (S.length / 16)).foldl
      (fun Y j => gfMul (Y ^^^ bytesBlock (slice S (16 * j) (16 * j + 16))) H) Y

/-- GF_MUL writes the product to dst and nothing else (42_ctr_ghash_gcm.md R221). -/
def Obligations.GfMulResult : Prop :=
  ∀ s : State, Ready .gfMul s →
    ∃ t, exec .gfMul s = .next t
      ∧ WroteOnly s t ⟨s.arg 2, 16⟩
          (blockBytes (gfMul (bytesBlock (s.memRead (s.arg 0) 16)) (bytesBlock (s.memRead (s.arg 1) 16))))

/-- GFMul is the XOR of Y multiplied j times by α over the bits 127 - j of X, α the right shift with the conditional XOR
of 0xE1 ‖ 0^15; it is commutative; multiplying by the zero element gives zero, and by the one element 0x80 ‖ 0^15 the
other operand, on either side (42_ctr_ghash_gcm.md R212; 95_test_vectors.md S-3). -/
def Obligations.GfMulZeroAndOne : Prop :=
  (∀ X Y : Block,
    let times (V : Block) : Block := if V.getLsbD 0 then (V >>> 1) ^^^ bytesBlock ([0xE1] ++ zeros 15) else V >>> 1
    gfMul X Y = (List.range 128).foldl (fun Z j => if X.getLsbD (127 - j) then Z ^^^ times^[j] Y else Z) 0)
  ∧ (∀ X Y : Block, gfMul X Y = gfMul Y X)
  ∧ ∀ X : Block,
    let one : Block := bytesBlock ([0x80] ++ zeros 15)
    gfMul X 0 = 0 ∧ gfMul 0 X = 0 ∧ gfMul X one = X ∧ gfMul one X = X

/-- The three short answers of DeriveJ0: a 12-byte IV, the empty IV, and any other (42_ctr_ghash_gcm.md R214). -/
def Obligations.DeriveJ0Cases : Prop :=
  ∀ (E : Block → Block) (IV : List Byte),
    (IV.length = 12 → blockBytes (deriveJ0 E IV) = IV ++ [0x00, 0x00, 0x00, 0x01])
    ∧ (IV = [] → deriveJ0 E IV = 0)
    ∧ (IV.length ≠ 12 → ∃ S : List Byte, S.length % 16 = 0 ∧ deriveJ0 E IV = ghash (E 0) 0 S
        ∧ S = IV ++ zeros ((16 - IV.length % 16) % 16) ++ zeros 8 ++ beBytes 8 (8 * IV.length))

/-- The tag is E(J0) XOR GHASH of the padded AAD and ciphertext and their bit lengths, padded each or once by GHASH_PAD,
and the payload starts at inc32(J0) or J0 by GCM_FIRST_COUNTER. GCM_ENC writes the ciphertext to dst and then the tag to
its region, which wins where they overlap; CB, H, Y, J0 and everything else stay (42_ctr_ghash_gcm.md R218, R223;
20_memory.md R92; GCTR is in CtrXorResult). -/
def Obligations.GcmEncResult : Prop :=
  (∀ (E : Block → Block) (A C : List Byte) (j0 : Block),
    let pad (n : Nat) := zeros ((16 - n % 16) % 16)
    let lengths := beBytes 8 (8 * A.length) ++ beBytes 8 (8 * C.length)
    gcmTag E .perSegment A C j0 = E j0 ^^^ ghash (E 0) 0 (A ++ pad A.length ++ C ++ pad C.length ++ lengths)
    ∧ gcmTag E .joint A C j0 = E j0 ^^^ ghash (E 0) 0 (A ++ C ++ pad (A.length + C.length) ++ lengths)
    ∧ firstCounter .inc32J0 j0 = inc32 j0 ∧ firstCounter .j0 j0 = j0)
  ∧ ∀ s : State, Ready .gcmEnc s →
    let E := aesEncrypt s.rk s.aesnr.toNat
    let A := s.memRead (s.arg 2) (s.arg 3)
    let j0 := deriveJ0 E (s.memRead (s.arg 0) (s.arg 1))
    let C := (gctr E (firstCounter s.params.gcmFirstCounter j0) (s.memRead (s.arg 4) (s.arg 5))).1
    let T := blockBytes (gcmTag E s.params.ghashPad A C j0)
    ∃ t, exec .gcmEnc s = .next t
      ∧ t = { s.succeeded with spm := t.spm }
      ∧ C.length = s.arg 5 ∧ t.memRead (s.arg 7) 16 = T
      ∧ (∀ k < s.arg 5, (⟨s.arg 7, 16⟩ : Region).covers (s.arg 6 + k) = false → t.readByte (s.arg 6 + k) = C.getD k 0)
      ∧ SpmKeptOutside [⟨s.arg 6, s.arg 5⟩, ⟨s.arg 7, 16⟩] s t

/-- GCM_DEC, when the tag is the one it computes, writes the plaintext to dst and nothing else; when it is not, it ends
with AUTH_FAILURE and no byte is written (42_ctr_ghash_gcm.md R224, 60_exceptions.md R356). -/
def Obligations.GcmDecResult : Prop :=
  ∀ s : State, Ready .gcmDec s →
    let E := aesEncrypt s.rk s.aesnr.toNat
    let C := s.memRead (s.arg 4) (s.arg 5)
    let j0 := deriveJ0 E (s.memRead (s.arg 0) (s.arg 1))
    let T := blockBytes (gcmTag E s.params.ghashPad (s.memRead (s.arg 2) (s.arg 3)) C j0)
    (s.memRead (s.arg 7) 16 = T → ∃ t, exec .gcmDec s = .next t
      ∧ WroteOnly s t ⟨s.arg 6, s.arg 5⟩ (gctr E (firstCounter s.params.gcmFirstCounter j0) C).1)
    ∧ (s.memRead (s.arg 7) 16 ≠ T → exec .gcmDec s = .next (s.failed .authFailure))

/-- GCM_DEC of what GCM_ENC wrote succeeds and gives the plaintext back, for every key, IV, AAD and plaintext
and both values of GCM_FIRST_COUNTER and GHASH_PAD, when the outputs of GCM_ENC lie apart from its IV, its AAD and each
other (42_ctr_ghash_gcm.md R223, R224; 95_test_vectors.md S-2). -/
def Obligations.GcmDecryptsItsEncryption : Prop :=
  ∀ (s : State) (iv ivlen aad aadlen src len dst tag back : Nat), s.params.wellFormed = true → s.keyValid = true →
    iv + ivlen ≤ s.params.spmBytes → aad + aadlen ≤ s.params.spmBytes → src + len ≤ s.params.spmBytes →
    dst + len ≤ s.params.spmBytes → tag + 16 ≤ s.params.spmBytes → back + len ≤ s.params.spmBytes →
    Region.disjoint ⟨dst, len⟩ ⟨iv, ivlen⟩ → Region.disjoint ⟨dst, len⟩ ⟨aad, aadlen⟩ →
    Region.disjoint ⟨tag, 16⟩ ⟨iv, ivlen⟩ → Region.disjoint ⟨tag, 16⟩ ⟨aad, aadlen⟩ →
    Region.disjoint ⟨tag, 16⟩ ⟨dst, len⟩ →
    ∃ t u, exec .gcmEnc (s.withArgs [iv, ivlen, aad, aadlen, src, len, dst, tag]) = .next t
      ∧ exec .gcmDec (t.withArgs [iv, ivlen, aad, aadlen, dst, len, back, tag]) = .next u
      ∧ u.errcode = .ok ∧ u.memRead back len = s.memRead src len

/-! ### secp256k1, recovery, addresses -/

/-- EC_FINV of an x in [1, p) writes be_32(x^(p-2) mod p) to dst and nothing else (43_ec_point.md R254, R260). -/
def Obligations.EcFinvResult : Prop :=
  ∀ s : State, Ready .ecFinv s →
    let x := be (s.memRead (s.arg 0) 32)
    0 < x → x < curveP →
    ∃ t, exec .ecFinv s = .next t ∧ WroteOnly s t ⟨s.arg 1, 32⟩ (beBytes 32 (x ^ (curveP - 2) % curveP))

/-- The constants p, n and G, a point's 64 bytes, the inverse as a power, the affine formulas on integers with negative
intermediates taken mod p, the curve predicate, and the internal group law with its cases of the point O
(43_ec_point.md R250 and R252 to R257). -/
def Obligations.PointFormulas : Prop :=
  (curveP = 2 ^ 256 - 2 ^ 32 - 977
    ∧ curveN = 0xFFFFFFFFFFFFFFFFFFFFFFFFFFFFFFFEBAAEDCE6AF48A03BBFD25E8CD0364141
    ∧ curveG = ⟨0x79BE667EF9DCBBAC55A06295CE870B07029BFCDB2DCE28D959F2815B16F81798,
        0x483ADA7726A3C4655DA4FBFC0E1108A8FD17B448A68554199C47D08FFB10D4B8⟩)
  ∧ (∀ (s : State) (off : Nat), s.pointAt off = ⟨be (s.memRead off 32), be (s.memRead (off + 32) 32)⟩)
  ∧ (∀ a : Point, pointBytes a = beBytes 32 a.x ++ beBytes 32 a.y
    ∧ (a.inRange = true ↔ a.x < curveP ∧ a.y < curveP))
  ∧ (∀ a : Nat, fieldInv a = a ^ (curveP - 2) % curveP)
  ∧ (∀ A B : GroupPoint, groupAdd none B = B ∧ groupAdd A none = A)
  ∧ (∀ a b : Point,
    (a.x = b.x → (a.y + b.y) % curveP = 0 → groupAdd (some a) (some b) = none)
    ∧ (a.x = b.x → (a.y + b.y) % curveP ≠ 0 → groupAdd (some a) (some b) = some (pointDouble a))
    ∧ (a.x ≠ b.x → groupAdd (some a) (some b) = some (pointAdd a b)))
  ∧ (∀ a b : Point,
    let l : Int := ((b.y : Int) - a.y) * (fieldInv (((b.x : Int) - a.x) % curveP).toNat : Nat) % curveP
    let x3 : Int := (l ^ 2 - a.x - b.x) % curveP
    ((pointAdd a b).x : Int) = x3 ∧ ((pointAdd a b).y : Int) = (l * (a.x - x3) - a.y) % curveP)
  ∧ (∀ a : Point,
    let l : Int := (3 * (a.x : Int) ^ 2) * (fieldInv ((2 * a.y) % curveP) : Nat) % curveP
    let x3 : Int := (l ^ 2 - 2 * a.x) % curveP
    ((pointDouble a).x : Int) = x3 ∧ ((pointDouble a).y : Int) = (l * (a.x - x3) - a.y) % curveP)
  ∧ ∀ a : Point, a.onCurve = true ↔ ((a.y : Int) ^ 2 - (a.x : Int) ^ 3 - 7) % curveP = 0

/-- EC_PADD of on-curve points with unequal x, and EC_PDBL of an on-curve point with y ≠ 0, write the sum to dst and
nothing else (43_ec_point.md R261, R262). -/
def Obligations.EcPaddEcPdblResults : Prop :=
  (∀ s : State, Ready .ecPadd s →
    let P := s.pointAt (s.arg 0)
    let Q := s.pointAt (s.arg 1)
    P.inRange = true → Q.inRange = true → P.onCurve = true → Q.onCurve = true → P.x ≠ Q.x →
    ∃ t, exec .ecPadd s = .next t ∧ WroteOnly s t ⟨s.arg 2, 64⟩ (pointBytes (pointAdd P Q)))
  ∧ ∀ s : State, Ready .ecPdbl s →
    let P := s.pointAt (s.arg 0)
    P.inRange = true → P.onCurve = true → P.y ≠ 0 →
    ∃ t, exec .ecPdbl s = .next t ∧ WroteOnly s t ⟨s.arg 1, 64⟩ (pointBytes (pointDouble P))

/-- The product is double-and-add: 0 gives O, 2k doubles the product by k, 2k + 1 adds Q to that. EC_SMUL of an on-curve
point by a scalar in [1, n) writes the product to dst and nothing else, and by the scalar 1 writes the point itself
(43_ec_point.md R258, R263). -/
def Obligations.EcSmulResult : Prop :=
  (∀ Q : GroupPoint, scalarMul 0 Q = none
    ∧ ∀ k, scalarMul (2 * k) Q = groupAdd (scalarMul k Q) (scalarMul k Q)
      ∧ scalarMul (2 * k + 1) Q = groupAdd (groupAdd (scalarMul k Q) (scalarMul k Q)) Q)
  ∧ ∀ s : State, Ready .ecSmul s →
    let k := be (s.memRead (s.arg 0) 32)
    let P := s.pointAt (s.arg 1)
    0 < k → k < curveN → P.inRange = true → P.onCurve = true →
    (∀ R, scalarMul k (some P) = some R →
      ∃ t, exec .ecSmul s = .next t ∧ WroteOnly s t ⟨s.arg 2, 64⟩ (pointBytes R))
    ∧ (k = 1 → ∃ t, exec .ecSmul s = .next t ∧ WroteOnly s t ⟨s.arg 2, 64⟩ (s.memRead (s.arg 1) 64))

/-- EC_ONCURVE writes RESULT 1 or 0 for a point in range, and nothing else: off the curve is no error
(43_ec_point.md R264). -/
def Obligations.EcOncurveResult : Prop :=
  ∀ s : State, Ready .ecOncurve s →
    let P := s.pointAt (s.arg 0)
    P.x < curveP → P.y < curveP →
    exec .ecOncurve s = .next { s.succeeded with
      result := if ((P.y : Int) ^ 2 - (P.x : Int) ^ 3 - 7) % curveP = 0 then 1 else 0 }

/-- The value checks of the point commands, in order: range, then curve, then degenerate; an error changes only STATUS
(43_ec_point.md R260 to R264, 60_exceptions.md R353 step 5). -/
def Obligations.EcValueChecksInOrder : Prop :=
  (∀ s : State, Ready .ecFinv s →
    (curveP ≤ s.scalarAt (s.arg 0) → exec .ecFinv s = .next (s.failed .invalidRange))
    ∧ (s.scalarAt (s.arg 0) = 0 → exec .ecFinv s = .next (s.failed .degenerate)))
  ∧ (∀ s : State, Ready .ecPadd s →
    let P := s.pointAt (s.arg 0)
    let Q := s.pointAt (s.arg 1)
    (¬(P.inRange = true ∧ Q.inRange = true) → exec .ecPadd s = .next (s.failed .invalidRange))
    ∧ (P.inRange = true → Q.inRange = true → ¬(P.onCurve = true ∧ Q.onCurve = true) →
        exec .ecPadd s = .next (s.failed .pointNotOnCurve))
    ∧ (P.inRange = true → Q.inRange = true → P.onCurve = true → Q.onCurve = true → P.x = Q.x →
        exec .ecPadd s = .next (s.failed .degenerate)))
  ∧ (∀ s : State, Ready .ecPdbl s →
    let P := s.pointAt (s.arg 0)
    (P.inRange = false → exec .ecPdbl s = .next (s.failed .invalidRange))
    ∧ (P.inRange = true → P.onCurve = false → exec .ecPdbl s = .next (s.failed .pointNotOnCurve)))
  ∧ (∀ s : State, Ready .ecSmul s →
    let k := s.scalarAt (s.arg 0)
    let P := s.pointAt (s.arg 1)
    (curveN ≤ k ∨ P.inRange = false → exec .ecSmul s = .next (s.failed .invalidRange))
    ∧ (k < curveN → P.inRange = true → P.onCurve = false → exec .ecSmul s = .next (s.failed .pointNotOnCurve))
    ∧ (k = 0 → P.inRange = true → P.onCurve = true → exec .ecSmul s = .next (s.failed .degenerate)))
  ∧ ∀ s : State, Ready .ecOncurve s → (s.pointAt (s.arg 0)).inRange = false →
    exec .ecOncurve s = .next (s.failed .invalidRange)

/-- ECDSA_RECOVER of the digest and of the signature r ‖ s ‖ v writes the recovered key to dst and nothing else, and a failed recovery ends with RECOVERY_FAILURE and
writes nothing; EC_ADDR writes bytes 12 to 31 of Keccak-256 of the 64 bytes, unchecked, to dst and nothing else, KSTATE
included (44_ecdsa.md R281, R283, R285, R286; what recovery answers is in RecoveryFailuresAndIds). -/
def Obligations.EcdsaRecoverEcAddrResults : Prop :=
  (∀ s : State, Ready .ecdsaRecover s →
    let o := recover (be (s.memRead (s.arg 0) 32))
      ⟨be (s.memRead (s.arg 1) 32), be (s.memRead (s.arg 1 + 32) 32), (s.readByte (s.arg 1 + 64)).toNat⟩
    (∀ Q, o = some Q →
      ∃ t, exec .ecdsaRecover s = .next t ∧ WroteOnly s t ⟨s.arg 2, 64⟩ (beBytes 32 Q.x ++ beBytes 32 Q.y))
    ∧ (o = none → exec .ecdsaRecover s = .next (s.failed .recoveryFailure)))
  ∧ ∀ s : State, Ready .ecAddr s →
    ∃ t, exec .ecAddr s = .next t
      ∧ WroteOnly s t ⟨s.arg 1, 20⟩ (slice (keccak256 (s.memRead (s.arg 0) 64)) 12 32)

/-- Recovery fails for a v outside the four ids, for an r or s outside [1, n-1], for an r that is no x-coordinate, and when
the sum u1 G + u2 R is the point O; otherwise it answers that sum, with R the point of x-coordinate r whose y has the
parity of v, u1 = -e r^(n-2) mod n and u2 = s r^(n-2) mod n; ids 27 and 0, and ids 28 and 1, give the same key
(44_ecdsa.md R280, R282; 43_ec_point.md R259; 90_conflicts.md C4). -/
def Obligations.RecoveryFailuresAndIds : Prop :=
  (∀ (e : Nat) (g : Signature),
    (g.v ≠ 0 ∧ g.v ≠ 1 ∧ g.v ≠ 27 ∧ g.v ≠ 28 → recover e g = none)
    ∧ (g.r = 0 ∨ curveN ≤ g.r ∨ g.s = 0 ∨ curveN ≤ g.s → recover e g = none)
    ∧ (let a := (g.r ^ 3 + 7) % curveP
       (a ^ ((curveP + 1) / 4) % curveP) ^ 2 % curveP ≠ a → recover e g = none))
  ∧ (∀ e r s v parity : Nat, (v = parity ∨ v = 27 + parity) → parity < 2 →
    1 ≤ r → r ≤ curveN - 1 → 1 ≤ s → s ≤ curveN - 1 →
    let a := (r ^ 3 + 7) % curveP
    let root := a ^ ((curveP + 1) / 4) % curveP
    root ^ 2 % curveP = a →
    let R : Point := ⟨r, if root % 2 = parity then root else curveP - root⟩
    let ri := r ^ (curveN - 2) % curveN
    let u1 := (-((e : Int) * ri) % curveN).toNat
    let u2 := s * ri % curveN
    let sum := groupAdd (scalarMul u1 (some curveG)) (scalarMul u2 (some R))
    (∀ Q, sum = some Q → recover e ⟨r, s, v⟩ = some Q) ∧ (sum = none → recover e ⟨r, s, v⟩ = none))
  ∧ ∀ e r s : Nat, recover e ⟨r, s, 27⟩ = recover e ⟨r, s, 0⟩ ∧ recover e ⟨r, s, 28⟩ = recover e ⟨r, s, 1⟩

/-! ### The encoder and the permits -/

/-- ENC_WORD writes the left-zero-padded value, whose integer is the value's, and EIP712_DIGEST the digest of 0x19 0x01 ds
sh, to dst and nothing else (45_eip712.md R300, R307, R310, R311). -/
def Obligations.EncWordEip712Results : Prop :=
  (∀ s : State, Ready .encWord s →
    let b := s.memRead (s.arg 0) (s.arg 1)
    be (zeros (32 - s.arg 1) ++ b) = be b
    ∧ ∃ t, exec .encWord s = .next t ∧ WroteOnly s t ⟨s.arg 2, 32⟩ (zeros (32 - s.arg 1) ++ b))
  ∧ ∀ s : State, Ready .eip712Digest s →
    ∃ t, exec .eip712Digest s = .next t
      ∧ WroteOnly s t ⟨s.arg 2, 32⟩ (keccak256 (0x19 :: 0x01 :: (s.memRead (s.arg 0) 32 ++ s.memRead (s.arg 1) 32)))

/-- PERMIT_DOMAIN, PERMIT_TOKEN, PERMIT_BATCH and PERMIT_DIGEST write the Keccak-256 of their pre-image, written out field
by field from the parameter block, the name and the estate records, to dst and nothing else (45_eip712.md R302 to R308,
R312 to R315). -/
def Obligations.PermitDigestResults : Prop :=
  (∀ s : State, Ready .permitDomain s → ∃ t, exec .permitDomain s = .next t
    ∧ WroteOnly s t ⟨s.arg 3, 32⟩ (keccak256 (s.domainPreimage (s.arg 0) (s.arg 1) (s.arg 2))))
  ∧ (∀ s : State, Ready .permitToken s → ∃ t, exec .permitToken s = .next t
    ∧ WroteOnly s t ⟨s.arg 2, 32⟩ (keccak256 (s.tokenPreimage (s.arg 0) (s.arg 1))))
  ∧ (∀ s : State, Ready .permitBatch s → ∃ t, exec .permitBatch s = .next t
    ∧ WroteOnly s t ⟨s.arg 3, 32⟩ (keccak256 (s.batchPreimage (s.arg 0) (s.arg 1) (s.arg 2))))
  ∧ ∀ s : State, Ready .permitDigest s → ∃ t, exec .permitDigest s = .next t
    ∧ WroteOnly s t ⟨s.arg 5, 32⟩ (keccak256 (s.permitPreimage (s.arg 0) (s.arg 1) (s.arg 2) (s.arg 3) (s.arg 4)))

/-- PERMIT_VERIFY recovers the signer of the Keccak-256 of the permit's pre-image from r ‖ s ‖ v, writes RESULT 1 when the
last 20 bytes of the Keccak-256 of its key are the testator's and 0 when they are not, and nothing else; a failed recovery
ends with RECOVERY_FAILURE and leaves RESULT (45_eip712.md R302 to R309, R316). -/
def Obligations.PermitVerifyResult : Prop :=
  ∀ s : State, Ready .permitVerify s →
    let d := keccak256 (s.permitPreimage (s.arg 0) (s.arg 1) (s.arg 2) (s.arg 3) (s.arg 4))
    let o := recover (be d)
      ⟨be (s.memRead (s.arg 5) 32), be (s.memRead (s.arg 5 + 32) 32), (s.readByte (s.arg 5 + 64)).toNat⟩
    (∀ Q, o = some Q → exec .permitVerify s = .next { s.succeeded with
      result := if slice (keccak256 (beBytes 32 Q.x ++ beBytes 32 Q.y)) 12 32 = s.memRead (s.arg 6) 20 then 1 else 0 })
    ∧ (o = none → exec .permitVerify s = .next (s.failed .recoveryFailure))

/-- PERMIT_DIGEST equals PERMIT_DOMAIN, PERMIT_BATCH and EIP712_DIGEST run in sequence, for any places for the two
intermediate digests that do not disturb the inputs or each other (45_eip712.md R308, R315). -/
def Obligations.PermitDigestIsItsSteps : Prop :=
  ∀ (s : State) (prm nam nlen est cnt d b dst : Nat), s.params.wellFormed = true →
    prm + 232 ≤ s.params.spmBytes → nam + nlen ≤ s.params.spmBytes → est + 52 * cnt ≤ s.params.spmBytes →
    d + 32 ≤ s.params.spmBytes → b + 32 ≤ s.params.spmBytes → dst + 32 ≤ s.params.spmBytes →
    Region.disjoint ⟨d, 32⟩ ⟨prm, 232⟩ → Region.disjoint ⟨d, 32⟩ ⟨est, 52 * cnt⟩ → Region.disjoint ⟨d, 32⟩ ⟨b, 32⟩ →
    ∃ s1 s2 s3 t,
      exec .permitDomain (s.withArgs [prm, nam, nlen, d]) = .next s1
      ∧ exec .permitBatch (s1.withArgs [prm, est, cnt, b]) = .next s2
      ∧ exec .eip712Digest (s2.withArgs [d, b, dst]) = .next s3
      ∧ exec .permitDigest (s.withArgs [prm, nam, nlen, est, cnt, dst]) = .next t
      ∧ s3.errcode = .ok ∧ t.errcode = .ok ∧ s3.memRead dst 32 = t.memRead dst 32

/-! ### Every command -/

/-- Every command completes in every state, with exactly one error code: BUSY 0, DONE 1, ERR 1 exactly when the code is
not 0 (60_exceptions.md R350, R354, R360). -/
def Obligations.EveryCommandCompletes : Prop :=
  ∀ (i : Instr) (s : State), ∃ t, exec i s = .next t
    ∧ t.busy = false ∧ t.done = true ∧ t.err = decide (t.errcode ≠ .ok)

/-- A command that ends with an error, an illegal command word among them, writes no SPM byte and no register but BUSY,
DONE, ERR and ERRCODE (60_exceptions.md R356). -/
def Obligations.ErrorsWriteNothing : Prop :=
  (∀ (i : Instr) (s t : State), exec i s = .next t → t.errcode ≠ .ok → t = s.failed t.errcode)
  ∧ ∀ s t : State, runCommand s = .next t → t.errcode ≠ .ok → t = s.failed t.errcode

/-- What each command leaves unchanged: CTRL, OVERRUN, CMD, every ARG register and the model's own fields always; RK and
AESNR but for AES_KEYEXP; RESULT but for EC_ONCURVE and PERMIT_VERIFY; KSTATE, CB, H, Y and J0 but for the commands whose
rule names them; every SPM byte outside the command's output regions (10_state.md R31, R36 to R42, R45). -/
def Obligations.CommandFrame : Prop :=
  ∀ (i : Instr) (s t : State), exec i s = .next t →
    t.ie = s.ie ∧ t.overrun = s.overrun ∧ t.cmd = s.cmd ∧ t.args = s.args ∧ t.params = s.params
    ∧ t.agenda = s.agenda ∧ t.readData = s.readData ∧ t.drawn = s.drawn
    ∧ (i ≠ .aesKeyexp → t.rk = s.rk ∧ t.aesnr = s.aesnr)
    ∧ (i ∉ [.ecOncurve, .permitVerify] → t.result = s.result)
    ∧ (i ∉ [.kinit, .kabsorb, .kfinal, .kpermute, .khash] → t.kstate = s.kstate)
    ∧ (i ∉ [.ctrXor, .ctrInc] → t.cb = s.cb)
    ∧ (i ≠ .ghSeth → t.h = s.h) ∧ (i ≠ .ghUpdate → t.y = s.y) ∧ (i ≠ .gcmJ0 → t.j0 = s.j0)
    ∧ SpmKeptOutside (outputRegions i s) s t

/-- An ARG register a command does not name is ignored and may hold any value: replacing it changes nothing but itself
(30_encoding.md R112, R113). -/
def Obligations.UnnamedArgumentsIgnored : Prop :=
  ∀ (i : Instr) (s t : State) (args : Vector Word 8),
    (∀ k : Fin 8, k.val < argCount i → args[k] = s.args[k]) → exec i s = .next t →
    exec i { s with args := args } = .next { t with args := args }

/-- The ten codes have the numbers of the table, and the first failing check is reported, for every command: a length
operand, then the region bounds, then the key (60_exceptions.md R351, R353 steps 2 to 4; 20_memory.md R83). -/
def Obligations.LengthThenBoundsThenKey : Prop :=
  (ErrorCode.ok.code = 0x00 ∧ ErrorCode.illegalCmd.code = 0x01 ∧ ErrorCode.invalidLength.code = 0x02
    ∧ ErrorCode.outOfBounds.code = 0x03 ∧ ErrorCode.noKey.code = 0x04 ∧ ErrorCode.invalidRange.code = 0x05
    ∧ ErrorCode.pointNotOnCurve.code = 0x06 ∧ ErrorCode.degenerate.code = 0x07
    ∧ ErrorCode.recoveryFailure.code = 0x08 ∧ ErrorCode.authFailure.code = 0x09)
  ∧ ∀ (i : Instr) (s : State),
    (lengthsLegal i s = false → exec i s = .next (s.failed .invalidLength))
    ∧ (lengthsLegal i s = true → (∃ r ∈ operandRegions i s, s.params.spmBytes < r.off + r.len) →
        exec i s = .next (s.failed .outOfBounds))
    ∧ (lengthsLegal i s = true → (∀ r ∈ operandRegions i s, r.off + r.len ≤ s.params.spmBytes) →
        needsKey i = true → s.aesnr = 0 → exec i s = .next (s.failed .noKey))

/-- Which commands can report which error code (60_exceptions.md R351, last column). -/
def Obligations.ErrorCodesByCommand : Prop :=
  ∀ (i : Instr) (s t : State), exec i s = .next t →
    t.errcode ≠ .illegalCmd
    ∧ (t.errcode = .invalidLength → i ∈ [.kfinal, .ksqueeze, .aesKeyexp, .encWord])
    ∧ (t.errcode = .outOfBounds → operandRegions i s ≠ [])
    ∧ (t.errcode = .noKey → i ∈ [.aesEnc, .ctrXor, .ghSeth, .gcmJ0, .gcmEnc, .gcmDec])
    ∧ (t.errcode = .invalidRange → i ∈ [.ecFinv, .ecPadd, .ecPdbl, .ecSmul, .ecOncurve])
    ∧ (t.errcode = .pointNotOnCurve → i ∈ [.ecPadd, .ecPdbl, .ecSmul])
    ∧ (t.errcode = .degenerate → i ∈ [.ecFinv, .ecPadd, .ecPdbl, .ecSmul])
    ∧ (t.errcode = .recoveryFailure → i ∈ [.ecdsaRecover, .permitVerify])
    ∧ (t.errcode = .authFailure → i = .gcmDec)

/-! ### The invariant -/

/-- HEADLINE: every step keeps the invariant: parameters legal, SPM canonical and inside SPM_BYTES, AESNR one of 0, 10, 12,
14 and RK zero beyond the key, RESULT a boolean, STATUS consistent (00_scope.md R6; 20_memory.md R80; 10_state.md R34, R36,
R38; 60_exceptions.md R359, R360). -/
def Obligations.StepKeepsInvariant : Prop :=
  ∀ s t : State, s.Inv → step s = .next t → t.Inv

/-- The state after reset has the invariant. -/
def Obligations.ResetHasInvariant : Prop := State.reset.Inv
end

