-- ==== Sys2Proof/Laws/Arith.lean ====
section
/-! SUPPORT. Modular arithmetic: the functions of Machine/Ec.lean compute what 43_ec_point.md writes as integers mod m. -/

namespace Sys2Proof.Machine

/-- `subMod` is the difference taken into [0, m) (43_ec_point.md R255). -/
theorem subMod_eq_emod (m a b : Nat) (hm : 0 < m) : (subMod m a b : Int) = ((a : Int) - b) % m := by
  have hb : b % m < m := Nat.mod_lt _ hm
  have h : ((a + (m - b % m) : Nat) : Int) = (a : Int) - b + m * (1 + (b / m : Nat)) := by
    have h1 : (b : Int) = m * (b / m : Nat) + (b % m : Nat) := by exact_mod_cast (Nat.div_add_mod b m).symm
    rw [Nat.cast_add, Nat.cast_sub hb.le, mul_add, mul_one]
    linarith
  rw [subMod, Int.natCast_emod, h, Int.add_mul_emod_self_left]

theorem subMod_lt (m a b : Nat) (hm : 0 < m) : subMod m a b < m := Nat.mod_lt _ hm

theorem testBit_split (k n : Nat) : k % 2 ^ (n + 1) = 2 ^ n * (k.testBit n).toNat + k % 2 ^ n := by
  rw [Nat.mod_pow_succ, Nat.toNat_testBit]
  ring

/-- Doubling and adding for squaring and multiplying gives the power (43_ec_point.md R254). -/
theorem doubleAndAdd_pow (m b e n r : Nat) :
    doubleAndAdd (fun r => r * r % m) (fun r => r * b % m) e n r ≡ r ^ 2 ^ n * b ^ (e % 2 ^ n) [MOD m] := by
  induction n generalizing r with
  | zero => simp [doubleAndAdd, Nat.mod_one, Nat.ModEq.refl]
  | succ n ih =>
    refine (ih _).trans ?_
    have e1 : r ^ 2 ^ (n + 1) = (r * r) ^ 2 ^ n := by rw [pow_succ', pow_mul, pow_two]
    rw [testBit_split, e1]
    cases e.testBit n
    · simpa using ((Nat.mod_modEq (r * r) m).pow (2 ^ n)).mul_right (b ^ (e % 2 ^ n))
    · have h : r * r % m * b % m ≡ r * r * b [MOD m] :=
        (Nat.mod_modEq _ _).trans ((Nat.mod_modEq _ _).mul_right b)
      have h2 := (h.pow (2 ^ n)).mul_right (b ^ (e % 2 ^ n))
      rw [mul_pow (r * r) b, mul_assoc] at h2
      simpa [pow_add] using h2

theorem lt_two_pow_bitLength (k : Nat) : k < 2 ^ bitLength k := by
  unfold bitLength
  split
  · next h => simp [h]
  · exact Nat.lt_log2_self

theorem doubleAndAdd_lt (m b e n r : Nat) (hm : 0 < m) (hr : r < m) :
    doubleAndAdd (fun r => r * r % m) (fun r => r * b % m) e n r < m := by
  induction n generalizing r with
  | zero => exact hr
  | succ n ih =>
    apply ih
    split <;> exact Nat.mod_lt _ hm

/-- `powMod` is the power modulo m (43_ec_point.md R254, R259; 44_ecdsa.md R282). -/
theorem powMod_eq (m b e : Nat) (hm : 0 < m) : powMod m b e = b ^ e % m := by
  have h := doubleAndAdd_pow m b e (bitLength e) (1 % m)
  have hl := doubleAndAdd_lt m b e (bitLength e) (1 % m) hm (Nat.mod_lt _ hm)
  rw [Nat.mod_eq_of_lt (lt_two_pow_bitLength e)] at h
  have h1 : (1 % m) ^ 2 ^ bitLength e * b ^ e ≡ b ^ e [MOD m] := by
    simpa using ((Nat.mod_modEq 1 m).pow (2 ^ bitLength e)).mul_right (b ^ e)
  have h2 := h.trans h1
  rw [powMod, ← Nat.mod_eq_of_lt hl]
  exact h2

/-- The scan reads the low bit last: the scan of the higher bits, then one doubling, and an addition where the low bit
is 1 (43_ec_point.md R258). -/
theorem doubleAndAdd_low_bit {α : Type} (double add : α → α) (k h n : Nat) (r : α)
    (hb : ∀ i < n, k.testBit (i + 1) = h.testBit i) :
    doubleAndAdd double add k (n + 1) r
      = (fun r => if k.testBit 0 then add (double r) else double r) (doubleAndAdd double add h n r) := by
  induction n generalizing r with
  | zero => rfl
  | succ n ih =>
    rw [doubleAndAdd, ih _ fun i hi => hb i (by omega), hb n (by omega)]
    rfl

/-- One more low bit makes a number other than 0 one bit longer (43_ec_point.md R258). -/
theorem bitLength_append_bit (k b : Nat) (hk : k ≠ 0) (hb : b < 2) : bitLength (2 * k + b) = bitLength k + 1 := by
  unfold bitLength
  rw [if_neg (by omega), if_neg hk, (Nat.log2_eq_iff (by omega)).2]
  have low := Nat.log2_self_le hk
  have high := @Nat.lt_log2_self k
  rw [pow_succ, pow_succ]
  constructor <;> omega

end Sys2Proof.Machine
end

