-- ==== Sys2Proof/Laws/Bytes.lean ====
section
/-! SUPPORT. Laws of byte strings and their integer encodings (00_scope.md R8, R9). -/

namespace Sys2Proof.Machine

/-! ### Lengths -/

@[simp] theorem zeros_length (n : Nat) : (zeros n).length = n := by simp [zeros]
@[simp] theorem beBytes_length (n v : Nat) : (beBytes n v).length = n := by simp [beBytes]
@[simp] theorem leBytes_length (n v : Nat) : (leBytes n v).length = n := by simp [leBytes]
@[simp] theorem blockBytes_length (b : Block) : (blockBytes b).length = 16 := by simp [blockBytes]
@[simp] theorem slice_length (b : List Byte) (i j : Nat) : (slice b i j).length = min (j - i) (b.length - i) := by
  simp [slice]
@[simp] theorem xorBytes_length (b c : List Byte) : (xorBytes b c).length = min b.length c.length := by
  simp [xorBytes]

theorem flatMap_length_const {α β : Type} (l : List α) (f : α → List β) (n : Nat) (h : ∀ x ∈ l, (f x).length = n) :
    (l.flatMap f).length = n * l.length := by
  induction l with
  | nil => simp
  | cons x l ih =>
    rw [List.flatMap_cons, List.length_append, h x (by simp), ih fun y hy => h y (by simp [hy]), List.length_cons]
    ring

@[simp] theorem stateBytes_length (A : Lanes) : (stateBytes A).length = 200 := by
  simp [stateBytes, flatMap_length_const _ _ 8 (fun (x : Lane) _ => leBytes_length 8 x.toNat)]

@[simp] theorem roundKeyBytes_length (rk : Vector Word 60) : (roundKeyBytes rk).length = 240 := by
  simp [roundKeyBytes, flatMap_length_const _ _ 4 (fun (x : Word) _ => beBytes_length 4 x.toNat)]

@[simp] theorem tabulate_get {α : Type} (n : Nat) (f : Nat → α) (i : Nat) (h : i < n) : (tabulate n f)[i] = f i := by
  simp [tabulate]

@[simp] theorem tabulate_toList {α : Type} (n : Nat) (f : Nat → α) : (tabulate n f).toList = (List.range n).map f := by
  simp [tabulate, Vector.toList]

/-! ### Little-endian -/

theorem leBytes_succ (n v : Nat) : leBytes (n + 1) v = BitVec.ofNat 8 v :: leBytes n (v / 256) := by
  simp only [leBytes, List.range_succ_eq_map, List.map_cons, List.map_map]
  congr 1
  apply List.map_congr_left
  intro i _
  simp only [Function.comp, Nat.shiftRight_eq_div_pow, Nat.div_div_eq_div_mul]
  congr 2
  rw [show (256 : Nat) = 2 ^ 8 by norm_num, ← pow_add]
  congr 1
  omega

/-- `le` of `le_n(v)` is v modulo 256^n (00_scope.md R9). -/
theorem le_leBytes (n v : Nat) : le (leBytes n v) = v % 256 ^ n := by
  induction n generalizing v with
  | zero => simp [leBytes, le, Nat.mod_one]
  | succ n ih =>
    rw [leBytes_succ, le, ih, BitVec.toNat_ofNat, pow_succ' 256, Nat.mod_mul]

theorem le_lt (b : List Byte) : le b < 256 ^ b.length := by
  induction b with
  | nil => simp [le]
  | cons x b ih =>
    have hx := x.isLt
    simp only [le, List.length_cons, pow_succ]
    norm_num at hx
    omega

/-- `le_n` of `le(b)` is b (00_scope.md R9). -/
theorem leBytes_le (b : List Byte) : leBytes b.length (le b) = b := by
  induction b with
  | nil => simp [leBytes]
  | cons x b ih =>
    have hx := x.isLt
    norm_num at hx
    rw [List.length_cons, leBytes_succ, le]
    congr 1
    · apply BitVec.eq_of_toNat_eq
      rw [BitVec.toNat_ofNat]
      omega
    · rw [show (x.toNat + 256 * le b) / 256 = le b by omega, ih]

/-! ### Big-endian -/

theorem be_append_singleton (b : List Byte) (x : Byte) : be (b ++ [x]) = 256 * be b + x.toNat := by
  simp [be]

theorem beBytes_succ (n v : Nat) : beBytes (n + 1) v = beBytes n (v / 256) ++ [BitVec.ofNat 8 v] := by
  simp only [beBytes, List.range_succ, List.map_append, List.map_cons, List.map_nil]
  congr 1
  · apply List.map_congr_left
    intro i hi
    have hi := List.mem_range.mp hi
    simp only [Nat.shiftRight_eq_div_pow, Nat.div_div_eq_div_mul]
    congr 2
    rw [show (256 : Nat) = 2 ^ 8 by norm_num, ← pow_add]
    congr 1
    omega
  · simp

/-- `be` of `be_n(v)` is v modulo 256^n (00_scope.md R9). -/
theorem be_beBytes (n v : Nat) : be (beBytes n v) = v % 256 ^ n := by
  induction n generalizing v with
  | zero => simp [beBytes, be, Nat.mod_one]
  | succ n ih =>
    rw [beBytes_succ, be_append_singleton, ih, BitVec.toNat_ofNat, pow_succ' 256, Nat.mod_mul]
    omega

theorem be_lt (b : List Byte) : be b < 256 ^ b.length := by
  induction b using List.reverseRecOn with
  | nil => simp [be]
  | append_singleton b x ih =>
    have hx := x.isLt
    norm_num at hx
    rw [be_append_singleton, List.length_append, List.length_singleton, pow_succ]
    omega

/-- `be_n` of `be(b)` is b (00_scope.md R9). -/
theorem beBytes_be (b : List Byte) : beBytes b.length (be b) = b := by
  induction b using List.reverseRecOn with
  | nil => simp [beBytes]
  | append_singleton b x ih =>
    have hx := x.isLt
    norm_num at hx
    rw [be_append_singleton, List.length_append, List.length_singleton, beBytes_succ]
    congr 1
    · rw [show (256 * be b + x.toNat) / 256 = be b by omega, ih]
    · congr 1
      apply BitVec.eq_of_toNat_eq
      rw [BitVec.toNat_ofNat]
      omega

/-! ### Blocks -/

/-- A block read from its own bytes is the block. -/
@[simp] theorem bytesBlock_blockBytes (b : Block) : bytesBlock (blockBytes b) = b := by
  apply BitVec.eq_of_toNat_eq
  have := b.isLt
  simp only [bytesBlock, blockBytes, be_beBytes, BitVec.toNat_ofNat]
  omega

/-- The bytes of a block read from 16 bytes are those bytes. -/
theorem blockBytes_bytesBlock (b : List Byte) (h : b.length = 16) : blockBytes (bytesBlock b) = b := by
  have hb := be_lt b
  rw [h] at hb
  rw [blockBytes, bytesBlock, BitVec.toNat_ofNat, Nat.mod_eq_of_lt (by omega), ← h, beBytes_be]

end Sys2Proof.Machine
end

