-- ==== Sys2Proof/Laws/State.lean ====
section
/-! SUPPORT. One lemma per field per update of State, true by rfl, so that no later proof unfolds an update. -/

namespace Sys2Proof.Machine

/-! ### complete -/

@[simp] theorem State.complete_ie (s : State) (c : ErrorCode) : (s.complete c).ie = s.ie := rfl
@[simp] theorem State.complete_busy (s : State) (c : ErrorCode) : (s.complete c).busy = false := rfl
@[simp] theorem State.complete_done (s : State) (c : ErrorCode) : (s.complete c).done = true := rfl
@[simp] theorem State.complete_err (s : State) (c : ErrorCode) : (s.complete c).err = decide (c ≠ .ok) := rfl
@[simp] theorem State.complete_overrun (s : State) (c : ErrorCode) : (s.complete c).overrun = s.overrun := rfl
@[simp] theorem State.complete_errcode (s : State) (c : ErrorCode) : (s.complete c).errcode = c := rfl
@[simp] theorem State.complete_cmd (s : State) (c : ErrorCode) : (s.complete c).cmd = s.cmd := rfl
@[simp] theorem State.complete_result (s : State) (c : ErrorCode) : (s.complete c).result = s.result := rfl
@[simp] theorem State.complete_aesnr (s : State) (c : ErrorCode) : (s.complete c).aesnr = s.aesnr := rfl
@[simp] theorem State.complete_args (s : State) (c : ErrorCode) : (s.complete c).args = s.args := rfl
@[simp] theorem State.complete_cb (s : State) (c : ErrorCode) : (s.complete c).cb = s.cb := rfl
@[simp] theorem State.complete_h (s : State) (c : ErrorCode) : (s.complete c).h = s.h := rfl
@[simp] theorem State.complete_y (s : State) (c : ErrorCode) : (s.complete c).y = s.y := rfl
@[simp] theorem State.complete_j0 (s : State) (c : ErrorCode) : (s.complete c).j0 = s.j0 := rfl
@[simp] theorem State.complete_kstate (s : State) (c : ErrorCode) : (s.complete c).kstate = s.kstate := rfl
@[simp] theorem State.complete_rk (s : State) (c : ErrorCode) : (s.complete c).rk = s.rk := rfl
@[simp] theorem State.complete_spm (s : State) (c : ErrorCode) : (s.complete c).spm = s.spm := rfl
@[simp] theorem State.complete_params (s : State) (c : ErrorCode) : (s.complete c).params = s.params := rfl
@[simp] theorem State.complete_agenda (s : State) (c : ErrorCode) : (s.complete c).agenda = s.agenda := rfl
@[simp] theorem State.complete_readData (s : State) (c : ErrorCode) : (s.complete c).readData = s.readData := rfl
@[simp] theorem State.complete_drawn (s : State) (c : ErrorCode) : (s.complete c).drawn = s.drawn := rfl

/-! ### accept -/

@[simp] theorem State.accept_ie (s : State) (v : Word) : (s.accept v).ie = s.ie := rfl
@[simp] theorem State.accept_busy (s : State) (v : Word) : (s.accept v).busy = true := rfl
@[simp] theorem State.accept_done (s : State) (v : Word) : (s.accept v).done = false := rfl
@[simp] theorem State.accept_err (s : State) (v : Word) : (s.accept v).err = false := rfl
@[simp] theorem State.accept_overrun (s : State) (v : Word) : (s.accept v).overrun = s.overrun := rfl
@[simp] theorem State.accept_errcode (s : State) (v : Word) : (s.accept v).errcode = .ok := rfl
@[simp] theorem State.accept_cmd (s : State) (v : Word) : (s.accept v).cmd = v := rfl
@[simp] theorem State.accept_result (s : State) (v : Word) : (s.accept v).result = s.result := rfl
@[simp] theorem State.accept_aesnr (s : State) (v : Word) : (s.accept v).aesnr = s.aesnr := rfl
@[simp] theorem State.accept_args (s : State) (v : Word) : (s.accept v).args = s.args := rfl
@[simp] theorem State.accept_cb (s : State) (v : Word) : (s.accept v).cb = s.cb := rfl
@[simp] theorem State.accept_h (s : State) (v : Word) : (s.accept v).h = s.h := rfl
@[simp] theorem State.accept_y (s : State) (v : Word) : (s.accept v).y = s.y := rfl
@[simp] theorem State.accept_j0 (s : State) (v : Word) : (s.accept v).j0 = s.j0 := rfl
@[simp] theorem State.accept_kstate (s : State) (v : Word) : (s.accept v).kstate = s.kstate := rfl
@[simp] theorem State.accept_rk (s : State) (v : Word) : (s.accept v).rk = s.rk := rfl
@[simp] theorem State.accept_spm (s : State) (v : Word) : (s.accept v).spm = s.spm := rfl
@[simp] theorem State.accept_params (s : State) (v : Word) : (s.accept v).params = s.params := rfl
@[simp] theorem State.accept_agenda (s : State) (v : Word) : (s.accept v).agenda = s.agenda := rfl
@[simp] theorem State.accept_readData (s : State) (v : Word) : (s.accept v).readData = s.readData := rfl
@[simp] theorem State.accept_drawn (s : State) (v : Word) : (s.accept v).drawn = s.drawn := rfl

/-! ### memWrite -/

@[simp] theorem State.memWrite_ie (s : State) (off : Nat) (bs : List Byte) : (s.memWrite off bs).ie = s.ie := rfl
@[simp] theorem State.memWrite_busy (s : State) (off : Nat) (bs : List Byte) : (s.memWrite off bs).busy = s.busy := rfl
@[simp] theorem State.memWrite_done (s : State) (off : Nat) (bs : List Byte) : (s.memWrite off bs).done = s.done := rfl
@[simp] theorem State.memWrite_err (s : State) (off : Nat) (bs : List Byte) : (s.memWrite off bs).err = s.err := rfl
@[simp] theorem State.memWrite_overrun (s : State) (off : Nat) (bs : List Byte) : (s.memWrite off bs).overrun = s.overrun := rfl
@[simp] theorem State.memWrite_errcode (s : State) (off : Nat) (bs : List Byte) : (s.memWrite off bs).errcode = s.errcode := rfl
@[simp] theorem State.memWrite_cmd (s : State) (off : Nat) (bs : List Byte) : (s.memWrite off bs).cmd = s.cmd := rfl
@[simp] theorem State.memWrite_result (s : State) (off : Nat) (bs : List Byte) : (s.memWrite off bs).result = s.result := rfl
@[simp] theorem State.memWrite_aesnr (s : State) (off : Nat) (bs : List Byte) : (s.memWrite off bs).aesnr = s.aesnr := rfl
@[simp] theorem State.memWrite_args (s : State) (off : Nat) (bs : List Byte) : (s.memWrite off bs).args = s.args := rfl
@[simp] theorem State.memWrite_cb (s : State) (off : Nat) (bs : List Byte) : (s.memWrite off bs).cb = s.cb := rfl
@[simp] theorem State.memWrite_h (s : State) (off : Nat) (bs : List Byte) : (s.memWrite off bs).h = s.h := rfl
@[simp] theorem State.memWrite_y (s : State) (off : Nat) (bs : List Byte) : (s.memWrite off bs).y = s.y := rfl
@[simp] theorem State.memWrite_j0 (s : State) (off : Nat) (bs : List Byte) : (s.memWrite off bs).j0 = s.j0 := rfl
@[simp] theorem State.memWrite_kstate (s : State) (off : Nat) (bs : List Byte) : (s.memWrite off bs).kstate = s.kstate := rfl
@[simp] theorem State.memWrite_rk (s : State) (off : Nat) (bs : List Byte) : (s.memWrite off bs).rk = s.rk := rfl
@[simp] theorem State.memWrite_spm (s : State) (off : Nat) (bs : List Byte) : (s.memWrite off bs).spm = Memory.writeBytes s.spm off bs := rfl
@[simp] theorem State.memWrite_params (s : State) (off : Nat) (bs : List Byte) : (s.memWrite off bs).params = s.params := rfl
@[simp] theorem State.memWrite_agenda (s : State) (off : Nat) (bs : List Byte) : (s.memWrite off bs).agenda = s.agenda := rfl
@[simp] theorem State.memWrite_readData (s : State) (off : Nat) (bs : List Byte) : (s.memWrite off bs).readData = s.readData := rfl
@[simp] theorem State.memWrite_drawn (s : State) (off : Nat) (bs : List Byte) : (s.memWrite off bs).drawn = s.drawn := rfl

/-! ### popAgenda -/

@[simp] theorem State.popAgenda_ie (s : State) : s.popAgenda.ie = s.ie := rfl
@[simp] theorem State.popAgenda_busy (s : State) : s.popAgenda.busy = s.busy := rfl
@[simp] theorem State.popAgenda_done (s : State) : s.popAgenda.done = s.done := rfl
@[simp] theorem State.popAgenda_err (s : State) : s.popAgenda.err = s.err := rfl
@[simp] theorem State.popAgenda_overrun (s : State) : s.popAgenda.overrun = s.overrun := rfl
@[simp] theorem State.popAgenda_errcode (s : State) : s.popAgenda.errcode = s.errcode := rfl
@[simp] theorem State.popAgenda_cmd (s : State) : s.popAgenda.cmd = s.cmd := rfl
@[simp] theorem State.popAgenda_result (s : State) : s.popAgenda.result = s.result := rfl
@[simp] theorem State.popAgenda_aesnr (s : State) : s.popAgenda.aesnr = s.aesnr := rfl
@[simp] theorem State.popAgenda_args (s : State) : s.popAgenda.args = s.args := rfl
@[simp] theorem State.popAgenda_cb (s : State) : s.popAgenda.cb = s.cb := rfl
@[simp] theorem State.popAgenda_h (s : State) : s.popAgenda.h = s.h := rfl
@[simp] theorem State.popAgenda_y (s : State) : s.popAgenda.y = s.y := rfl
@[simp] theorem State.popAgenda_j0 (s : State) : s.popAgenda.j0 = s.j0 := rfl
@[simp] theorem State.popAgenda_kstate (s : State) : s.popAgenda.kstate = s.kstate := rfl
@[simp] theorem State.popAgenda_rk (s : State) : s.popAgenda.rk = s.rk := rfl
@[simp] theorem State.popAgenda_spm (s : State) : s.popAgenda.spm = s.spm := rfl
@[simp] theorem State.popAgenda_params (s : State) : s.popAgenda.params = s.params := rfl
@[simp] theorem State.popAgenda_agenda (s : State) : s.popAgenda.agenda = s.agenda.tail := rfl
@[simp] theorem State.popAgenda_readData (s : State) : s.popAgenda.readData = s.readData := rfl
@[simp] theorem State.popAgenda_drawn (s : State) : s.popAgenda.drawn = s.drawn := rfl

/-! ### writeStatus -/

@[simp] theorem State.writeStatus_ie (s : State) (v : Word) : (s.writeStatus v).ie = s.ie := rfl
@[simp] theorem State.writeStatus_busy (s : State) (v : Word) : (s.writeStatus v).busy = s.busy := rfl
@[simp] theorem State.writeStatus_done (s : State) (v : Word) : (s.writeStatus v).done = (s.done && !v.getLsbD 1) := rfl
@[simp] theorem State.writeStatus_err (s : State) (v : Word) : (s.writeStatus v).err = (s.err && !v.getLsbD 2) := rfl
@[simp] theorem State.writeStatus_overrun (s : State) (v : Word) : (s.writeStatus v).overrun = (s.overrun && !v.getLsbD 3) := rfl
@[simp] theorem State.writeStatus_errcode (s : State) (v : Word) : (s.writeStatus v).errcode = s.errcode := rfl
@[simp] theorem State.writeStatus_cmd (s : State) (v : Word) : (s.writeStatus v).cmd = s.cmd := rfl
@[simp] theorem State.writeStatus_result (s : State) (v : Word) : (s.writeStatus v).result = s.result := rfl
@[simp] theorem State.writeStatus_aesnr (s : State) (v : Word) : (s.writeStatus v).aesnr = s.aesnr := rfl
@[simp] theorem State.writeStatus_args (s : State) (v : Word) : (s.writeStatus v).args = s.args := rfl
@[simp] theorem State.writeStatus_cb (s : State) (v : Word) : (s.writeStatus v).cb = s.cb := rfl
@[simp] theorem State.writeStatus_h (s : State) (v : Word) : (s.writeStatus v).h = s.h := rfl
@[simp] theorem State.writeStatus_y (s : State) (v : Word) : (s.writeStatus v).y = s.y := rfl
@[simp] theorem State.writeStatus_j0 (s : State) (v : Word) : (s.writeStatus v).j0 = s.j0 := rfl
@[simp] theorem State.writeStatus_kstate (s : State) (v : Word) : (s.writeStatus v).kstate = s.kstate := rfl
@[simp] theorem State.writeStatus_rk (s : State) (v : Word) : (s.writeStatus v).rk = s.rk := rfl
@[simp] theorem State.writeStatus_spm (s : State) (v : Word) : (s.writeStatus v).spm = s.spm := rfl
@[simp] theorem State.writeStatus_params (s : State) (v : Word) : (s.writeStatus v).params = s.params := rfl
@[simp] theorem State.writeStatus_agenda (s : State) (v : Word) : (s.writeStatus v).agenda = s.agenda := rfl
@[simp] theorem State.writeStatus_readData (s : State) (v : Word) : (s.writeStatus v).readData = s.readData := rfl
@[simp] theorem State.writeStatus_drawn (s : State) (v : Word) : (s.writeStatus v).drawn = s.drawn := rfl

/-! ### resetRegisters -/

@[simp] theorem State.resetRegisters_ie (s : State) : s.resetRegisters.ie = false := rfl
@[simp] theorem State.resetRegisters_busy (s : State) : s.resetRegisters.busy = false := rfl
@[simp] theorem State.resetRegisters_done (s : State) : s.resetRegisters.done = false := rfl
@[simp] theorem State.resetRegisters_err (s : State) : s.resetRegisters.err = false := rfl
@[simp] theorem State.resetRegisters_overrun (s : State) : s.resetRegisters.overrun = false := rfl
@[simp] theorem State.resetRegisters_errcode (s : State) : s.resetRegisters.errcode = .ok := rfl
@[simp] theorem State.resetRegisters_cmd (s : State) : s.resetRegisters.cmd = 0 := rfl
@[simp] theorem State.resetRegisters_result (s : State) : s.resetRegisters.result = 0 := rfl
@[simp] theorem State.resetRegisters_aesnr (s : State) : s.resetRegisters.aesnr = 0 := rfl
@[simp] theorem State.resetRegisters_args (s : State) : s.resetRegisters.args = Vector.replicate 8 0 := rfl
@[simp] theorem State.resetRegisters_cb (s : State) : s.resetRegisters.cb = 0 := rfl
@[simp] theorem State.resetRegisters_h (s : State) : s.resetRegisters.h = 0 := rfl
@[simp] theorem State.resetRegisters_y (s : State) : s.resetRegisters.y = 0 := rfl
@[simp] theorem State.resetRegisters_j0 (s : State) : s.resetRegisters.j0 = 0 := rfl
@[simp] theorem State.resetRegisters_kstate (s : State) : s.resetRegisters.kstate = Vector.replicate 25 0 := rfl
@[simp] theorem State.resetRegisters_rk (s : State) : s.resetRegisters.rk = Vector.replicate 60 0 := rfl
@[simp] theorem State.resetRegisters_spm (s : State) : s.resetRegisters.spm = s.spm := rfl
@[simp] theorem State.resetRegisters_params (s : State) : s.resetRegisters.params = s.params := rfl
@[simp] theorem State.resetRegisters_agenda (s : State) : s.resetRegisters.agenda = s.agenda := rfl
@[simp] theorem State.resetRegisters_readData (s : State) : s.resetRegisters.readData = s.readData := rfl
@[simp] theorem State.resetRegisters_drawn (s : State) : s.resetRegisters.drawn = s.drawn := rfl

end Sys2Proof.Machine
end

