-- ==== Sys2Proof/Laws/Memory.lean ====
section
/-! SUPPORT. The laws of the memory operations: read after write, everything else left alone, the canonical form kept
(20_memory.md R80 to R82). They hold of every memory, in canonical form or not, but for the lemmas about `wf`. -/

namespace Sys2Proof.Machine

@[simp] theorem Memory.read_nil (a : Nat) : Memory.read [] a = unlistedByte := rfl

theorem Memory.read_filter_same (m : Memory) (a : Nat) : Memory.read (m.filter fun c => c.1 ≠ a) a = unlistedByte := by
  induction m with
  | nil => rfl
  | cons c m ih =>
    obtain ⟨b, v⟩ := c
    by_cases h : b = a
    · simpa [List.filter, h] using ih
    · simpa [List.filter, h, Memory.read] using ih

theorem Memory.read_filter_other (m : Memory) (a b : Nat) (h : b ≠ a) :
    Memory.read (m.filter fun c => c.1 ≠ a) b = Memory.read m b := by
  induction m with
  | nil => rfl
  | cons c m ih =>
    obtain ⟨d, v⟩ := c
    by_cases hd : d = a
    · have hda : d ≠ b := fun e => h (e ▸ hd)
      simpa [List.filter, hd, Memory.read, Ne.symm h] using ih
    · by_cases hdb : d = b
      · simp [List.filter, Memory.read, hdb, h]
      · simpa [List.filter, hd, Memory.read, hdb] using ih

theorem Memory.read_insert_same (m : Memory) (a : Nat) (v : Byte) : Memory.read (Memory.insert a v m) a = v := by
  induction m with
  | nil => simp [Memory.insert, Memory.read]
  | cons c m ih =>
    obtain ⟨b, w⟩ := c
    unfold Memory.insert
    split
    · simp [Memory.read]
    · split
      · simp [Memory.read]
      · next _ h => simp [Memory.read, Ne.symm h, ih]

theorem Memory.read_insert_other (m : Memory) (a b : Nat) (v : Byte) (h : b ≠ a) :
    Memory.read (Memory.insert a v m) b = Memory.read m b := by
  induction m with
  | nil => simp [Memory.insert, Memory.read, Ne.symm h]
  | cons c m ih =>
    obtain ⟨d, w⟩ := c
    unfold Memory.insert
    split
    · simp [Memory.read, Ne.symm h]
    · split
      · next _ hd => subst hd; simp [Memory.read, Ne.symm h]
      · simp only [Memory.read, ih]

/-- A read after a write to the same address gives the value written. -/
@[simp] theorem Memory.read_write_same (m : Memory) (a : Nat) (v : Byte) : (m.write a v).read a = v := by
  unfold Memory.write
  split
  · next h => rw [Memory.read_filter_same, h]
  · exact Memory.read_insert_same m a v

/-- A write leaves every other address alone. -/
theorem Memory.read_write_other (m : Memory) (a b : Nat) (v : Byte) (h : b ≠ a) : (m.write a v).read b = m.read b := by
  unfold Memory.write
  split
  · exact Memory.read_filter_other m a b h
  · exact Memory.read_insert_other m a b v h

/-- What any byte reads as after a string is written (20_memory.md R82). -/
theorem Memory.read_writeBytes (m : Memory) (off : Nat) (bs : List Byte) (a : Nat) :
    (m.writeBytes off bs).read a = if off ≤ a ∧ a < off + bs.length then bs.getD (a - off) 0 else m.read a := by
  induction bs generalizing m off with
  | nil =>
    simp only [Memory.writeBytes, List.length_nil, Nat.add_zero]
    rw [if_neg (by omega)]
  | cons v vs ih =>
    rw [Memory.writeBytes, ih]
    simp only [List.length_cons]
    by_cases h1 : off + 1 ≤ a ∧ a < off + 1 + vs.length
    · rw [if_pos h1, if_pos (by omega)]
      obtain ⟨k, rfl⟩ : ∃ k, a = off + 1 + k := ⟨a - (off + 1), by omega⟩
      rw [show off + 1 + k - (off + 1) = k by omega, show off + 1 + k - off = k + 1 by omega]
      simp
    · rw [if_neg h1]
      by_cases h2 : a = off
      · subst h2
        rw [if_pos (by omega), Memory.read_write_same]
        simp
      · rw [if_neg (by omega), Memory.read_write_other _ _ _ _ h2]

/-! ### The canonical form -/

theorem Memory.wfFrom_mono {m : Memory} {lo lo' : Nat} (h : lo' ≤ lo) (w : m.wfFrom lo = true) : m.wfFrom lo' = true := by
  cases m with
  | nil => rfl
  | cons c m =>
    obtain ⟨a, v⟩ := c
    simp only [Memory.wfFrom, Bool.and_eq_true, decide_eq_true_eq] at w ⊢
    exact ⟨⟨by omega, w.1.2⟩, w.2⟩

theorem Memory.wfFrom_filter {m : Memory} {lo : Nat} (a : Nat) (w : m.wfFrom lo = true) :
    Memory.wfFrom lo (m.filter fun c => c.1 ≠ a) = true := by
  induction m generalizing lo with
  | nil => rfl
  | cons c m ih =>
    obtain ⟨b, v⟩ := c
    simp only [Memory.wfFrom, Bool.and_eq_true, decide_eq_true_eq] at w
    have hm := ih w.2
    by_cases hb : b = a
    · simpa [List.filter, hb] using Memory.wfFrom_mono (by omega : lo ≤ b + 1) hm
    · simp only [List.filter_cons, ne_eq, hb, not_false_eq_true, decide_true, if_true, Memory.wfFrom,
        Bool.and_eq_true, decide_eq_true_eq]
      exact ⟨w.1, hm⟩

theorem Memory.wfFrom_insert {m : Memory} {lo a : Nat} {v : Byte} (ha : lo ≤ a) (hv : v ≠ unlistedByte)
    (w : m.wfFrom lo = true) : Memory.wfFrom lo (Memory.insert a v m) = true := by
  induction m generalizing lo with
  | nil => simp [Memory.insert, Memory.wfFrom, ha, hv]
  | cons c m ih =>
    obtain ⟨b, u⟩ := c
    simp only [Memory.wfFrom, Bool.and_eq_true, decide_eq_true_eq] at w
    unfold Memory.insert
    split
    · next h =>
      simp only [Memory.wfFrom, Bool.and_eq_true, decide_eq_true_eq]
      exact ⟨⟨ha, hv⟩, ⟨⟨by omega, w.1.2⟩, w.2⟩⟩
    · split
      · next _ h =>
        subst h
        simp only [Memory.wfFrom, Bool.and_eq_true, decide_eq_true_eq]
        exact ⟨⟨ha, hv⟩, w.2⟩
      · next h1 h2 =>
        simp only [Memory.wfFrom, Bool.and_eq_true, decide_eq_true_eq]
        exact ⟨w.1, ih (by omega) w.2⟩

/-- A write keeps the canonical form. -/
theorem Memory.wf_write {m : Memory} (a : Nat) (v : Byte) (w : m.wf = true) : (m.write a v).wf = true := by
  unfold Memory.write
  split
  · exact Memory.wfFrom_filter a w
  · next h => exact Memory.wfFrom_insert (Nat.zero_le a) h w

/-- Writing a string keeps the canonical form. -/
theorem Memory.wf_writeBytes {m : Memory} (off : Nat) (bs : List Byte) (w : m.wf = true) :
    (m.writeBytes off bs).wf = true := by
  induction bs generalizing m off with
  | nil => exact w
  | cons v vs ih => exact ih (off + 1) (Memory.wf_write off v w)

theorem Memory.mem_insert {m : Memory} {a : Nat} {v : Byte} {c : Host.Cell} (h : c ∈ Memory.insert a v m) :
    c = (a, v) ∨ c ∈ m := by
  induction m with
  | nil => simpa [Memory.insert] using h
  | cons d m ih =>
    obtain ⟨b, w⟩ := d
    unfold Memory.insert at h
    split at h
    · simpa using h
    · split at h
      · simp only [List.mem_cons] at h ⊢; tauto
      · simp only [List.mem_cons] at h ⊢
        rcases h with h | h
        · exact .inr (.inl h)
        · rcases ih h with h | h
          · exact .inl h
          · exact .inr (.inr h)

/-- A listed cell after a write was listed before or is the one written. -/
theorem Memory.mem_write {m : Memory} {a : Nat} {v : Byte} {c : Host.Cell} (h : c ∈ m.write a v) : c = (a, v) ∨ c ∈ m := by
  unfold Memory.write at h
  split at h
  · exact .inr (List.mem_of_mem_filter h)
  · exact Memory.mem_insert h

/-- A write below a bound keeps every listed address below it. -/
theorem Memory.below_write {m : Memory} {a n : Nat} {v : Byte} (ha : a < n) (w : ∀ c ∈ m, c.1 < n) :
    ∀ c ∈ m.write a v, c.1 < n := by
  intro c hc
  rcases Memory.mem_write hc with rfl | h
  · exact ha
  · exact w c h

/-- Writing a string that ends below a bound keeps every listed address below it. -/
theorem Memory.below_writeBytes {m : Memory} {off n : Nat} {bs : List Byte} (h : off + bs.length ≤ n)
    (w : ∀ c ∈ m, c.1 < n) : ∀ c ∈ m.writeBytes off bs, c.1 < n := by
  induction bs generalizing m off with
  | nil => exact w
  | cons v vs ih =>
    simp only [List.length_cons] at h
    exact ih (by omega) (Memory.below_write (by omega) w)

/-! ### The scratchpad of a state -/

@[simp] theorem State.readByte_complete (s : State) (c : ErrorCode) (a : Nat) :
    (s.complete c).readByte a = s.readByte a := rfl

theorem State.readByte_congr {s t : State} (h : t.spm = s.spm) (a : Nat) : t.readByte a = s.readByte a := by
  simp [State.readByte, h]

/-- What any byte reads as after `MemWrite` (20_memory.md R82). -/
theorem State.readByte_memWrite (s : State) (off : Nat) (bs : List Byte) (a : Nat) :
    (s.memWrite off bs).readByte a
      = if off ≤ a ∧ a < off + bs.length then bs.getD (a - off) 0 else s.readByte a :=
  Memory.read_writeBytes s.spm off bs a

@[simp] theorem State.memRead_length (s : State) (off n : Nat) : (s.memRead off n).length = n := by
  simp [State.memRead]

theorem State.memRead_congr {s t : State} {off n : Nat}
    (h : ∀ a, off ≤ a → a < off + n → t.readByte a = s.readByte a) : t.memRead off n = s.memRead off n := by
  unfold State.memRead
  apply List.map_congr_left
  intro i hi
  exact h _ (by omega) (by have := List.mem_range.mp hi; omega)

@[simp] theorem State.memRead_complete (s : State) (c : ErrorCode) (off n : Nat) :
    (s.complete c).memRead off n = s.memRead off n := rfl

/-- Reading back a string that was written gives the string. -/
theorem State.memRead_memWrite_same (s : State) (off : Nat) (bs : List Byte) :
    (s.memWrite off bs).memRead off bs.length = bs := by
  apply List.ext_getElem
  · simp
  · intro i h1 h2
    simp only [State.memRead, List.getElem_map, List.getElem_range, State.readByte_memWrite]
    rw [if_pos (by omega)]
    simp [List.getD_eq_getElem?_getD, h2]

/-- A string in a region disjoint from the one written reads as before. -/
theorem State.memRead_memWrite_other (s : State) (off : Nat) (bs : List Byte) (o n : Nat)
    (h : o + n ≤ off ∨ off + bs.length ≤ o) : (s.memWrite off bs).memRead o n = s.memRead o n := by
  apply State.memRead_congr
  intro a h1 h2
  rw [State.readByte_memWrite, if_neg (by omega)]

/-- A part of a string read from the scratchpad is itself a string of the scratchpad (20_memory.md R81). -/
theorem State.slice_memRead (s : State) (off n i j : Nat) (h : j ≤ n) :
    slice (s.memRead off n) i j = s.memRead (off + i) (j - i) := by
  apply List.ext_getElem
  · simp only [slice, List.length_take, List.length_drop, State.memRead_length]
    omega
  · intro k _ _
    simp [slice, State.memRead, Nat.add_assoc]

/-- A byte of a string read from the scratchpad (20_memory.md R81). -/
theorem State.getD_memRead (s : State) (off n k : Nat) (h : k < n) : (s.memRead off n).getD k 0 = s.readByte (off + k) := by
  simp [List.getD_eq_getElem?_getD, State.memRead, h]

end Sys2Proof.Machine
end

