-- ==== Sys2Proof/Laws/Ops.lean ====
section
/-! SUPPORT. For each shared operation one lemma that says once what it can do; later proofs cite it instead of unfolding
the operation. -/

namespace Sys2Proof.Machine

/-! ### Checks -/

/-- A check followed by the rest of a rule. -/
@[simp] theorem require_bind {α : Type} (c : Bool) (e : ErrorCode) (k : Unit → Except ErrorCode α) :
    (require c e >>= k) = if c = true then k () else .error e := by
  cases c <;> rfl

@[simp] theorem requireRegions_bind {α : Type} (s : State) (rs : List Region) (k : Unit → Except ErrorCode α) :
    (requireRegions s rs >>= k) = if rs.all s.inBounds = true then k () else .error .outOfBounds :=
  require_bind _ _ _

@[simp] theorem requireKey_bind {α : Type} (s : State) (k : Unit → Except ErrorCode α) :
    (requireKey s >>= k) = if s.keyValid = true then k () else .error .noKey :=
  require_bind _ _ _

/-- A region is in bounds exactly when it ends inside the scratchpad (20_memory.md R83). -/
theorem State.inBounds_iff (s : State) (r : Region) : s.inBounds r = true ↔ r.off + r.len ≤ s.params.spmBytes := by
  simp [State.inBounds]

/-! ### Completion -/

@[simp] theorem conclude_pure (s t : State) : conclude s (pure t) = .next (t.complete .ok) := rfl
@[simp] theorem conclude_ok (s t : State) : conclude s (.ok t) = .next (t.complete .ok) := rfl
@[simp] theorem conclude_error (s : State) (e : ErrorCode) : conclude s (.error e) = .next (s.complete e) := rfl

/-- All the engine step of a command can answer: the writes of its rule, or none of them and an error code
(60_exceptions.md R356, R360). -/
theorem conclude_next {s t : State} {r : Except ErrorCode State} (h : conclude s r = .next t) :
    (∃ u, r = .ok u ∧ t = u.complete .ok) ∨ (∃ e, r = .error e ∧ t = s.complete e) := by
  cases r with
  | ok u => exact .inl ⟨u, rfl, by simpa using h.symm⟩
  | error e => exact .inr ⟨e, rfl, by simpa using h.symm⟩

/-- The engine step of a command always answers a next state (60_exceptions.md R350, R360). -/
theorem conclude_isNext (s : State) (r : Except ErrorCode State) : ∃ t, conclude s r = .next t := by
  cases r <;> exact ⟨_, rfl⟩

/-! ### Unspecified bytes -/

/-- Drawing bytes changes the scratchpad and the draw count alone. -/
theorem State.drawBytes_eq (s : State) (off n : Nat) :
    s.drawBytes off n = { s with spm := (s.drawBytes off n).spm, drawn := s.drawn + n } := by
  induction n generalizing s off with
  | zero => rfl
  | succ n ih =>
    rw [State.drawBytes, ih]
    simp only [State.mk.injEq, true_and]
    omega

/-- What any byte reads as after bytes are drawn: inside the range its own draw, outside it as before. -/
theorem State.readByte_drawBytes (s : State) (off n a : Nat) :
    (s.drawBytes off n).readByte a
      = if off ≤ a ∧ a < off + n then Config.drawnByte (s.drawn + (a - off)) else s.readByte a := by
  induction n generalizing s off with
  | zero => rw [State.drawBytes, if_neg (by omega)]
  | succ n ih =>
    rw [State.drawBytes, ih]
    by_cases h1 : off + 1 ≤ a ∧ a < off + 1 + n
    · rw [if_pos h1, if_pos (by omega)]
      simp only
      congr 1
      omega
    · rw [if_neg h1]
      by_cases h2 : a = off
      · subst h2
        rw [if_pos (by omega)]
        simp [State.readByte]
      · rw [if_neg (by omega)]
        exact Memory.read_write_other _ _ _ _ h2

/-- Drawing bytes keeps the canonical form. -/
theorem State.wf_drawBytes {s : State} (off n : Nat) (w : s.spm.wf = true) : (s.drawBytes off n).spm.wf = true := by
  induction n generalizing s off with
  | zero => exact w
  | succ n ih => exact ih (off + 1) (Memory.wf_write off _ w)

/-- Drawing bytes below a bound keeps every listed address below it. -/
theorem State.below_drawBytes {s : State} {off n b : Nat} (h : off + n ≤ b) (w : ∀ c ∈ s.spm, c.1 < b) :
    ∀ c ∈ (s.drawBytes off n).spm, c.1 < b := by
  induction n generalizing s off with
  | zero => exact w
  | succ n ih =>
    rw [State.drawBytes]
    exact ih (by omega) (Memory.below_write (by omega) w)

/-- Drawing a region changes the scratchpad and the draw count alone. -/
theorem State.drawRegion_eq (s : State) (r : Region) :
    s.drawRegion r = { s with spm := (s.drawRegion r).spm, drawn := (s.drawRegion r).drawn } := by
  rw [State.drawRegion, State.drawBytes_eq]

/-- Drawing a region leaves every byte outside it alone (log entry 6). -/
theorem State.readByte_drawRegion (s : State) (r : Region) (a : Nat) (h : r.covers a = false) :
    (s.drawRegion r).readByte a = s.readByte a := by
  simp only [Region.covers, decide_eq_false_iff_not] at h
  rw [State.drawRegion, State.readByte_drawBytes, if_neg (by omega)]

/-- Drawing several regions changes the scratchpad and the draw count alone. -/
theorem State.drawRegions_eq (s : State) (rs : List Region) :
    rs.foldl State.drawRegion s
      = { s with spm := (rs.foldl State.drawRegion s).spm, drawn := (rs.foldl State.drawRegion s).drawn } := by
  induction rs generalizing s with
  | nil => rfl
  | cons r rs ih => rw [List.foldl_cons, ih, State.drawRegion_eq]

/-- Drawing several regions leaves every byte outside all of them alone. -/
theorem State.readByte_drawRegions (s : State) (rs : List Region) (a : Nat) (h : ∀ r ∈ rs, r.covers a = false) :
    (rs.foldl State.drawRegion s).readByte a = s.readByte a := by
  induction rs generalizing s with
  | nil => rfl
  | cons r rs ih =>
    rw [List.foldl_cons, ih _ fun x hx => h x (by simp [hx]), State.readByte_drawRegion _ _ _ (h r (by simp))]

/-- Drawing several regions keeps the canonical form and every listed address inside the scratchpad. -/
theorem State.drawRegions_fit {s : State} (rs : List Region) (w : s.spm.wf = true)
    (b : ∀ c ∈ s.spm, c.1 < s.params.spmBytes) :
    (rs.foldl State.drawRegion s).spm.wf = true
      ∧ ∀ c ∈ (rs.foldl State.drawRegion s).spm, c.1 < s.params.spmBytes := by
  induction rs generalizing s with
  | nil => exact ⟨w, b⟩
  | cons r rs ih =>
    have hp : (s.drawRegion r).params = s.params := by rw [State.drawRegion_eq]
    have hb : ∀ c ∈ (s.drawRegion r).spm, c.1 < s.params.spmBytes := by
      by_cases h : r.off ≤ s.params.spmBytes
      · exact State.below_drawBytes (by omega) b
      · have h0 : min r.len (s.params.spmBytes - r.off) = 0 := by omega
        rw [State.drawRegion, h0]
        exact b
    have := ih (s := s.drawRegion r) (State.wf_drawBytes _ _ w) (by rw [hp]; exact hb)
    rwa [hp] at this

/-! ### Reset -/

/-- The soft reset: every register at its power-on value, the SPM outside the running command's output regions as
before, the model's parameters and agenda untouched (70_reset_and_hazards.md R392). -/
theorem State.softReset_eq (s : State) :
    s.softReset = { s.resetRegisters with spm := s.softReset.spm, drawn := s.softReset.drawn } := by
  rw [State.softReset, State.drawRegions_eq]
  rfl

theorem State.readByte_softReset (s : State) (a : Nat) (h : ∀ r ∈ s.runningOutputs, r.covers a = false) :
    s.softReset.readByte a = s.readByte a :=
  State.readByte_drawRegions s s.runningOutputs a h

/-- Power-on reset: every register at its power-on value, the parameters and agenda untouched
(70_reset_and_hazards.md R390). -/
theorem State.powerOn_eq (s : State) :
    s.powerOn = { s.resetRegisters with spm := s.powerOn.spm, drawn := s.powerOn.drawn } := by
  rw [State.powerOn, State.drawRegion_eq]
  rfl

/-! ### The host bus -/

/-- All a read of the block can do: the data word and the draw count (20_memory.md R84, R87, R89). -/
theorem State.blockAccess_read (s : State) (width off : Nat) :
    s.blockAccess (.read width off)
      = { s with readData := (s.blockAccess (.read width off)).readData,
                 drawn := (s.blockAccess (.read width off)).drawn } := by
  simp only [State.blockAccess, State.readTarget]
  split
  · split <;> rfl
  · rfl

/-- A write to the block that is not performed changes nothing (20_memory.md R87). -/
theorem State.blockAccess_write_refused (s : State) (width off : Nat) (v : Word)
    (h : Access.wellFormed (.write width off v) = false) : s.blockAccess (.write width off v) = s := by
  simp [State.blockAccess, h]

/-- All a host access can do: what its access to the block does, or nothing (20_memory.md R93). -/
theorem State.hostAccess_cases (s : State) (a : Access) : s.hostAccess a = s ∨ ∃ b, s.hostAccess a = s.blockAccess b := by
  unfold State.hostAccess
  split
  · next b _ => exact .inr ⟨b, rfl⟩
  · exact .inl rfl

/-- A host write dropped by the busy rule sets OVERRUN and changes nothing else (20_memory.md R88). -/
theorem State.hostWrite_dropped (s : State) (t : Target) (v : Word) (hb : s.busy = true)
    (ht : t.lockedWhileBusy = true) : s.hostWrite t v = { s with overrun := true } := by
  simp [State.hostWrite, hb, ht]

/-- A host write to an idle engine has its effect (20_memory.md R84). -/
theorem State.hostWrite_idle (s : State) (t : Target) (v : Word) (hb : s.busy = false) :
    s.hostWrite t v = s.writeTarget t v := by
  simp [State.hostWrite, hb]

end Sys2Proof.Machine
end

