-- ==== Sys2Proof/Laws/Bus.lean ====
section
/-! SUPPORT. Where each host offset lies in the register map, once, so that no proof walks the map again
(10_state.md R30, 20_memory.md R86 to R89). -/

namespace Sys2Proof.Machine

/-! ### The block's place -/

/-- The offset of an access made at an offset is that offset, wherever the block lies (20_memory.md R93). -/
@[simp] theorem relativeAccess_absoluteAccess (base : Nat) (a : Access) :
    relativeAccess base (absoluteAccess base a) = some a := by
  cases a <;> simp [relativeAccess, absoluteAccess]

/-- A host access to the block acts at its offset, wherever the block lies (20_memory.md R93). -/
@[simp] theorem State.hostAccess_absoluteAccess (s : State) (a : Access) :
    s.hostAccess (absoluteAccess s.params.wceBase a) = s.blockAccess a := by
  simp [State.hostAccess]

/-- The step of a host access to the block. -/
theorem step_hostNext {s : State} {a : Access} {rest : List Turn} (h : HostNext s a rest) :
    step s = .next ({ s with agenda := rest }.blockAccess a) := by
  have e : nextEvent s = .next (s.popAgenda.hostAccess (absoluteAccess s.params.wceBase a)) := by
    unfold nextEvent
    rw [show s.agenda = .host (absoluteAccess s.params.wceBase a) :: rest from h]
  have p : s.popAgenda = { s with agenda := rest } := by
    unfold State.popAgenda
    rw [show s.agenda = .host (absoluteAccess s.params.wceBase a) :: rest from h, List.tail_cons]
  rw [step, e, p]
  exact congrArg _ (State.hostAccess_absoluteAccess { s with agenda := rest } a)

/-! ### The windows -/

theorem locate_arg (p : Params) (i : Fin 8) : locate p (0x020 + 4 * i.val) = .arg i := by
  fin_cases i <;> rfl

theorem locate_cb (p : Params) {m : Nat} (hm : m < 4) : locate p (0x040 + 4 * m) = .cb m := by
  interval_cases m <;> rfl

theorem locate_h (p : Params) {m : Nat} (hm : m < 4) : locate p (0x050 + 4 * m) = .h m := by
  interval_cases m <;> rfl

theorem locate_y (p : Params) {m : Nat} (hm : m < 4) : locate p (0x060 + 4 * m) = .y m := by
  interval_cases m <;> rfl

theorem locate_j0 (p : Params) {m : Nat} (hm : m < 4) : locate p (0x070 + 4 * m) = .j0 m := by
  interval_cases m <;> rfl

theorem locate_kstate (p : Params) {m : Nat} (hm : m < 50) : locate p (0x100 + 4 * m) = .kstate m := by
  unfold locate
  repeat rw [if_neg (by omega)]
  rw [if_pos (by omega)]
  congr 1
  omega

theorem locate_rk (p : Params) {m : Nat} (hm : m < 60) : locate p (0x200 + 4 * m) = .rk m := by
  unfold locate
  repeat rw [if_neg (by omega)]
  rw [if_pos (by omega)]
  congr 1
  omega

theorem locate_spm (p : Params) {m : Nat} (hm : 4 * m + 4 ≤ p.spmBytes) : locate p (0x1000 + 4 * m) = .spm (4 * m) := by
  obtain ⟨off, h⟩ : ∃ off, off = 0x1000 + 4 * m := ⟨_, rfl⟩
  rw [← h]
  have ne : ∀ n, n < 0x1000 → off ≠ n := by omega
  have le : ∀ n, n ≤ 0x1000 → ¬off < n := by omega
  have j : off - 0x1000 = 4 * m := by omega
  have e : off + 4 ≤ 0x1000 + p.spmBytes := by omega
  simp [locate, Config.spmBase, ne, le, j, e]

/-- A choice that is a word of the SPM was not the other branch. -/
theorem ite_eq_spm {c : Prop} [Decidable c] {a b : Target} {j : Nat} (ha : a ≠ .spm j)
    (h : (if c then a else b) = .spm j) : ¬c ∧ b = .spm j := by
  by_cases hc : c
  · rw [if_pos hc] at h; exact absurd h ha
  · rw [if_neg hc] at h; exact ⟨hc, h⟩

/-- A word of the SPM window lies inside the SPM (20_memory.md R80, R86). -/
theorem locate_spm_bound {p : Params} {off j : Nat} (h : locate p off = .spm j) : j + 4 ≤ p.spmBytes := by
  unfold locate at h
  iterate 18 replace h := (ite_eq_spm (by nofun) h).2
  obtain ⟨h1, h2⟩ := ite_eq_spm (by nofun) h
  by_cases hc : off + 4 ≤ Config.spmBase + p.spmBytes
  · rw [if_pos hc] at h2
    injection h2
    omega
  · rw [if_neg hc] at h2
    cases h2

/-! ### The classes of offsets -/

theorem locate_unmapped {p : Params} {off : Nat} (h : unmappedOffset p off) : locate p off = .unmapped := by
  unfold locate Config.spmBase
  rcases h with h | h | h | h
  all_goals
    repeat rw [if_neg (by omega)]
    try rw [if_pos (by omega)]

/-- The words of the data windows (20_memory.md R88). -/
theorem dataOffset_cases {p : Params} {off : Nat} (hp : p.spmBytes % 4 = 0) (h4 : off % 4 = 0)
    (h : dataOffset p off) :
    (∃ i : Fin 8, off = 0x020 + 4 * i.val) ∨ (∃ m < 4, off = 0x040 + 4 * m) ∨ (∃ m < 4, off = 0x050 + 4 * m)
      ∨ (∃ m < 4, off = 0x060 + 4 * m) ∨ (∃ m < 4, off = 0x070 + 4 * m) ∨ (∃ m < 50, off = 0x100 + 4 * m)
      ∨ ∃ m, 4 * m + 4 ≤ p.spmBytes ∧ off = 0x1000 + 4 * m := by
  obtain ⟨k, rfl⟩ : ∃ k, off = 4 * k := ⟨off / 4, by omega⟩
  rcases h with h | h | h
  · by_cases h1 : k < 16
    · exact .inl ⟨⟨k - 8, by omega⟩, by simp only; omega⟩
    · by_cases h2 : k < 20
      · exact .inr (.inl ⟨k - 16, by omega, by omega⟩)
      · by_cases h3 : k < 24
        · exact .inr (.inr (.inl ⟨k - 20, by omega, by omega⟩))
        · by_cases h4 : k < 28
          · exact .inr (.inr (.inr (.inl ⟨k - 24, by omega, by omega⟩)))
          · exact .inr (.inr (.inr (.inr (.inl ⟨k - 28, by omega, by omega⟩))))
  · exact .inr (.inr (.inr (.inr (.inr (.inl ⟨k - 64, by omega, by omega⟩)))))
  · exact .inr (.inr (.inr (.inr (.inr (.inr ⟨k - 1024, by omega, by omega⟩)))))

/-- A data offset is locked while a command runs (20_memory.md R88). -/
theorem locate_data_locked {p : Params} {off : Nat} (hp : p.spmBytes % 4 = 0) (h4 : off % 4 = 0)
    (h : dataOffset p off) : (locate p off).lockedWhileBusy = true := by
  rcases dataOffset_cases hp h4 h with ⟨i, rfl⟩ | ⟨m, hm, rfl⟩ | ⟨m, hm, rfl⟩ | ⟨m, hm, rfl⟩ | ⟨m, hm, rfl⟩ | ⟨m, hm, rfl⟩
    | ⟨m, hm, rfl⟩
  · rw [locate_arg]; rfl
  · rw [locate_cb p hm]; rfl
  · rw [locate_h p hm]; rfl
  · rw [locate_y p hm]; rfl
  · rw [locate_j0 p hm]; rfl
  · rw [locate_kstate p hm]; rfl
  · rw [locate_spm p hm]; rfl

end Sys2Proof.Machine
end

