-- ==== Sys2Proof/Laws/PerInstr.lean ====
section
/-! SUPPORT. Statements for all instructions, one lemma per constructor. -/

namespace Sys2Proof.Laws

/-- The command word of an instruction has RSVD = 0 and an OPC that 30_encoding.md R115 does not call illegal. -/
def LegalWord.Statement (i : Instr) : Prop := (commandFields (encode i)).wellFormed = true

theorem LegalWord.nop : LegalWord.Statement .nop := by unfold LegalWord.Statement; decide
theorem LegalWord.kinit : LegalWord.Statement .kinit := by unfold LegalWord.Statement; decide
theorem LegalWord.kabsorb : LegalWord.Statement .kabsorb := by unfold LegalWord.Statement; decide
theorem LegalWord.kfinal : LegalWord.Statement .kfinal := by unfold LegalWord.Statement; decide
theorem LegalWord.ksqueeze : LegalWord.Statement .ksqueeze := by unfold LegalWord.Statement; decide
theorem LegalWord.kpermute : LegalWord.Statement .kpermute := by unfold LegalWord.Statement; decide
theorem LegalWord.khash : LegalWord.Statement .khash := by unfold LegalWord.Statement; decide
theorem LegalWord.aesKeyexp : LegalWord.Statement .aesKeyexp := by unfold LegalWord.Statement; decide
theorem LegalWord.aesEnc : LegalWord.Statement .aesEnc := by unfold LegalWord.Statement; decide
theorem LegalWord.ctrXor : LegalWord.Statement .ctrXor := by unfold LegalWord.Statement; decide
theorem LegalWord.ctrInc : LegalWord.Statement .ctrInc := by unfold LegalWord.Statement; decide
theorem LegalWord.ghSeth : LegalWord.Statement .ghSeth := by unfold LegalWord.Statement; decide
theorem LegalWord.ghUpdate : LegalWord.Statement .ghUpdate := by unfold LegalWord.Statement; decide
theorem LegalWord.gfMul : LegalWord.Statement .gfMul := by unfold LegalWord.Statement; decide
theorem LegalWord.gcmJ0 : LegalWord.Statement .gcmJ0 := by unfold LegalWord.Statement; decide
theorem LegalWord.gcmEnc : LegalWord.Statement .gcmEnc := by unfold LegalWord.Statement; decide
theorem LegalWord.gcmDec : LegalWord.Statement .gcmDec := by unfold LegalWord.Statement; decide
theorem LegalWord.ecFinv : LegalWord.Statement .ecFinv := by unfold LegalWord.Statement; decide
theorem LegalWord.ecPadd : LegalWord.Statement .ecPadd := by unfold LegalWord.Statement; decide
theorem LegalWord.ecPdbl : LegalWord.Statement .ecPdbl := by unfold LegalWord.Statement; decide
theorem LegalWord.ecSmul : LegalWord.Statement .ecSmul := by unfold LegalWord.Statement; decide
theorem LegalWord.ecOncurve : LegalWord.Statement .ecOncurve := by unfold LegalWord.Statement; decide
theorem LegalWord.ecdsaRecover : LegalWord.Statement .ecdsaRecover := by unfold LegalWord.Statement; decide
theorem LegalWord.ecAddr : LegalWord.Statement .ecAddr := by unfold LegalWord.Statement; decide
theorem LegalWord.encWord : LegalWord.Statement .encWord := by unfold LegalWord.Statement; decide
theorem LegalWord.eip712Digest : LegalWord.Statement .eip712Digest := by unfold LegalWord.Statement; decide
theorem LegalWord.permitDomain : LegalWord.Statement .permitDomain := by unfold LegalWord.Statement; decide
theorem LegalWord.permitToken : LegalWord.Statement .permitToken := by unfold LegalWord.Statement; decide
theorem LegalWord.permitBatch : LegalWord.Statement .permitBatch := by unfold LegalWord.Statement; decide
theorem LegalWord.permitDigest : LegalWord.Statement .permitDigest := by unfold LegalWord.Statement; decide
theorem LegalWord.permitVerify : LegalWord.Statement .permitVerify := by unfold LegalWord.Statement; decide

end Sys2Proof.Laws
end

