-- ==== Sys2Proof/Laws/Results.lean ====
section
/-! SUPPORT. How long the strings are that the commands write, how the round functions read back, and how completion runs
through the branches of a rule; later proofs cite these instead of unfolding the functions. -/

namespace Sys2Proof.Machine

/-! ### Completion through a rule's branches -/

theorem conclude_ite (s : State) (c : Prop) [Decidable c] (a b : Except ErrorCode State) :
    conclude s (if c then a else b) = if c then conclude s a else conclude s b := by
  split <;> rfl

theorem conclude_finitePoint (s : State) (g : GroupPoint) (e : ErrorCode) (k : Point → Except ErrorCode State) :
    conclude s (finitePoint g e >>= k)
      = match g with
        | some p => conclude s (k p)
        | none => .next (s.complete e) := by
  cases g <;> rfl

theorem conclude_verified (s : State) (o : Option Bool) (k : Bool → Except ErrorCode State) :
    conclude s (verified o >>= k)
      = match o with
        | some b => conclude s (k b)
        | none => .next (s.complete .recoveryFailure) := by
  cases o <;> rfl

/-- Every command answers through `conclude` (60_exceptions.md R360). -/
theorem exec_eq_conclude (i : Instr) (s : State) : ∃ r, exec i s = conclude s r := by
  cases i
  case nop => exact ⟨pure s, rfl⟩
  case kinit => exact ⟨pure { s with kstate := zeroLanes }, rfl⟩
  case kpermute => exact ⟨pure { s with kstate := keccakF s.kstate }, rfl⟩
  case ctrInc => exact ⟨pure { s with cb := inc32 s.cb }, rfl⟩
  all_goals exact ⟨_, rfl⟩

/-- A write to a region leaves every byte outside it alone (20_memory.md R82). -/
theorem State.readByte_memWrite_outside (s : State) (off n : Nat) (bs : List Byte) (h : bs.length = n) (a : Nat)
    (hc : (⟨off, n⟩ : Region).covers a = false) : (s.memWrite off bs).readByte a = s.readByte a := by
  simp only [Region.covers, decide_eq_false_iff_not] at hc
  rw [State.readByte_memWrite, if_neg (by omega)]

/-! ### Lengths -/

@[simp] theorem squeeze_length (A : Lanes) (n : Nat) : (squeeze A n).length = min n 200 := by simp [squeeze]

@[simp] theorem keccak256_length (M : List Byte) : (keccak256 M).length = 32 := by simp [keccak256]

theorem pad_length (M : List Byte) (h : M.length < 136) : (pad M).length = 136 := by
  unfold pad
  split
  · simp [*]
  · simp only [List.length_append, zeros_length, List.length_singleton]
    omega

theorem gctrBlocks_length (E : Block → Block) (n : Nat) (cb : Block) (X : List Byte) :
    (gctrBlocks E n cb X).1.length = min (16 * n) X.length := by
  induction n generalizing cb X with
  | zero => simp [gctrBlocks]
  | succ n ih =>
    simp only [gctrBlocks, List.length_append, xorBytes_length, List.length_take, blockBytes_length, ih,
      List.length_drop]
    omega

@[simp] theorem gctr_length (E : Block → Block) (cb : Block) (X : List Byte) : (gctr E cb X).1.length = X.length := by
  rw [gctr, gctrBlocks_length]
  omega

@[simp] theorem pointBytes_length (p : Point) : (pointBytes p).length = 64 := by simp [pointBytes]

@[simp] theorem addressOf_length (X : List Byte) : (addressOf X).length = 20 := by simp [addressOf]

theorem encodeWord_length (b : List Byte) (h : b.length ≤ 32) : (encodeWord b).length = 32 := by
  simp only [encodeWord, List.length_append, zeros_length]
  omega

theorem extendSchedule_length (nk n i : Nat) (ws : List Word) : (extendSchedule nk n i ws).length = n + ws.length := by
  induction n generalizing i ws with
  | zero => simp [extendSchedule]
  | succ n ih =>
    rw [extendSchedule, ih, List.length_cons]
    omega

theorem keyExpansion_length (K : List Byte) (_ : K.length = 16 ∨ K.length = 24 ∨ K.length = 32) :
    (keyExpansion K).length = 4 * (roundsOf K.length + 1) := by
  simp only [keyExpansion, List.length_reverse, extendSchedule_length, List.length_map, List.length_range, roundsOf]
  omega

/-! ### Reading back what a round function builds -/

theorem lane_lanesOf (f : Nat → Nat → Lane) {x y : Nat} (hx : x < 5) (hy : y < 5) : lane (lanesOf f) x y = f x y := by
  unfold lane lanesOf
  rw [tabulate_toList]
  interval_cases x <;> interval_cases y <;> rfl

@[simp] theorem lane_mod (A : Lanes) (x y : Nat) : lane A (x % 5) y = lane A x y := by simp [lane]

theorem stateByte_stateOf (f : Nat → Nat → Byte) {r c : Nat} (hr : r < 4) (hc : c < 4) :
    stateByte (stateOf f) r c = f r c := by
  interval_cases r <;> interval_cases c <;> rfl

/-- Lane A[x, y] is the element x + 5 y of the state (10_state.md R37). -/
theorem lane_eq_getElem (A : Lanes) (i : Nat) (h : i < 25) : lane A (i % 5) (i / 5) = A[i] := by
  unfold lane
  rw [show i % 5 % 5 + 5 * (i / 5 % 5) = i by omega]
  simp [List.getD_eq_getElem?_getD, h]

/-! ### Reading operands out of the scratchpad -/

/-- A 32-byte string is its own word (45_eip712.md R300). -/
theorem encodeWord_whole (b : List Byte) (h : b.length = 32) : encodeWord b = b := by simp [encodeWord, h, zeros]

/-- The word of an address: 12 zero bytes before it (45_eip712.md R300). -/
theorem encodeWord_address (b : List Byte) (h : b.length = 20) : encodeWord b = zeros 12 ++ b := by simp [encodeWord, h]

/-- The signature at an offset, field by field (44_ecdsa.md R281). -/
theorem bytesSignature_memRead (s : State) (off : Nat) :
    bytesSignature (s.memRead off 65)
      = ⟨be (s.memRead off 32), be (s.memRead (off + 32) 32), (s.readByte (off + 64)).toNat⟩ := by
  rw [bytesSignature, State.slice_memRead _ _ _ _ _ (by omega), State.slice_memRead _ _ _ _ _ (by omega),
    State.getD_memRead _ _ _ _ (by omega)]
  rfl

/-- The records at an offset, one after the other (45_eip712.md R303). -/
theorem records_memRead (s : State) (n est m : Nat) (h : 52 * n ≤ m) :
    records n (s.memRead est m) = (List.range n).map fun i => s.memRead (est + 52 * i) 52 := by
  induction n generalizing est m with
  | zero => rfl
  | succ n ih =>
    have head : (s.memRead est m).take 52 = s.memRead est 52 := by
      simpa [slice] using s.slice_memRead est m 0 52 (by omega)
    have tail : (s.memRead est m).drop 52 = s.memRead (est + 52) (m - 52) := by
      rw [← s.slice_memRead est m 52 m le_rfl, slice, List.take_of_length_le (by simp)]
    rw [records, head, tail, ih _ _ (by omega), List.range_succ_eq_map, List.map_cons, List.map_map]
    congr 1
    apply List.map_congr_left
    intro i _
    rw [Function.comp, Nat.succ_eq_add_one, show est + 52 + 52 * i = est + 52 * (i + 1) by omega]

end Sys2Proof.Machine
end

