-- ==== Sys2Proof/Tests/Slice0.lean ====
section
/-! SUPPORT. Tests, each a named theorem: the smoke test of WellFormed, one written-out word for every command, values of
95_test_vectors.md, and for every obligation with hypotheses a witness that meets them. Expected values come from the spec:
the comment of each test names the vector or the rule. -/

namespace Sys2Proof.Tests

open Sys2Proof.Machine

/-! ### Helpers -/

/-- The state a result carries; no result of this machine is without one. -/
def after (r : Result) : State :=
  match r with
  | .next s => s
  | .fault _ => State.reset
  | .refused _ => State.reset

/-- The reset state with operands in ARG and strings in the scratchpad. -/
def withMem (args : List Nat) (cells : List (Nat × List Byte)) : State :=
  cells.foldl (fun s c => s.memWrite c.1 c.2) (State.reset.withArgs args)

/-- The idle reset state with events on the agenda. -/
def idle (l : List Turn) : State := { State.reset with agenda := l }

/-- The idle reset state with events on the agenda and the block at host address 0x40000000. -/
def placed (l : List Turn) : State := { idle l with params := { Config.defaults with wceBase := 0x40000000 } }

/-- The reset state with a command accepted. -/
def running (cmd : Word) (l : List Turn) : State := { State.reset.accept cmd with agenda := l }

/-- A state that holds the expanded zero key (V-A5), with operands and strings. -/
def keyed (args : List Nat) (cells : List (Nat × List Byte)) : State :=
  (after (exec .aesKeyexp (withMem [0x800, 16] cells))).withArgs args

/-- The word a single host read returns. -/
def busRead (s : State) (off : Nat) : Word := (after (step { s with agenda := [.host (.read 32 off)] })).readData

/-- The state after a run of the given number of events. -/
def runFor (n : Nat) (s : State) : State := after (core.run n s)

/-! ### WellFormed refuses -/

theorem test_params_default : Config.defaults.wellFormed = true := by decide
theorem test_params_largest : ({ Config.defaults with spmBytes := 2 ^ 20 } : Params).wellFormed = true := by decide
theorem test_params_not_multiple_of_4 : ({ Config.defaults with spmBytes := 4098 } : Params).wellFormed = false := by decide
theorem test_params_too_small : ({ Config.defaults with spmBytes := 1020 } : Params).wellFormed = false := by decide
theorem test_params_too_large : ({ Config.defaults with spmBytes := 2 ^ 20 + 4 } : Params).wellFormed = false := by decide
theorem test_fields_reserved_bits : (CommandFields.mk 1 0x15).wellFormed = false := by decide
theorem test_fields_unlisted : ∀ n ∈ [0x01, 0x0F, 0x16, 0x1F, 0x22, 0x27, 0x2A, 0x2F, 0x36, 0x3F, 0x45, 0x47, 0x4A, 0x4F, 0x57, 0xFF],
    (CommandFields.mk 0 (BitVec.ofNat 8 n)).wellFormed = false := by decide
theorem test_access_narrow : (Access.read 16 0x00C).wellFormed = false := by decide
theorem test_access_misaligned : (Access.write 32 0x022 0).wellFormed = false := by decide

/-! ### Every constructor's word, RSVD 23:0 then OPC 7:0, written out from 30_encoding.md R110 and R113 -/

theorem test_word_control_keccak :
    decodeTableWord 32 0b00000000000000000000000000000000 = some .nop
    ∧ decodeTableWord 32 0b00000000000000000000000000010000 = some .kinit
    ∧ decodeTableWord 32 0b00000000000000000000000000010001 = some .kabsorb
    ∧ decodeTableWord 32 0b00000000000000000000000000010010 = some .kfinal
    ∧ decodeTableWord 32 0b00000000000000000000000000010011 = some .ksqueeze
    ∧ decodeTableWord 32 0b00000000000000000000000000010100 = some .kpermute
    ∧ decodeTableWord 32 0b00000000000000000000000000010101 = some .khash := by decide
theorem test_word_aes_gcm :
    decodeTableWord 32 0b00000000000000000000000000100000 = some .aesKeyexp
    ∧ decodeTableWord 32 0b00000000000000000000000000100001 = some .aesEnc
    ∧ decodeTableWord 32 0b00000000000000000000000000101000 = some .ctrXor
    ∧ decodeTableWord 32 0b00000000000000000000000000101001 = some .ctrInc
    ∧ decodeTableWord 32 0b00000000000000000000000000110000 = some .ghSeth
    ∧ decodeTableWord 32 0b00000000000000000000000000110001 = some .ghUpdate
    ∧ decodeTableWord 32 0b00000000000000000000000000110010 = some .gfMul
    ∧ decodeTableWord 32 0b00000000000000000000000000110011 = some .gcmJ0
    ∧ decodeTableWord 32 0b00000000000000000000000000110100 = some .gcmEnc
    ∧ decodeTableWord 32 0b00000000000000000000000000110101 = some .gcmDec := by decide
theorem test_word_ec :
    decodeTableWord 32 0b00000000000000000000000001000000 = some .ecFinv
    ∧ decodeTableWord 32 0b00000000000000000000000001000001 = some .ecPadd
    ∧ decodeTableWord 32 0b00000000000000000000000001000010 = some .ecPdbl
    ∧ decodeTableWord 32 0b00000000000000000000000001000011 = some .ecSmul
    ∧ decodeTableWord 32 0b00000000000000000000000001000100 = some .ecOncurve
    ∧ decodeTableWord 32 0b00000000000000000000000001001000 = some .ecdsaRecover
    ∧ decodeTableWord 32 0b00000000000000000000000001001001 = some .ecAddr := by decide
theorem test_word_permit :
    decodeTableWord 32 0b00000000000000000000000001010000 = some .encWord
    ∧ decodeTableWord 32 0b00000000000000000000000001010001 = some .eip712Digest
    ∧ decodeTableWord 32 0b00000000000000000000000001010010 = some .permitDomain
    ∧ decodeTableWord 32 0b00000000000000000000000001010011 = some .permitToken
    ∧ decodeTableWord 32 0b00000000000000000000000001010100 = some .permitBatch
    ∧ decodeTableWord 32 0b00000000000000000000000001010101 = some .permitDigest
    ∧ decodeTableWord 32 0b00000000000000000000000001010110 = some .permitVerify := by decide
/-- V-C1. -/
theorem test_word_illegal :
    ∀ w ∈ [0x00000001, 0x00000016, 0x00000036, 0x00000057, 0x000000FF, 0x00000115, 0x80000010],
      decodeTableWord 32 w = none := by decide
/-- The step runs the word placed by withFetchWord: AES_ENC after reset is NO_KEY (V-A6, STATUS by V-C2). -/
theorem test_fetch_word : (after (step (State.reset.withFetchWord 32 0x21))).statusWord = 0x00000406 := by decide

/-! ### Values of 95_test_vectors.md -/

/-- V-K2, one permutation of the zero state. -/
theorem test_keccak_zero : (keccakF zeroLanes)[0] = 0xF1258F7940E1DDE7 := by decide +kernel
/-- V-K1, one round of the zero state. -/
theorem test_round_zero : keccakRound zeroLanes 0x0000000000000001 = zeroLanes.set 0 1 := by decide +kernel
/-- V-A2, key 603deb10..., the word with the extra SubWord. -/
theorem test_keyexp_extra_subword :
    (keyExpansion (beBytes 32 0x603DEB1015CA71BE2B73AEF0857D77811F352C073B6108D72D9810A30914DFF4)).getD 12 0
      = 0xA8B09C1A := by decide +kernel
/-- V-A3, 16-byte key. -/
theorem test_aes_enc :
    (after (exec .aesEnc ((after (exec .aesKeyexp (withMem [0, 16]
      [(0, beBytes 16 0x000102030405060708090A0B0C0D0E0F), (0x20, beBytes 16 0x00112233445566778899AABBCCDDEEFF)]))).withArgs
        [0x20, 0x40]))).memRead 0x40 16 = beBytes 16 0x69C4E0D86A7B0430D8CDB78070B4C55A := by decide +kernel
/-- V-A4, ShiftRows and MixColumns. -/
theorem test_shift_mix :
    shiftRows (beBytes 16 0x000102030405060708090A0B0C0D0E0F) = beBytes 16 0x00050A0F04090E03080D02070C01060B
    ∧ mixColumns (beBytes 16 0xDB135345F20A225C01010101C6C6C6C6) = beBytes 16 0x8E4DA1BC9FDC589D01010101C6C6C6C6 := by
  decide +kernel
/-- V-G1. -/
theorem test_inc32_wraps : inc32 0x000102030405060708090A0BFFFFFFFF = 0x000102030405060708090A0B00000000 := by decide
/-- V-G2. -/
theorem test_gf_mul :
    gfMul 0x0388DACE60B6A392F328C2B971B2FE78 0x66E94BD4EF8A2C3B884CFA59CA342B2E = 0x5E2EC746917062882C85B0685353DEB7
    ∧ gfMul 1 1 = 0xE6080000000000000000000000000003 := by decide +kernel
/-- V-G3. -/
theorem test_ghash :
    ghash 0x66E94BD4EF8A2C3B884CFA59CA342B2E 0
      (beBytes 16 0x0388DACE60B6A392F328C2B971B2FE78 ++ beBytes 16 0x00000000000000000000000000000080)
      = 0xF38CBB1AD69223DCC3457AE5B6B0F885 := by decide +kernel
/-- V-G6, with the zero key: 20 bytes from CB = 0^12 ffffffff. -/
theorem test_ctr_xor :
    let t := after (exec .ctrXor { keyed [0, 20, 0x40] [] with cb := 0xFFFFFFFF })
    t.memRead 0x40 20 = beBytes 20 0x28C16380C491088CA019F8A76853B1E866E94BD4 ∧ t.cb = 1 := by decide +kernel
/-- V-G5, case TC2. -/
theorem test_gcm_enc_tc2 :
    let t := after (exec .gcmEnc (keyed [0x10, 12, 0x30, 0, 0x20, 16, 0x40, 0x50] []))
    t.memRead 0x40 16 = beBytes 16 0x0388DACE60B6A392F328C2B971B2FE78
    ∧ t.memRead 0x50 16 = beBytes 16 0xAB6E47D42CEC13BDF53A67B21257BDDF := by decide +kernel
/-- V-G7, one tag bit flipped. -/
theorem test_gcm_dec_refused :
    let t := after (exec .gcmDec (keyed [0x10, 12, 0x30, 0, 0x40, 16, 0x60, 0x50]
      [(0x40, beBytes 16 0x0388DACE60B6A392F328C2B971B2FE78), (0x50, beBytes 16 0xAB6E47D42CEC13BDF53A67B21357BDDF)]))
    t.statusWord = 0x00000916 := by decide +kernel
/-- V-E2. -/
theorem test_finv_two :
    fieldInv 2 = 0x7FFFFFFFFFFFFFFFFFFFFFFFFFFFFFFFFFFFFFFFFFFFFFFFFFFFFFFF7FFFFE18 := by decide +kernel

/-- 2G of V-E3. -/
def twoG : Point :=
  ⟨0xC6047F9441ED7D6D3045406E95C07CD85C778E4B8CEF3CA7ABAC09B95C709EE5,
   0x1AE168FEA63DC339A3C58419466CEAEEF7F632653266D0E1236431A950CFE52A⟩

/-- 3G of V-E3. -/
def threeG : Point :=
  ⟨0xF9308A019258C31049344F85F89D5229B531C845836F99B08601F113BCE036F9,
   0x388F7B0F632DE8140FE337E62A37F3566500A99934C2231B6CB9FD7584B8E672⟩

/-- V-E3. -/
theorem test_point_arithmetic : pointDouble curveG = twoG ∧ pointAdd curveG twoG = threeG := by decide +kernel
/-- V-E3, EC_SMUL with k = 3. -/
theorem test_smul_three : scalarMul 3 (some curveG) = some threeG := by decide +kernel
/-- V-E5. -/
theorem test_oncurve :
    curveG.onCurve = true ∧ (Point.mk curveG.x (curveG.y + 1)).onCurve = false ∧ (Point.mk 0 0).onCurve = false := by
  decide +kernel
/-- V-S3: 5^3 + 7 has no square root. -/
theorem test_recover_no_root : recover 1 ⟨5, 1, 0x1B⟩ = none := by decide +kernel
/-- V-P1, ENC_WORD of 20 bytes. -/
theorem test_enc_word :
    (after (exec .encWord (withMem [0, 20, 0x40] [(0, beBytes 20 0x22D473030F116DDEE9F6B43AC78BA3)]))).memRead 0x40 32
      = beBytes 32 0x22D473030F116DDEE9F6B43AC78BA3 := by decide +kernel
/-- V-K6, lengths and bounds of the sponge commands. -/
theorem test_keccak_errors :
    (after (exec .kfinal (withMem [0, 136] []))).statusWord = 0x00000206
    ∧ (after (exec .ksqueeze (withMem [0, 137] []))).statusWord = 0x00000206
    ∧ (after (exec .kabsorb (withMem [0, 31] []))).statusWord = 0x00000306
    ∧ (after (exec .kabsorb (withMem [4096, 0] []))).statusWord = 0x00000002
    ∧ (after (exec .kabsorb (withMem [4097, 0] []))).statusWord = 0x00000306
    ∧ (after (exec .khash (withMem [0xFF0, 0x20, 0] []))).statusWord = 0x00000306 := by decide +kernel
/-- V-A6: bounds before key. -/
theorem test_aes_errors :
    (after (exec .aesKeyexp (withMem [0, 20] []))).statusWord = 0x00000206
    ∧ (after (exec .aesEnc (withMem [4090, 0] []))).statusWord = 0x00000306 := by decide
/-- V-E4: EC_SMUL with k = 0 and an off-curve point; EC_PADD(G, G); EC_PDBL((0, 0)). -/
theorem test_ec_errors :
    (after (exec .ecSmul (withMem [0, 0x40, 0x80] []))).statusWord = 0x00000606
    ∧ (after (exec .ecPadd (withMem [0, 0, 0x80] [(0, pointBytes curveG)]))).statusWord = 0x00000706
    ∧ (after (exec .ecPdbl (withMem [0, 0x80] []))).statusWord = 0x00000606 := by decide +kernel
/-- PR-6, the race at the end: both orders (20_memory.md R95). -/
theorem test_race_both_orders :
    (runFor 3 (idle [.host (.write 32 0x010 0x10), .engine, .host (.write 32 0x020 5)])).statusWord = 0x00000002
    ∧ (runFor 3 (idle [.host (.write 32 0x010 0x10), .engine, .host (.write 32 0x020 5)])).args[0] = 5
    ∧ (runFor 3 (idle [.host (.write 32 0x010 0x10), .host (.write 32 0x020 5), .engine])).statusWord = 0x0000000A
    ∧ (runFor 3 (idle [.host (.write 32 0x010 0x10), .host (.write 32 0x020 5), .engine])).args[0] = 0 := by decide
/-- PR-1, a byte string written by one word and read back: 61 62 63 00 (20_memory.md R85). -/
theorem test_little_endian_window :
    (runFor 1 (idle [.host (.write 32 0x1000 0x00636261)])).memRead 0 4 = [0x61, 0x62, 0x63, 0x00]
    ∧ busRead (runFor 1 (idle [.host (.write 32 0x040 0x04030201)])) 0x040 = 0x04030201
    ∧ (runFor 1 (idle [.host (.write 32 0x040 0x04030201)])).cb = 0x01020304000000000000000000000000 := by decide
/-- 10_state.md R36: ID, VERSION, and SPMSIZE at its default (00_scope.md R6). -/
theorem test_constant_registers :
    busRead State.reset 0x000 = 0x57434531 ∧ busRead State.reset 0x004 = 1 ∧ busRead State.reset 0x018 = 4096 := by decide
/-- The block lies at WCE_BASE (20_memory.md R93): with the base 0x40000000 the CMD write goes to 0x40000010, and a write
to the address 0x10 is not the block's. -/
theorem test_block_at_its_base :
    (runFor 1 (placed [.host (.write 32 0x40000010 0x15)])).busy = true
    ∧ runFor 1 (placed [.host (.write 32 0x10 0x15)]) = placed []
    ∧ (runFor 1 (placed [.host (.read 32 0x40000000)])).readData = 0x57434531 := by decide
/-- PR-7: IE and DONE raise IRQ, clearing DONE lowers it, a soft reset leaves STATUS 0. -/
theorem test_interrupt_and_soft_reset :
    (runFor 3 (idle [.host (.write 32 0x008 1), .host (.write 32 0x010 0), .engine])).irq = true
    ∧ (runFor 4 (idle [.host (.write 32 0x008 1), .host (.write 32 0x010 0), .engine, .host (.write 32 0x00C 2)])).irq = false
    ∧ (runFor 4 (idle [.host (.write 32 0x008 1), .host (.write 32 0x010 0), .engine, .host (.write 32 0x008 3)])).statusWord
        = 0 := by decide

/-! ### Witnesses: for every obligation with hypotheses, states and operands that meet all of them, clause by clause -/

/-- EngineTurnDecodesTheWord, StepRunsTheDecodedCommand: an engine turn with an empty agenda and with one queued, an
illegal word (RSVD ≠ 0, and each end of the unlisted ranges) and a legal one. -/
theorem test_witness_engine_turn :
    (EngineNext (running 0x56 []) ∧ EngineNext (running 0x56 [.engine, .powerOn]))
    ∧ (running 0x56 []).busy = true ∧ decode (running 0x56 []).cmd = .ok .permitVerify
    ∧ (commandFields (running 0x00 []).cmd).wellFormed = true
    ∧ (commandFields (running 0x56 []).cmd).wellFormed = true
    ∧ ∀ w ∈ [0x00000100, 0x80000010, 0x01, 0x0F, 0x57, 0xFF],
        (commandFields (running (BitVec.ofNat 32 w) []).cmd).wellFormed = false :=
  ⟨⟨.inl rfl, .inr ⟨_, rfl⟩⟩, rfl, rfl, by decide, by decide, by decide⟩
/-- StepAlwaysAnswersNext: an idle engine, and an access at the last address below the block, read and written. -/
theorem test_witness_idle_engine :
    (EngineNext State.reset ∧ State.reset.busy = false)
    ∧ 0x3FFFFFFF < (placed []).params.wceBase
    ∧ (placed [.host (.read 32 0x3FFFFFFF)]).agenda = .host (.read 32 0x3FFFFFFF) :: []
    ∧ (placed [.host (.write 32 0x3FFFFFFF 1)]).agenda = .host (.write 32 0x3FFFFFFF 1) :: [] :=
  ⟨⟨.inl rfl, rfl⟩, by decide, rfl, rfl⟩
/-- HostNext with the block at another base than 0, read and written. -/
theorem test_witness_placed :
    HostNext (placed [.host (.write 32 0x40000010 0x15), .engine]) (.write 32 0x010 0x15) [.engine]
    ∧ HostNext (placed [.host (.read 32 0x40000000)]) (.read 32 0x000) [] := ⟨rfl, rfl⟩
/-- CmdWriteAcceptedWhenIdle: both clauses. -/
theorem test_witness_cmd_write :
    HostNext (idle [.host (.write 32 0x010 0x15)]) (.write 32 0x010 0x15) []
    ∧ (idle [.host (.write 32 0x010 0x15)]).busy = false
    ∧ HostNext (running 0x10 [.host (.write 32 0x010 0x15)]) (.write 32 0x010 0x15) []
    ∧ (running 0x10 [.host (.write 32 0x010 0x15)]).busy = true := ⟨rfl, rfl, rfl, rfl⟩
/-- NarrowOrMisalignedNotPerformed: a narrow access, a misaligned one, each as a read and as a write. -/
theorem test_witness_narrow :
    HostNext (idle [.host (.write 16 0x040 1)]) (.write 16 0x040 1) [] ∧ (16 ≠ 32 ∨ 0x040 % 4 ≠ 0)
    ∧ HostNext (idle [.host (.read 32 0x041)]) (.read 32 0x041) [] ∧ (32 ≠ 32 ∨ 0x041 % 4 ≠ 0) :=
  ⟨rfl, by decide, rfl, by decide⟩
/-- UnmappedAndReadOnlyAccesses: the ends of every range, read and written. -/
theorem test_witness_unmapped :
    (∀ off ∈ [0x080, 0x0FC, 0x1C8, 0x1FC, 0x2F0, 0xFFC, 0x2000, 0x20000], off % 4 = 0 ∧ unmappedOffset Config.defaults off)
    ∧ (∀ off ∈ [0x000, 0x004, 0x014, 0x018, 0x01C, 0x200, 0x2EC], off % 4 = 0 ∧ readOnlyOffset off)
    ∧ HostNext (idle [.host (.read 32 0x080)]) (.read 32 0x080) []
    ∧ HostNext (idle [.host (.write 32 0x2EC 1)]) (.write 32 0x2EC 1) [] := by
  refine ⟨?_, ?_, rfl, rfl⟩
  · unfold unmappedOffset
    decide
  · unfold readOnlyOffset
    decide
/-- BusyWritesDroppedWithOverrun, BusyReadsReturnFreshDraws: every clause at the ends of its ranges. -/
theorem test_witness_busy_access :
    Config.defaults.wellFormed = true
    ∧ (∀ off ∈ [0x020, 0x07C, 0x100, 0x1C4, 0x1000, 0x1FFC], off % 4 = 0 ∧ dataOffset Config.defaults off)
    ∧ (∀ off ∈ [0x014, 0x01C, 0x040, 0x07C, 0x100, 0x1C4, 0x200, 0x2EC, 0x1000, 0x1FFC],
        off % 4 = 0 ∧ hiddenOffset Config.defaults off)
    ∧ HostNext (running 0x10 [.host (.write 32 0x1FFC 1)]) (.write 32 0x1FFC 1) []
    ∧ HostNext (running 0x10 [.host (.write 32 0x00C 2)]) (.write 32 0x00C 2) []
    ∧ HostNext (running 0x10 [.host (.write 32 0x008 2)]) (.write 32 0x008 2) []
    ∧ (2 : Word).getLsbD 1 = true ∧ (1 : Word).getLsbD 1 = false
    ∧ HostNext (running 0x10 [.host (.read 32 0x200)]) (.read 32 0x200) []
    ∧ (running 0x10 [.host (.read 32 0x200)]).busy = true := by
  refine ⟨rfl, ?_, ?_, rfl, rfl, rfl, rfl, rfl, rfl, rfl⟩
  · unfold dataOffset
    decide
  · unfold hiddenOffset
    decide
/-- HostReadsReturnTheRegisters: an idle read, and the last word of every window. -/
theorem test_witness_host_read :
    HostNext (idle [.host (.read 32 0x2EC)]) (.read 32 0x2EC) [] ∧ (idle [.host (.read 32 0x2EC)]).busy = false
    ∧ 0x03C = 0x020 + 4 * (7 : Fin 8).val ∧ (3 < 4 ∧ 0x04C = 0x040 + 4 * 3) ∧ (49 < 50 ∧ 0x1C4 = 0x100 + 4 * 49)
    ∧ 0x1C4 = 0x104 + 8 * (24 : Fin 25).val ∧ (59 < 60 ∧ 0x2EC = 0x200 + 4 * 59)
    ∧ (4 * 1023 + 4 ≤ Config.defaults.spmBytes ∧ 0x1FFC = 0x1000 + 4 * 1023) :=
  ⟨rfl, rfl, by decide, by decide, by decide, by decide, by decide, by decide⟩
/-- StatusFieldsAndWriteOneToClear, CtrlRegisterFields, InterruptFollowsDone: the writes, running and idle. -/
theorem test_witness_control_writes :
    HostNext (idle [.host (.write 32 0x00C 2)]) (.write 32 0x00C 2) [] ∧ (2 : Word).getLsbD 1 = true
    ∧ HostNext (idle [.host (.write 32 0x008 1)]) (.write 32 0x008 1) [] ∧ (1 : Word).getLsbD 1 = false
    ∧ HostNext (idle [.host (.write 32 0x008 3)]) (.write 32 0x008 3) [] ∧ (3 : Word).getLsbD 1 = true
    ∧ HostNext (idle [.host (.write 32 0x008 0)]) (.write 32 0x008 0) [] ∧ (0 : Word).getLsbD 0 = false
    ∧ HostNext (idle [.host (.write 32 0x010 0)]) (.write 32 0x010 0) [] ∧ (idle []).busy = false
    ∧ HostNext (running 0 [.host (.write 32 0x010 0)]) (.write 32 0x010 0) [] ∧ (running 0 []).busy = true
    ∧ exec .nop State.reset = .next (after (exec .nop State.reset)) :=
  ⟨rfl, rfl, rfl, rfl, rfl, rfl, rfl, rfl, rfl, rfl, rfl, rfl, rfl⟩
/-- HostWriteThenReadBack, HostWriteFrame: the two accesses at the last words of the windows. -/
theorem test_witness_write_read :
    (∀ off ∈ [0x020, 0x03C, 0x04C, 0x05C, 0x06C, 0x07C, 0x1C4, 0x1FFC],
      Config.defaults.wellFormed = true ∧ (idle [.host (.write 32 off 7), .host (.read 32 off)]).busy = false
      ∧ off % 4 = 0 ∧ dataOffset (idle [.host (.write 32 off 7), .host (.read 32 off)]).params off
      ∧ (idle [.host (.write 32 off 7), .host (.read 32 off)]).agenda = [.host (.write 32 off 7), .host (.read 32 off)])
    ∧ HostNext (idle [.host (.write 32 0x1FFC 7)]) (.write 32 0x1FFC 7) [] := by
  refine ⟨?_, rfl⟩
  unfold dataOffset
  decide
/-- SoftResetCancelsAndResets: no command, an illegal word, a command with one output region (KHASH to 0x100) and one with
two that overlap (GCM_ENC to 0x60 and 0x6F), and an engine turn that follows. -/
theorem test_witness_soft_reset :
    HostNext (running 0x15 [.host (.write 32 0x008 2), .engine]) (.write 32 0x008 2) (.engine :: []) ∧ (2 : Word).getLsbD 1 = true
    ∧ (idle [.host (.write 32 0x008 2)]).busy = false
    ∧ decode (running 0x57 [.host (.write 32 0x008 2)]).cmd = .error .unlistedOpcode
    ∧ (running 0x15 []).busy = true ∧ decode (running 0x15 []).cmd = .ok .khash
    ∧ (let s := { withMem [0, 3, 0x100] [] with cmd := 0x15, busy := true, agenda := [.host (.write 32 0x008 2)] }
       s.busy = true ∧ decode s.cmd = .ok .khash ∧ HostNext s (.write 32 0x008 2) []
       ∧ outputRegions .khash s = [⟨0x100, 32⟩] ∧ 31 < 32 ∧ 0x100 + 31 < s.params.spmBytes)
    ∧ (let s := { withMem [0x10, 12, 0x30, 0, 0x20, 16, 0x60, 0x6F] [] with
         cmd := 0x34, busy := true, agenda := [.host (.write 32 0x008 2)] }
       s.busy = true ∧ decode s.cmd = .ok .gcmEnc ∧ HostNext s (.write 32 0x008 2) []
       ∧ outputRegions .gcmEnc s = [⟨0x60, 16⟩, ⟨0x6F, 16⟩]
       ∧ (14 < 16 ∧ 0x60 + 14 < s.params.spmBytes ∧ (⟨0x6F, 16⟩ : Region).covers (0x60 + 14) = false)
       ∧ 15 < 16 ∧ 0x6F + 15 < s.params.spmBytes) :=
  ⟨rfl, rfl, rfl, rfl, rfl, rfl, ⟨rfl, rfl, rfl, by decide, by decide, by decide⟩,
    ⟨rfl, rfl, rfl, by decide, by decide, by decide, by decide⟩⟩
/-- PowerOnResetsEverything. -/
theorem test_witness_power_on : (running 0x15 [.powerOn, .engine]).agenda = .powerOn :: [.engine] := rfl
/-- RacesResolveByOrder: a running KINIT and each of the five agendas, ARG0 and ARG7. -/
theorem test_witness_races :
    (∀ l ∈ [[Turn.host (.write 32 0x00C 6), .engine], [.host (.write 32 0x010 0x15), .engine], [.host (.write 32 0x020 5), .engine],
        [.engine, .host (.write 32 0x03C 5)], [.host (.write 32 0x008 2), .engine]],
      (running 0x10 l).busy = true ∧ (running 0x10 l).agenda = l)
    ∧ decode (running 0x10 []).cmd = .ok .kinit
    ∧ exec .kinit { running 0x10 [.engine] with agenda := [] } = .next (after (exec .kinit (running 0x10 []))) :=
  ⟨by decide, rfl, rfl⟩
/-- PointFormulas: the three cases of the group law on points: opposite, equal, and of unequal x. -/
theorem test_witness_group_cases :
    (let o : Point := ⟨curveG.x, curveP - curveG.y⟩
     curveG.x = o.x ∧ (curveG.y + o.y) % curveP = 0)
    ∧ (curveG.x = curveG.x ∧ (curveG.y + curveG.y) % curveP ≠ 0) ∧ curveG.x ≠ twoG.x := by decide
/-- KeccakStepMappings, AesRoundFunctions, PaddingOfTheLastBlock, KeyScheduleRecurrence, DeriveJ0Cases: operands in range. -/
theorem test_witness_function_operands :
    (4 < 5) ∧ (3 < 4) ∧ (zeros 135).length < 136 ∧ ([] : List Byte).length < 136 ∧ 135 < 136
    ∧ (zeros 16).length = 16 ∧ (zeros 24).length = 24 ∧ (zeros 32).length = 32
    ∧ (0 < 32 / 4 ∧ 32 / 4 ≤ 59 ∧ 59 < 4 * (32 / 4 + 7)) ∧ (zeros 12).length = 12 ∧ (zeros 13).length ≠ 12 := by simp [zeros]
/-- The results of the commands with no value check: every check passes at the ends of the legal lengths. -/
theorem test_witness_ready_keccak :
    Ready .kabsorb (withMem [16, 30] []) ∧ (Ready .kabsorb (withMem [4096, 0] []) ∧ (withMem [4096, 0] []).arg 1 = 0)
    ∧ Ready .kfinal (withMem [0, 135] []) ∧ Ready .kfinal (withMem [4096, 0] []) ∧ Ready .ksqueeze (withMem [0, 136] [])
    ∧ Ready .khash (withMem [0, 4096, 4064] []) := by decide
theorem test_witness_ready_aes :
    Ready .aesKeyexp (withMem [0, 16] []) ∧ Ready .aesKeyexp (withMem [0, 24] []) ∧ Ready .aesKeyexp (withMem [4064, 32] [])
    ∧ Ready .aesEnc { withMem [0, 4080] [] with aesnr := 10 } ∧ Ready .ctrXor { withMem [0, 4096, 0] [] with aesnr := 14 }
    ∧ Ready .ghSeth { State.reset with aesnr := 10 } ∧ Ready .ghUpdate (withMem [0, 256] [])
    ∧ Ready .gcmJ0 { withMem [0, 12] [] with aesnr := 10 } ∧ Ready .gfMul (withMem [0, 16, 4080] [])
    ∧ Ready .gcmEnc { withMem [0, 12, 16, 20, 36, 60, 100, 160] [] with aesnr := 10 } := by decide
/-- GcmDecResult: the tag computed (V-G7) and another. -/
theorem test_witness_gcm_dec :
    (let s := keyed [0x10, 12, 0x30, 0, 0x40, 16, 0x60, 0x50]
      [(0x40, beBytes 16 0x0388DACE60B6A392F328C2B971B2FE78), (0x50, beBytes 16 0xAB6E47D42CEC13BDF53A67B21257BDDF)]
     Ready .gcmDec s
     ∧ s.memRead (s.arg 7) 16 = blockBytes (gcmTag (aesEncrypt s.rk s.aesnr.toNat) s.params.ghashPad (s.memRead (s.arg 2) (s.arg 3))
         (s.memRead (s.arg 4) (s.arg 5)) (deriveJ0 (aesEncrypt s.rk s.aesnr.toNat) (s.memRead (s.arg 0) (s.arg 1)))))
    ∧ (let s := keyed [0x10, 12, 0x30, 0, 0x40, 16, 0x60, 0x50] []
       Ready .gcmDec s
       ∧ s.memRead (s.arg 7) 16 ≠ blockBytes (gcmTag (aesEncrypt s.rk s.aesnr.toNat) s.params.ghashPad
           (s.memRead (s.arg 2) (s.arg 3)) (s.memRead (s.arg 4) (s.arg 5))
           (deriveJ0 (aesEncrypt s.rk s.aesnr.toNat) (s.memRead (s.arg 0) (s.arg 1))))) := by decide +kernel
/-- StreamingHashEqualsKhash, CtrXorIsItsOwnInverse, GcmDecryptsItsEncryption, PermitDigestIsItsSteps: places for the
operands, filling the scratchpad where they can. -/
theorem test_witness_places :
    (Config.defaults.wellFormed = true ∧ ({ State.reset with aesnr := 12 } : State).keyValid = true)
    ∧ (0 + 4096 ≤ 4096 ∧ 4064 + 32 ≤ 4096)
    ∧ (0 + 12 ≤ 4096 ∧ 16 + 20 ≤ 4096 ∧ 64 + 1000 ≤ 4096 ∧ 2000 + 1000 ≤ 4096 ∧ 4080 + 16 ≤ 4096 ∧ 64 + 1000 ≤ 4096
      ∧ Region.disjoint ⟨2000, 1000⟩ ⟨0, 12⟩ ∧ Region.disjoint ⟨2000, 1000⟩ ⟨16, 20⟩ ∧ Region.disjoint ⟨4080, 16⟩ ⟨0, 12⟩
      ∧ Region.disjoint ⟨4080, 16⟩ ⟨16, 20⟩ ∧ Region.disjoint ⟨4080, 16⟩ ⟨2000, 1000⟩)
    ∧ (0 + 232 ≤ 4096 ∧ 232 + 7 ≤ 4096 ∧ 240 + 52 * 2 ≤ 4096 ∧ 400 + 32 ≤ 4096 ∧ 432 + 32 ≤ 4096 ∧ 4064 + 32 ≤ 4096
      ∧ Region.disjoint ⟨400, 32⟩ ⟨0, 232⟩ ∧ Region.disjoint ⟨400, 32⟩ ⟨240, 52 * 2⟩ ∧ Region.disjoint ⟨400, 32⟩ ⟨432, 32⟩) := by
  unfold Region.disjoint
  decide
/-- EcFinvResult, EcPaddEcPdblResults, EcSmulResult, EcOncurveResult: on-curve operands; x = 1, x = p - 1, k = 1. -/
theorem test_witness_ec_results :
    (let s := withMem [0, 0x40] [(0, beBytes 32 1)]
     Ready .ecFinv s ∧ 0 < s.scalarAt (s.arg 0) ∧ s.scalarAt (s.arg 0) < curveP)
    ∧ (let s := withMem [0, 0x40] [(0, beBytes 32 (curveP - 1))]
       Ready .ecFinv s ∧ 0 < s.scalarAt (s.arg 0) ∧ s.scalarAt (s.arg 0) < curveP)
    ∧ (let s := withMem [0, 0x40, 0x80] [(0, pointBytes curveG), (0x40, pointBytes twoG)]
       Ready .ecPadd s ∧ Ready .ecPdbl s ∧ Ready .ecOncurve s ∧ (s.pointAt (s.arg 0)).inRange = true
       ∧ (s.pointAt (s.arg 1)).inRange = true ∧ (s.pointAt (s.arg 0)).onCurve = true ∧ (s.pointAt (s.arg 1)).onCurve = true
       ∧ (s.pointAt (s.arg 0)).x ≠ (s.pointAt (s.arg 1)).x ∧ (s.pointAt (s.arg 0)).y ≠ 0
       ∧ (s.pointAt (s.arg 0)).x < curveP ∧ (s.pointAt (s.arg 0)).y < curveP)
    ∧ (let s := withMem [0, 0x40, 0x80] [(0, beBytes 32 1), (0x40, pointBytes curveG)]
       Ready .ecSmul s ∧ s.scalarAt (s.arg 0) = 1 ∧ (s.pointAt (s.arg 1)).inRange = true ∧ (s.pointAt (s.arg 1)).onCurve = true
       ∧ scalarMul (s.scalarAt (s.arg 0)) (some (s.pointAt (s.arg 1))) = some curveG) := by decide +kernel
/-- EcValueChecksInOrder: every clause, with p and n themselves as the out-of-range values. -/
theorem test_witness_ec_checks :
    (Ready .ecFinv (withMem [0, 0x40] [(0, beBytes 32 curveP)])
      ∧ curveP ≤ (withMem [0, 0x40] [(0, beBytes 32 curveP)]).scalarAt 0 ∧ (withMem [0, 0x40] []).scalarAt 0 = 0)
    ∧ (let s := withMem [0, 0x40, 0x80] [(0, beBytes 32 curveP), (0x40, pointBytes curveG)]
       Ready .ecPadd s ∧ Ready .ecPdbl s ∧ Ready .ecOncurve s ∧ Ready .ecSmul s ∧ (s.pointAt (s.arg 0)).inRange = false)
    ∧ (let s := withMem [0, 0x40, 0x80] [(0, pointBytes curveG)]
       Ready .ecPadd s ∧ (s.pointAt 0).inRange = true ∧ (s.pointAt 0x40).inRange = true ∧ (s.pointAt 0x40).onCurve = false)
    ∧ (let s := withMem [0, 0, 0x80] [(0, pointBytes curveG)]
       Ready .ecPadd s ∧ (s.pointAt 0).inRange = true ∧ (s.pointAt 0).onCurve = true)
    ∧ (let s := withMem [0x40, 0, 0x80] [(0x40, beBytes 32 curveN), (0, pointBytes curveG)]
       Ready .ecSmul s ∧ curveN ≤ s.scalarAt (s.arg 0))
    ∧ (let s := withMem [0x40, 0, 0x80] []
       Ready .ecSmul s ∧ s.scalarAt (s.arg 0) < curveN ∧ (s.pointAt (s.arg 1)).inRange = true ∧ (s.pointAt (s.arg 1)).onCurve = false)
    ∧ (let s := withMem [0x40, 0, 0x80] [(0, pointBytes curveG)]
       Ready .ecSmul s ∧ s.scalarAt (s.arg 0) = 0 ∧ (s.pointAt (s.arg 1)).inRange = true ∧ (s.pointAt (s.arg 1)).onCurve = true) := by
  decide +kernel
/-- EcdsaRecoverEcAddrResults: with digest 0 and r = s = the x of G, the key recovered is G; with a zero signature
recovery fails. -/
theorem test_witness_recover :
    (let s := withMem [0, 0x20, 0x80] [(0x20, beBytes 32 curveG.x ++ beBytes 32 curveG.x ++ [0x1B])]
     Ready .ecdsaRecover s ∧ recover (be (s.memRead (s.arg 0) 32))
       ⟨be (s.memRead (s.arg 1) 32), be (s.memRead (s.arg 1 + 32) 32), (s.readByte (s.arg 1 + 64)).toNat⟩ = some curveG)
    ∧ (let s := withMem [0, 0x20, 0x80] []
       Ready .ecdsaRecover s ∧ recover (be (s.memRead (s.arg 0) 32))
         ⟨be (s.memRead (s.arg 1) 32), be (s.memRead (s.arg 1 + 32) 32), (s.readByte (s.arg 1 + 64)).toNat⟩ = none)
    ∧ Ready .ecAddr (withMem [0, 0x40] []) := by decide +kernel
/-- RecoveryFailuresAndIds: a v outside the ids, each end of r and s, and r = 5 (V-S3). -/
theorem test_witness_recovery_failures :
    ((2 ≠ 0 ∧ 2 ≠ 1 ∧ 2 ≠ 27 ∧ 2 ≠ 28) ∧ (0 = 0 ∨ curveN ≤ 0) ∧ curveN ≤ curveN)
    ∧ (((5 ^ 3 + 7) % curveP) ^ 1 % curveP = 132 ∧ fieldSqrt 132 ^ 2 % curveP ≠ 132) := by decide +kernel
/-- The square root as the power R259 writes. -/
theorem sqrt_power (a : Nat) : a ^ ((curveP + 1) / 4) % curveP = fieldSqrt a := (powMod_eq _ _ _ (by decide)).symm
/-- RecoveryFailuresAndIds: the clause of the answer, for all four ids, r = s = 1 and r the x of G. -/
theorem test_witness_recovery_answers :
    (∀ v ∈ [(0, 0), (1, 1), (27, 0), (28, 1)], (v.1 = v.2 ∨ v.1 = 27 + v.2) ∧ v.2 < 2)
    ∧ ∀ r ∈ [1, curveG.x], 1 ≤ r ∧ r ≤ curveN - 1
      ∧ (((r ^ 3 + 7) % curveP) ^ ((curveP + 1) / 4) % curveP) ^ 2 % curveP = (r ^ 3 + 7) % curveP := by
  refine ⟨by decide, ?_⟩
  simp only [sqrt_power]
  decide +kernel
/-- RecoveryFailuresAndIds: R = G answers G, and R = -G with u1 = u2 = 1 sums to O, so that recovery fails
(90_conflicts.md C4). -/
theorem test_recover_sum_is_infinity :
    recover 0 ⟨curveG.x, curveG.x, 27⟩ = some curveG
    ∧ recover (curveN - curveG.x) ⟨curveG.x, curveG.x, 28⟩ = none
    ∧ groupAdd (some curveG) (some ⟨curveG.x, curveP - curveG.y⟩) = none := by decide +kernel
/-- The encoder and the permits: every check passes, with the most and the fewest bytes. -/
theorem test_witness_ready_permit :
    Ready .encWord (withMem [0, 32, 4064] []) ∧ Ready .encWord (withMem [4096, 0, 0] [])
    ∧ Ready .eip712Digest (withMem [0, 32, 64] []) ∧ Ready .permitDomain (withMem [0, 232, 7, 0x200] [])
    ∧ Ready .permitToken (withMem [0, 240, 0x200] []) ∧ Ready .permitBatch (withMem [0, 240, 2, 0x200] [])
    ∧ Ready .permitBatch (withMem [0, 4096, 0, 0x200] []) ∧ Ready .permitDigest (withMem [0, 232, 7, 240, 2, 0x200] [])
    ∧ Ready .permitVerify (withMem [0, 232, 7, 240, 2, 0x200, 0x260] []) := by decide
/-- LengthThenBoundsThenKey: each clause, for a length one too large, a region one byte too long, and no key. -/
theorem test_witness_check_order :
    lengthsLegal .kfinal (withMem [0, 136] []) = false ∧ lengthsLegal .ksqueeze (withMem [0, 137] []) = false
    ∧ lengthsLegal .aesKeyexp (withMem [0, 20] []) = false ∧ lengthsLegal .encWord (withMem [0, 33, 0] []) = false
    ∧ lengthsLegal .khash (withMem [0, 1, 4065] []) = true
    ∧ (∃ r ∈ operandRegions .khash (withMem [0, 1, 4065] []), (withMem [0, 1, 4065] []).params.spmBytes < r.off + r.len)
    ∧ (∀ r ∈ operandRegions .aesEnc (withMem [0, 4080] []), r.off + r.len ≤ (withMem [0, 4080] []).params.spmBytes)
    ∧ needsKey .aesEnc = true ∧ (withMem [0, 4080] []).aesnr = 0 := by decide
/-- ErrorCodesByCommand, ErrorsWriteNothing, CommandFrame, UnnamedArgumentsIgnored: a completion with each code. -/
theorem test_witness_codes :
    (after (exec .kfinal (withMem [0, 136] []))).errcode = .invalidLength
    ∧ (after (exec .kfinal (withMem [4096, 1] []))).errcode = .outOfBounds
    ∧ (after (exec .aesEnc (withMem [0, 0] []))).errcode = .noKey
    ∧ (after (exec .ecFinv (withMem [0, 0] [(0, beBytes 32 curveP)]))).errcode = .invalidRange
    ∧ (after (exec .ecPdbl (withMem [0, 0] []))).errcode = .pointNotOnCurve
    ∧ (after (exec .ecFinv (withMem [0, 0] []))).errcode = .degenerate
    ∧ (after (exec .ecdsaRecover (withMem [0, 0x20, 0x80] []))).errcode = .recoveryFailure
    ∧ (after (exec .gcmDec (keyed [0x10, 12, 0x30, 0, 0x40, 16, 0x60, 0x50] []))).errcode = .authFailure
    ∧ (after (runCommand (running 0x57 []))).errcode = .illegalCmd
    ∧ exec .nop State.reset = .next (after (exec .nop State.reset))
    ∧ (∀ k : Fin 8, k.val < argCount .kfinal → (withMem [0, 1, 9] []).args[k] = (withMem [0, 1] []).args[k]) :=
  ⟨by decide +kernel, by decide +kernel, by decide +kernel, by decide +kernel, by decide +kernel, by decide +kernel,
    by decide +kernel, by decide +kernel, by decide, rfl, by decide⟩
/-- StepKeepsInvariant: a state with the invariant that takes a step, a key held and a byte listed. -/
theorem test_witness_invariant :
    ∃ s t : State, s.Inv ∧ s.spm ≠ [] ∧ s.aesnr = 10 ∧ step s = .next t := by
  refine ⟨{ State.reset with aesnr := 10, spm := [(4095, 1)] }, _, ⟨rfl, rfl, by decide, by decide, ?_, by decide, ?_, ?_⟩,
    by decide, rfl, rfl⟩
  · intro i _
    simp [State.reset]
  · intro h
    exact absurd h (by decide)
  · intro h
    exact absurd h (by decide)

/-! PermitVerifyResult. Its digest is six permutations deep, so the witness leaves it alone: for every digest, one of two
signatures with r the x of G (u2 = 1 and u2 = 2, so that R adds G or 2G) recovers a key. -/

/-- The sum with G or the sum with 2G is a point. -/
theorem groupAdd_one_of_two (X : GroupPoint) :
    (∃ Q, groupAdd X (some curveG) = some Q) ∨ ∃ Q, groupAdd X (some twoG) = some Q := by
  cases X with
  | none => exact .inl ⟨_, rfl⟩
  | some a =>
    simp only [groupAdd]
    by_cases h : a.x = curveG.x
    · have h2 : a.x ≠ twoG.x := by
        rw [h]
        decide
      simp [h2]
    · simp [h]

/-- What recovery answers for the two signatures. -/
theorem recover_one_of_two (e : Nat) :
    (∃ Q, recover e ⟨curveG.x, curveG.x, 27⟩ = some Q) ∨ ∃ Q, recover e ⟨curveG.x, 2 * curveG.x, 27⟩ = some Q := by
  have hp : parityOf 27 = some 0 := rfl
  have hr1 : ¬¬(1 ≤ curveG.x ∧ curveG.x ≤ curveN - 1 ∧ 1 ≤ curveG.x ∧ curveG.x ≤ curveN - 1) := by decide
  have hr2 : ¬¬(1 ≤ curveG.x ∧ curveG.x ≤ curveN - 1 ∧ 1 ≤ 2 * curveG.x ∧ 2 * curveG.x ≤ curveN - 1) := by decide
  have hl : liftX curveG.x 0 = some curveG := by decide +kernel
  have h1 : scalarMul (curveG.x * powMod curveN curveG.x (curveN - 2) % curveN) (some curveG) = some curveG := by
    decide +kernel
  have h2 : scalarMul (2 * curveG.x * powMod curveN curveG.x (curveN - 2) % curveN) (some curveG) = some twoG := by
    decide +kernel
  simp only [recover, hp, if_neg hr1, if_neg hr2, hl, h1, h2]
  exact groupAdd_one_of_two _

/-- The state of PermitVerifyResult's witness: zero operands, the signature at 0x200. -/
def signed (sig : List Byte) : State := withMem [0, 232, 7, 240, 2, 0x200, 0x260] [(0x200, sig)]

/-- The digest PERMIT_VERIFY computes in a state. -/
def digestOf (s : State) : Nat :=
  be (keccak256 (s.permitPreimage (s.arg 0) (s.arg 1) (s.arg 2) (s.arg 3) (s.arg 4)))

/-- The signature PERMIT_VERIFY reads in a state. -/
def signatureOf (s : State) : Signature :=
  ⟨be (s.memRead (s.arg 5) 32), be (s.memRead (s.arg 5 + 32) 32), (s.readByte (s.arg 5 + 64)).toNat⟩

/-- The digest does not depend on the signature. -/
theorem digestOf_signed (sig : List Byte) : digestOf (signed sig) = digestOf (signed []) := by
  have h (g : List Byte) : digestOf (signed g) = be (keccak256 ((signed g).permitPreimage 0 232 7 240 2)) := rfl
  have r (g : List Byte) (o n : Nat) (ho : o + n ≤ 0x200) :
      (signed g).memRead o n = (State.reset.withArgs [0, 232, 7, 240, 2, 0x200, 0x260]).memRead o n :=
    State.memRead_memWrite_other _ _ _ _ _ (.inl ho)
  have two : List.range 2 = [0, 1] := rfl
  rw [h, h]
  simp (disch := decide) only [State.permitPreimage, State.domainPreimage, State.batchPreimage,
    State.permissionsPreimage, State.tokenPreimage, two, List.flatMap_cons, List.flatMap_nil, r]

/-- PermitVerifyResult: a state whose signature recovers (one of two), and one whose signature fails. -/
theorem test_witness_permit_verify :
    (∃ s : State, Ready .permitVerify s ∧ ∃ Q, recover (digestOf s) (signatureOf s) = some Q)
    ∧ Ready .permitVerify (signed []) ∧ recover (digestOf (signed [])) (signatureOf (signed [])) = none := by
  have g1 : signatureOf (signed (beBytes 32 curveG.x ++ beBytes 32 curveG.x ++ [27])) = ⟨curveG.x, curveG.x, 27⟩ := by
    decide +kernel
  have g2 : signatureOf (signed (beBytes 32 curveG.x ++ beBytes 32 (2 * curveG.x) ++ [27]))
      = ⟨curveG.x, 2 * curveG.x, 27⟩ := by decide +kernel
  have g0 : signatureOf (signed []) = ⟨0, 0, 0⟩ := by decide +kernel
  refine ⟨?_, by decide, ?_⟩
  · rcases recover_one_of_two (digestOf (signed [])) with ⟨Q, hQ⟩ | ⟨Q, hQ⟩
    · exact ⟨signed (beBytes 32 curveG.x ++ beBytes 32 curveG.x ++ [27]), ⟨rfl, by rfl, nofun⟩, Q, by
        rw [g1, digestOf_signed, hQ]⟩
    · exact ⟨signed (beBytes 32 curveG.x ++ beBytes 32 (2 * curveG.x) ++ [27]), ⟨rfl, by rfl, nofun⟩, Q, by
        rw [g2, digestOf_signed, hQ]⟩
  · rw [g0]
    rfl

end Sys2Proof.Tests
end

section
/-! SUPPORT and the settlement of O59: every step keeps the invariant of Safety.lean. The invariant is cut into what a
command's writes can break (`State.DataInv`) and what acceptance and completion set (`State.StatusInv`). Both are stated
on the fields they read, so that an update of any other field leaves them as they are by definition. -/

namespace Sys2Proof.Machine

/-! ### The parts of the invariant -/

/-- The scratchpad is canonical and lists no address from SPM_BYTES on (20_memory.md R80). -/
structure MemoryFits (p : Params) (m : Memory) : Prop where
  canonical : m.wf = true
  inside : ∀ c ∈ m, c.1 < p.spmBytes

/-- AESNR is one of its values and the words of RK beyond the held key are 0 (10_state.md R38). -/
structure KeyFits (nr : Word) (rk : Vector Word 60) : Prop where
  rounds : nr = 0 ∨ nr = 10 ∨ nr = 12 ∨ nr = 14
  beyond : ∀ i : Fin 60, (nr = 0 ∨ 4 * (nr.toNat + 1) ≤ i.val) → rk[i] = 0

/-- The part of the invariant that the writes of a command could break. -/
structure DataFits (p : Params) (m : Memory) (nr : Word) (rk : Vector Word 60) (result : Word) : Prop where
  params : p.wellFormed = true
  memory : MemoryFits p m
  key : KeyFits nr rk
  boolean : result = 0 ∨ result = 1

/-- The part of the invariant about the STATUS fields (60_exceptions.md R359, R360). -/
structure StatusFits (busy done err : Bool) (code : ErrorCode) : Prop where
  running : busy = true → done = false ∧ err = false ∧ code = .ok
  errors : err = true → code ≠ .ok

abbrev State.DataInv (s : State) : Prop := DataFits s.params s.spm s.aesnr s.rk s.result

abbrev State.StatusInv (s : State) : Prop := StatusFits s.busy s.done s.err s.errcode

theorem State.Inv.data {s : State} (hs : s.Inv) : s.DataInv where
  params := hs.params
  memory := ⟨hs.canonical, hs.inside⟩
  key := ⟨hs.keyRounds, hs.roundKeys⟩
  boolean := hs.boolean

theorem State.Inv.status {s : State} (hs : s.Inv) : s.StatusInv := ⟨hs.running, hs.errors⟩

theorem State.Inv.of_parts {s : State} (hd : s.DataInv) (hst : s.StatusInv) : s.Inv where
  params := hd.params
  canonical := hd.memory.canonical
  inside := hd.memory.inside
  keyRounds := hd.key.rounds
  roundKeys := hd.key.beyond
  boolean := hd.boolean
  running := hst.running
  errors := hst.errors

/-! ### The state's operations -/

/-- `MemWrite` to a region in bounds (20_memory.md R82, R83). -/
theorem State.DataInv.memWrite {s : State} (hd : s.DataInv) {off n : Nat} {bs : List Byte} (hn : bs.length = n)
    (hb : off + n ≤ s.params.spmBytes) : (s.memWrite off bs).DataInv where
  params := hd.params
  memory :=
    { canonical := Memory.wf_writeBytes off bs hd.memory.canonical
      inside := Memory.below_writeBytes (hn.symm ▸ hb) hd.memory.inside }
  key := hd.key
  boolean := hd.boolean

theorem State.DataInv.withKey {s : State} (hd : s.DataInv) {nr : Word} {rk : Vector Word 60} (hk : KeyFits nr rk) :
    State.DataInv { s with rk := rk, aesnr := nr } :=
  ⟨hd.params, hd.memory, hk, hd.boolean⟩

theorem State.DataInv.withBoolean {s : State} (hd : s.DataInv) (b : Bool) :
    State.DataInv { s with result := if b then 1 else 0 } :=
  ⟨hd.params, hd.memory, hd.key, by cases b <;> simp⟩

theorem State.accept_inv {s : State} (hs : s.Inv) (v : Word) : (s.accept v).Inv :=
  .of_parts hs.data ⟨fun _ => ⟨rfl, rfl, rfl⟩, nofun⟩

theorem State.complete_inv {s : State} (hd : s.DataInv) (e : ErrorCode) : (s.complete e).Inv :=
  .of_parts hd ⟨nofun, of_decide_eq_true⟩

theorem State.popAgenda_inv {s : State} (hs : s.Inv) : s.popAgenda.Inv := .of_parts hs.data hs.status

/-- Clearing DONE and ERR can only bring STATUS nearer to what BUSY asks for (10_state.md R34). -/
theorem State.writeStatus_inv {s : State} (hs : s.Inv) (v : Word) : (s.writeStatus v).Inv := by
  refine .of_parts hs.data ⟨fun hb => ?_, fun he => ?_⟩
  · obtain ⟨hdone, herr, hcode⟩ := hs.running hb
    simp [hdone, herr, hcode]
  · rw [State.writeStatus_err, Bool.and_eq_true] at he
    exact hs.errors he.1

/-- Both resets draw bytes of the scratchpad and then reset the registers (70_reset_and_hazards.md R390, R392). -/
theorem State.drawRegions_resetRegisters_inv {s : State} (hs : s.Inv) (rs : List Region) :
    (rs.foldl State.drawRegion s).resetRegisters.Inv := by
  have hp : (rs.foldl State.drawRegion s).params = s.params := by rw [State.drawRegions_eq]
  obtain ⟨hwf, hin⟩ := State.drawRegions_fit rs hs.canonical hs.inside
  have hzero : ∀ i : Fin 60, (Vector.replicate 60 (0 : Word))[i] = 0 := by simp
  refine .of_parts ⟨?_, ⟨hwf, ?_⟩, ⟨.inl rfl, fun i _ => hzero i⟩, .inl rfl⟩ ⟨nofun, nofun⟩
  · rw [State.resetRegisters_params, hp]
    exact hs.params
  · rw [State.resetRegisters_params, hp]
    exact hin

theorem State.softReset_inv {s : State} (hs : s.Inv) : s.softReset.Inv :=
  State.drawRegions_resetRegisters_inv hs s.runningOutputs

theorem State.powerOn_inv {s : State} (hs : s.Inv) : s.powerOn.Inv :=
  State.drawRegions_resetRegisters_inv hs [⟨0, s.params.spmBytes⟩]

theorem State.writeCtrl_inv {s : State} (hs : s.Inv) (v : Word) : (s.writeCtrl v).Inv := by
  unfold State.writeCtrl
  split
  · exact State.softReset_inv hs
  · exact .of_parts hs.data hs.status

/-! ### The host bus -/

/-- A write to any target, the words of the scratchpad being those the register map has (20_memory.md R84 to R86). -/
theorem State.writeTarget_inv {s : State} (hs : s.Inv) {t : Target} (v : Word)
    (ht : ∀ j, t = .spm j → j + 4 ≤ s.params.spmBytes) : (s.writeTarget t v).Inv := by
  cases t with
  | ctrl => exact State.writeCtrl_inv hs v
  | status => exact State.writeStatus_inv hs v
  | cmd => exact State.accept_inv hs v
  | spm j => exact .of_parts (hs.data.memWrite (leBytes_length 4 v.toNat) (ht j rfl)) hs.status
  | arg _ | cb _ | h _ | y _ | j0 _ | kstate _ => exact .of_parts hs.data hs.status
  | id | version | result | spmsize | aesnr | rk _ | unmapped => exact hs

theorem State.hostWrite_inv {s : State} (hs : s.Inv) {t : Target} (v : Word)
    (ht : ∀ j, t = .spm j → j + 4 ≤ s.params.spmBytes) : (s.hostWrite t v).Inv := by
  unfold State.hostWrite
  split
  · exact .of_parts hs.data hs.status
  · exact State.writeTarget_inv hs v ht

theorem State.blockAccess_inv {s : State} (hs : s.Inv) (a : Access) : (s.blockAccess a).Inv := by
  cases a with
  | read width off =>
    rw [State.blockAccess_read]
    exact .of_parts hs.data hs.status
  | write width off v =>
    simp only [State.blockAccess]
    split
    · exact State.hostWrite_inv hs v fun _ => locate_spm_bound
    · exact hs

theorem State.hostAccess_inv {s : State} (hs : s.Inv) (a : Access) : (s.hostAccess a).Inv := by
  rcases s.hostAccess_cases a with h | ⟨b, h⟩ <;> rw [h]
  · exact hs
  · exact State.blockAccess_inv hs b

/-! ### The rules of the commands

A rule is checks and then its writes. `LeavesData` says that the writes, where the checks let them be reached, keep the
data part of the invariant. One lemma for each kind of check takes a rule apart. -/

/-- If the rule succeeds, the state it has written has the data part of the invariant. -/
def LeavesData (r : Except ErrorCode State) : Prop := ∀ u, r = .ok u → u.DataInv

theorem LeavesData.pure {u : State} (hu : u.DataInv) : LeavesData (pure u) := by
  rintro _ ⟨⟩
  exact hu

theorem LeavesData.error (e : ErrorCode) : LeavesData (.error e) := by
  intro u h
  cases h

theorem LeavesData.require {c : Bool} {e : ErrorCode} {k : Unit → Except ErrorCode State}
    (hk : c = true → LeavesData (k ())) : LeavesData (require c e >>= k) := by
  cases c with
  | false => exact .error e
  | true => exact hk rfl

theorem LeavesData.requireKey {s : State} {k : Unit → Except ErrorCode State} (hk : LeavesData (k ())) :
    LeavesData (requireKey s >>= k) :=
  .require fun _ => hk

theorem LeavesData.requireRegions {s : State} {rs : List Region} {k : Unit → Except ErrorCode State}
    (hk : (∀ r ∈ rs, r.off + r.len ≤ s.params.spmBytes) → LeavesData (k ())) :
    LeavesData (requireRegions s rs >>= k) :=
  .require fun hrs => hk fun r hr => (s.inBounds_iff r).mp (List.all_eq_true.mp hrs r hr)

theorem LeavesData.finitePoint {g : GroupPoint} {e : ErrorCode} {k : Point → Except ErrorCode State}
    (hk : ∀ p, LeavesData (k p)) : LeavesData (finitePoint g e >>= k) := by
  cases g with
  | none => exact .error e
  | some p => exact hk p

theorem LeavesData.verified {o : Option Bool} {k : Bool → Except ErrorCode State}
    (hk : ∀ b, LeavesData (k b)) : LeavesData (verified o >>= k) := by
  cases o with
  | none => exact .error .recoveryFailure
  | some b => exact hk b

/-- An engine step answers states with the invariant only. -/
def NextInv (r : Result) : Prop := ∀ t, r = .next t → t.Inv

theorem NextInv.next {t : State} (ht : t.Inv) : NextInv (.next t) := by
  rintro _ ⟨⟩
  exact ht

/-- Completion sets STATUS, so a rule has only the data part to keep (60_exceptions.md R356, R360). -/
theorem conclude_nextInv {s : State} (hs : s.Inv) {r : Except ErrorCode State} (hr : LeavesData r) :
    NextInv (conclude s r) := by
  intro t h
  rcases conclude_next h with ⟨u, hu, rfl⟩ | ⟨e, -, rfl⟩
  · exact State.complete_inv (hr u hu) .ok
  · exact State.complete_inv hs.data e

/-! ### AES_KEYEXP -/

/-- The number of rounds for each legal key length (41_aes.md R183). -/
theorem roundsOf_cases {klen : Nat} (h : klen = 16 ∨ klen = 24 ∨ klen = 32) :
    roundsOf klen = 10 ∨ roundsOf klen = 12 ∨ roundsOf klen = 14 := by
  rcases h with rfl | rfl | rfl <;> simp [roundsOf]

/-- What AES_KEYEXP leaves in AESNR and RK: the schedule has 4(Nr + 1) words, and zeros follow (41_aes.md R190). -/
theorem keyFits_keyExpansion {K : List Byte} (h : K.length = 16 ∨ K.length = 24 ∨ K.length = 32) :
    KeyFits (BitVec.ofNat 32 (roundsOf K.length)) (tabulate 60 fun i => (keyExpansion K).getD i 0) := by
  have hr := roundsOf_cases h
  have hlen := keyExpansion_length K h
  have hnat : (BitVec.ofNat 32 (roundsOf K.length)).toNat = roundsOf K.length := by
    rw [BitVec.toNat_ofNat]
    omega
  refine ⟨.inr ?_, fun i hi => ?_⟩
  · rcases hr with e | e | e <;> simp [e]
  · have hbeyond : (keyExpansion K).length ≤ i.val := by
      rcases hi with h0 | hi
      · have hzero : roundsOf K.length = 0 := by
          rw [← hnat, h0]
          rfl
        omega
      · rwa [hlen, ← hnat]
    simp [List.getD_eq_getElem?_getD, hbeyond]

/-! ### Lengths of the permit digests -/

@[simp] theorem domainDigest_length (B : PermitBlock) (name : List Byte) : (domainDigest B name).length = 32 :=
  keccak256_length _

@[simp] theorem tokenDigest_length (B : PermitBlock) (e : List Byte) : (tokenDigest B e).length = 32 :=
  keccak256_length _

@[simp] theorem batchDigest_length (B : PermitBlock) (E : List (List Byte)) : (batchDigest B E).length = 32 :=
  keccak256_length _

@[simp] theorem typedDigest_length (ds sh : List Byte) : (typedDigest ds sh).length = 32 := keccak256_length _

@[simp] theorem permitDigest_length (B : PermitBlock) (name : List Byte) (E : List (List Byte)) :
    (permitDigest B name E).length = 32 :=
  typedDigest_length _ _

/-! ### Every command -/

/-- One case a command: what its checks have established when its writes are reached. -/
theorem exec_nextInv {s : State} (hs : s.Inv) (i : Instr) : NextInv (exec i s) := by
  have hd := hs.data
  cases i with
  | nop => exact conclude_nextInv hs (.pure hd)
  | kinit => exact conclude_nextInv hs (.pure (u := { s with kstate := zeroLanes }) hd)
  | kpermute => exact conclude_nextInv hs (.pure (u := { s with kstate := keccakF s.kstate }) hd)
  | ctrInc => exact conclude_nextInv hs (.pure (u := { s with cb := inc32 s.cb }) hd)
  | ghSeth => exact conclude_nextInv hs (.requireKey (.pure hd))
  | kabsorb | ghUpdate => exact conclude_nextInv hs (.requireRegions fun _ => .pure hd)
  | kfinal => exact conclude_nextInv hs (.require fun _ => .requireRegions fun _ => .pure hd)
  | gcmJ0 => exact conclude_nextInv hs (.requireRegions fun _ => .requireKey (.pure hd))
  | aesKeyexp =>
    refine conclude_nextInv hs (.require fun hlen => .requireRegions fun _ => .pure ?_)
    have hK : (s.memRead (s.arg 0) (s.arg 1)).length = s.arg 1 := State.memRead_length ..
    have hkey := keyFits_keyExpansion (hK.symm ▸ of_decide_eq_true hlen)
    rw [hK] at hkey
    exact hd.withKey hkey
  | ecOncurve =>
    exact conclude_nextInv hs (.requireRegions fun _ => .require fun _ => .pure (hd.withBoolean _))
  | permitVerify =>
    exact conclude_nextInv hs (.requireRegions fun _ => .verified fun b => .pure (hd.withBoolean b))
  | ksqueeze =>
    refine conclude_nextInv hs (.require fun hlen => .requireRegions fun hb => .pure
      (hd.memWrite ?_ (hb ⟨s.arg 0, s.arg 1⟩ (by simp))))
    have hle : s.arg 1 ≤ 136 := of_decide_eq_true hlen
    exact (squeeze_length _ _).trans (Nat.min_eq_left (by omega))
  | encWord =>
    refine conclude_nextInv hs (.require fun hlen => .requireRegions fun hb => .pure
      (hd.memWrite (encodeWord_length _ ?_) (hb ⟨s.arg 2, 32⟩ (by simp))))
    simpa using hlen
  | khash | eip712Digest | permitToken =>
    exact conclude_nextInv hs (.requireRegions fun hb => .pure
      (hd.memWrite (by simp) (hb ⟨s.arg 2, 32⟩ (by simp))))
  | permitDomain | permitBatch =>
    exact conclude_nextInv hs (.requireRegions fun hb => .pure
      (hd.memWrite (by simp) (hb ⟨s.arg 3, 32⟩ (by simp))))
  | permitDigest =>
    exact conclude_nextInv hs (.requireRegions fun hb => .pure
      (hd.memWrite (by simp) (hb ⟨s.arg 5, 32⟩ (by simp))))
  | ecAddr =>
    exact conclude_nextInv hs (.requireRegions fun hb => .pure
      (hd.memWrite (by simp) (hb ⟨s.arg 1, 20⟩ (by simp))))
  | gfMul =>
    exact conclude_nextInv hs (.requireRegions fun hb => .pure
      (hd.memWrite (by simp) (hb ⟨s.arg 2, 16⟩ (by simp))))
  | aesEnc =>
    exact conclude_nextInv hs (.requireRegions fun hb => .requireKey (.pure
      (hd.memWrite (by simp) (hb ⟨s.arg 1, 16⟩ (by simp)))))
  | ctrXor =>
    exact conclude_nextInv hs (.requireRegions fun hb => .requireKey (.pure
      (hd.memWrite (by simp) (hb ⟨s.arg 2, s.arg 1⟩ (by simp)))))
  | gcmEnc =>
    exact conclude_nextInv hs (.requireRegions fun hb => .requireKey (.pure
      ((hd.memWrite (by simp) (hb ⟨s.arg 6, s.arg 5⟩ (by simp))).memWrite (by simp) (hb ⟨s.arg 7, 16⟩ (by simp)))))
  | gcmDec =>
    exact conclude_nextInv hs (.requireRegions fun hb => .requireKey (.require fun _ => .pure
      (hd.memWrite (by simp) (hb ⟨s.arg 6, s.arg 5⟩ (by simp)))))
  | ecFinv =>
    exact conclude_nextInv hs (.requireRegions fun hb => .require fun _ => .require fun _ => .pure
      (hd.memWrite (by simp) (hb ⟨s.arg 1, 32⟩ (by simp))))
  | ecPadd =>
    exact conclude_nextInv hs (.requireRegions fun hb => .require fun _ => .require fun _ => .require fun _ => .pure
      (hd.memWrite (by simp) (hb ⟨s.arg 2, 64⟩ (by simp))))
  | ecPdbl =>
    exact conclude_nextInv hs (.requireRegions fun hb => .require fun _ => .require fun _ => .require fun _ => .pure
      (hd.memWrite (by simp) (hb ⟨s.arg 1, 64⟩ (by simp))))
  | ecSmul =>
    exact conclude_nextInv hs (.requireRegions fun hb => .require fun _ => .require fun _ => .require fun _ =>
      .require fun _ => .finitePoint fun _ => .pure (hd.memWrite (by simp) (hb ⟨s.arg 2, 64⟩ (by simp))))
  | ecdsaRecover =>
    exact conclude_nextInv hs (.requireRegions fun hb => .finitePoint fun _ => .pure
      (hd.memWrite (by simp) (hb ⟨s.arg 2, 64⟩ (by simp))))

/-! ### Every step -/

theorem engineTurn_nextInv {s : State} (hs : s.Inv) : NextInv (engineTurn s) := by
  unfold engineTurn runCommand
  split
  · split
    · exact exec_nextInv hs _
    · exact conclude_nextInv hs (.error .illegalCmd)
  · exact .next hs

/-- The first event of the agenda is a turn of the engine, a host access or a power cycle; each keeps the invariant. -/
theorem step_nextInv {s : State} (hs : s.Inv) : NextInv (step s) := by
  have hpop := State.popAgenda_inv hs
  unfold step nextEvent
  split
  · exact engineTurn_nextInv hs
  · exact engineTurn_nextInv hpop
  · exact .next (State.hostAccess_inv hpop _)
  · exact .next (State.powerOn_inv hpop)

/-- Settles O59: a step is one event of the agenda, and each kind of event keeps the invariant (`step_nextInv`). -/
theorem stepKeepsInvariant : Obligations.StepKeepsInvariant := by
  intro s t hs h
  exact step_nextInv hs t h

end Sys2Proof.Machine
end

section
/-! SUPPORT and the settlements of O12 and O13: the words STATUS and CTRL bit by bit, and host writes to them. -/

namespace Sys2Proof.Machine

/-! ### STATUS and CTRL as words -/

/-- A flag placed below a word: bit 0 is the flag and the word moves up by one bit. -/
theorem getLsbD_append_ofBool {n : Nat} (x : BitVec n) (b : Bool) (k : Nat) :
    (x ++ BitVec.ofBool b).getLsbD k = if k = 0 then b else x.getLsbD (k - 1) := by
  rw [BitVec.getLsbD_append]
  by_cases hk : k = 0
  · simp [hk]
  · simp [hk]

/-- Above its five flags STATUS holds ERRCODE in bits 15:8 and zeros (10_state.md R34). -/
theorem getLsbD_errcode_field (c : BitVec 8) (k : Nat) :
    ((0 : BitVec 16) ++ c ++ (0 : BitVec 3)).getLsbD k = if 3 ≤ k ∧ k < 11 then c.getLsbD (k - 3) else false := by
  rw [BitVec.getLsbD_append, BitVec.getLsbD_append]
  by_cases h3 : k < 3
  · simp [h3]
  · by_cases h11 : k < 11
    · have h8 : k - 3 < 8 := by omega
      simp [h3, h11, h8, Nat.le_of_not_lt h3]
    · have h8 : ¬k - 3 < 8 := by omega
      simp [h3, h11, h8]

/-- KEYVALID is 1 exactly when AESNR is not 0 (10_state.md R38). -/
theorem State.keyValid_eq_decide (s : State) : s.keyValid = decide (s.aesnr ≠ 0) := by
  rw [Bool.eq_iff_iff]
  simp [State.keyValid]

/-- The bits of STATUS (10_state.md R34). -/
theorem State.getLsbD_statusWord (s : State) (k : Nat) :
    s.statusWord.getLsbD k =
      if k = 0 then s.busy else if k = 1 then s.done else if k = 2 then s.err else if k = 3 then s.overrun
      else if k = 4 then s.keyValid else if 8 ≤ k ∧ k < 16 then s.errcode.code.getLsbD (k - 8) else false := by
  simp only [State.statusWord, getLsbD_append_ofBool, getLsbD_errcode_field]
  match k with
  | 0 | 1 | 2 | 3 | 4 => simp
  | k + 5 =>
    have h16 : k + 5 < 16 ↔ k < 11 := by omega
    simp [h16]

/-- The bits of CTRL (10_state.md R35). -/
theorem State.getLsbD_ctrlWord (s : State) (k : Nat) : s.ctrlWord.getLsbD k = (decide (k = 0) && s.ie) := by
  rw [State.ctrlWord, getLsbD_append_ofBool]
  by_cases hk : k = 0 <;> simp [hk]

/-! ### Host writes to STATUS and CTRL -/

/-- A performed write at a target that is never locked has its effect, whether or not a command runs
(20_memory.md R84, R88). -/
theorem step_write_unlocked {s : State} {off : Nat} {v : Word} {rest : List Turn} {t : Target}
    (h : HostNext s (.write 32 off v) rest) (h4 : off % 4 = 0) (hloc : locate s.params off = t)
    (ht : t.lockedWhileBusy = false) : step s = .next ({ s with agenda := rest }.writeTarget t v) := by
  have hw : Access.wellFormed (.write 32 off v) = true := by simp [Access.wellFormed, h4]
  rw [step_hostNext h]
  simp [State.blockAccess, hw, hloc, State.hostWrite, ht]

/-- With SRST = 0 a write to CTRL sets IE and nothing else (10_state.md R35). -/
theorem State.writeCtrl_ie_only (s : State) {v : Word} (hv : v.getLsbD 1 = false) :
    s.writeCtrl v = { s with ie := v.getLsbD 0 } := by
  rw [State.writeCtrl, hv]
  rfl

/-- With SRST = 1 a write to CTRL is the soft reset (10_state.md R35). -/
theorem State.writeCtrl_softReset (s : State) {v : Word} (hv : v.getLsbD 1 = true) :
    s.writeCtrl v = s.softReset := by
  rw [State.writeCtrl, if_pos hv]

/-- Settles O12: the fields of STATUS by `State.getLsbD_statusWord`; STATUS is never locked, so a write to it is
`State.writeStatus` in every state. -/
theorem statusFieldsAndWriteOneToClear : Obligations.StatusFieldsAndWriteOneToClear := by
  refine ⟨fun s k => ?_, fun s v rest h => step_write_unlocked (t := .status) h rfl rfl rfl⟩
  rw [State.getLsbD_statusWord, State.keyValid_eq_decide]

/-- Settles O13: CTRL is never locked, so a write to it is `State.writeCtrl` in every state, and SRST selects which of
its two effects it has. -/
theorem ctrlRegisterFields : Obligations.CtrlRegisterFields := by
  refine ⟨State.getLsbD_ctrlWord, fun _ => rfl, fun s v rest h => ?_⟩
  have hstep : step s = .next ({ s with agenda := rest }.writeCtrl v) :=
    step_write_unlocked (t := .ctrl) h rfl rfl rfl
  refine ⟨fun hv => ?_, fun hv => ⟨_, ?_, rfl, ?_⟩⟩
  · rw [hstep, State.writeCtrl_ie_only _ hv]
  · rw [hstep, State.writeCtrl_softReset _ hv]
  · rw [State.softReset_eq, State.resetRegisters_ie]

end Sys2Proof.Machine
end

section
/-! SUPPORT and the settlement of O55: all the ways a command can leave the state, once (`CommandWrites`), and from it
what each command leaves unchanged, one register at a time. -/

namespace Sys2Proof.Machine

/-! ### What the rules write -/

/-- All the ways the rule of a command can leave the state `s` it reads, before completion. A string written to the
scratchpad is as long as the output region it goes to. -/
inductive CommandWrites (s : State) : Instr → State → Prop where
  /-- NOP, and every command that ends with an error (60_exceptions.md R356). -/
  | nothing {i : Instr} : CommandWrites s i s
  /-- Every command whose only effect is a string in its one output region. -/
  | output {i : Instr} {off n : Nat} {bs : List Byte} (hr : outputRegions i s = [⟨off, n⟩]) (hlen : bs.length = n) :
      CommandWrites s i (s.memWrite off bs)
  /-- KSTATE (10_state.md R37). -/
  | sponge {i : Instr} {A : Lanes} (hi : i ∈ [.kinit, .kabsorb, .kfinal, .kpermute]) :
      CommandWrites s i { s with kstate := A }
  | spongeAndDigest {A : Lanes} {bs : List Byte} (hlen : bs.length = 32) :
      CommandWrites s .khash ({ s with kstate := A }.memWrite (s.arg 2) bs)
  /-- RK and AESNR (10_state.md R38). -/
  | key {rk : Vector Word 60} {nr : Word} : CommandWrites s .aesKeyexp { s with rk := rk, aesnr := nr }
  /-- CB (10_state.md R39). -/
  | counter {cb : Block} : CommandWrites s .ctrInc { s with cb := cb }
  | counterAndOutput {cb : Block} {bs : List Byte} (hlen : bs.length = s.arg 1) :
      CommandWrites s .ctrXor { s.memWrite (s.arg 2) bs with cb := cb }
  /-- H (10_state.md R40). -/
  | hashKey {h : Block} : CommandWrites s .ghSeth { s with h := h }
  /-- Y (10_state.md R41). -/
  | accumulator {y : Block} : CommandWrites s .ghUpdate { s with y := y }
  /-- J0 (10_state.md R42). -/
  | preCounter {j0 : Block} : CommandWrites s .gcmJ0 { s with j0 := j0 }
  | ciphertextAndTag {C T : List Byte} (hC : C.length = s.arg 5) (hT : T.length = 16) :
      CommandWrites s .gcmEnc ((s.memWrite (s.arg 6) C).memWrite (s.arg 7) T)
  /-- RESULT (10_state.md R36). -/
  | answer {i : Instr} {w : Word} (hi : i ∈ [.ecOncurve, .permitVerify]) : CommandWrites s i { s with result := w }

/-! ### What is left unchanged -/

namespace CommandWrites

variable {s u : State} {i : Instr}

/-- CTRL, OVERRUN, CMD, every ARG register and the model's own fields (10_state.md R31, R33 to R35). -/
theorem keeps_control (hu : CommandWrites s i u) :
    u.ie = s.ie ∧ u.overrun = s.overrun ∧ u.cmd = s.cmd ∧ u.args = s.args ∧ u.params = s.params
      ∧ u.agenda = s.agenda ∧ u.readData = s.readData ∧ u.drawn = s.drawn := by
  cases hu <;> exact ⟨rfl, rfl, rfl, rfl, rfl, rfl, rfl, rfl⟩

theorem keeps_key (hu : CommandWrites s i u) (hi : i ≠ .aesKeyexp) : u.rk = s.rk ∧ u.aesnr = s.aesnr := by
  cases hu with
  | key => exact absurd rfl hi
  | _ => exact ⟨rfl, rfl⟩

theorem keeps_result (hu : CommandWrites s i u) (hi : i ∉ [.ecOncurve, .permitVerify]) : u.result = s.result := by
  cases hu with
  | answer h => exact absurd h hi
  | _ => rfl

theorem keeps_kstate (hu : CommandWrites s i u) (hi : i ∉ [.kinit, .kabsorb, .kfinal, .kpermute, .khash]) :
    u.kstate = s.kstate := by
  cases hu with
  | sponge h => exact absurd (List.mem_append_left [Instr.khash] h) hi
  | spongeAndDigest => exact absurd (by decide) hi
  | _ => rfl

theorem keeps_cb (hu : CommandWrites s i u) (hi : i ∉ [.ctrXor, .ctrInc]) : u.cb = s.cb := by
  cases hu with
  | counter | counterAndOutput => exact absurd (by decide) hi
  | _ => rfl

theorem keeps_h (hu : CommandWrites s i u) (hi : i ≠ .ghSeth) : u.h = s.h := by
  cases hu with
  | hashKey => exact absurd rfl hi
  | _ => rfl

theorem keeps_y (hu : CommandWrites s i u) (hi : i ≠ .ghUpdate) : u.y = s.y := by
  cases hu with
  | accumulator => exact absurd rfl hi
  | _ => rfl

theorem keeps_j0 (hu : CommandWrites s i u) (hi : i ≠ .gcmJ0) : u.j0 = s.j0 := by
  cases hu with
  | preCounter => exact absurd rfl hi
  | _ => rfl

/-- The only SPM bytes a command writes are those of its output regions (10_state.md R45). -/
theorem keeps_spm (hu : CommandWrites s i u) : SpmKeptOutside (outputRegions i s) s u := by
  intro a ha
  cases hu with
  | output hr hlen => exact s.readByte_memWrite_outside _ _ _ hlen a (ha _ (by simp [hr]))
  | spongeAndDigest hlen =>
    exact State.readByte_memWrite_outside _ _ _ _ hlen a (ha ⟨s.arg 2, 32⟩ (by simp [outputRegions]))
  | counterAndOutput hlen =>
    exact s.readByte_memWrite_outside _ _ _ hlen a (ha ⟨s.arg 2, s.arg 1⟩ (by simp [outputRegions]))
  | ciphertextAndTag hC hT =>
    rw [State.readByte_memWrite_outside _ _ _ _ hT a (ha ⟨s.arg 7, 16⟩ (by simp [outputRegions])),
      s.readByte_memWrite_outside _ _ _ hC a (ha ⟨s.arg 6, s.arg 5⟩ (by simp [outputRegions]))]
  | _ => rfl

end CommandWrites

/-! ### Every command writes only so -/

/-- The rule of a command, where it succeeds, leaves the state in one of the ways of `CommandWrites`. -/
def RuleWrites (i : Instr) (s : State) (r : Except ErrorCode State) : Prop := ∀ u, r = .ok u → CommandWrites s i u

theorem RuleWrites.pure {i : Instr} {s u : State} (hu : CommandWrites s i u) : RuleWrites i s (pure u) := by
  rintro _ ⟨⟩
  exact hu

/-- A check or a value of a rule: what follows it is reached with its answer. -/
theorem RuleWrites.bind {α : Type} {i : Instr} {s : State} {x : Except ErrorCode α}
    {k : α → Except ErrorCode State} (hk : ∀ a, x = .ok a → RuleWrites i s (k a)) : RuleWrites i s (x >>= k) := by
  cases x with
  | error e => exact fun u h => nomatch h
  | ok a => exact hk a rfl

theorem of_require_eq_ok {c : Bool} {e : ErrorCode} {a : Unit} (h : require c e = .ok a) : c = true := by
  cases c with
  | false => cases h
  | true => rfl

/-- An engine step that leaves the state in one of the ways of `CommandWrites` and completes. -/
def StepWrites (i : Instr) (s : State) (r : Result) : Prop :=
  ∀ t, r = .next t → ∃ u c, CommandWrites s i u ∧ t = u.complete c

theorem conclude_stepWrites {i : Instr} {s : State} {r : Except ErrorCode State} (hr : RuleWrites i s r) :
    StepWrites i s (conclude s r) := by
  intro t h
  rcases conclude_next h with ⟨u, hu, rfl⟩ | ⟨e, -, rfl⟩
  · exact ⟨u, .ok, hr u hu, rfl⟩
  · exact ⟨s, e, .nothing, rfl⟩

/-- One case a command: its checks, then the way in which it writes. -/
theorem exec_stepWrites (i : Instr) (s : State) : StepWrites i s (exec i s) := by
  cases i with
  | nop => exact conclude_stepWrites (.pure .nothing)
  | kinit | kpermute => exact conclude_stepWrites (.pure (.sponge (by decide)))
  | kabsorb => exact conclude_stepWrites (.bind fun _ _ => .pure (.sponge (by decide)))
  | kfinal => exact conclude_stepWrites (.bind fun _ _ => .bind fun _ _ => .pure (.sponge (by decide)))
  | khash => exact conclude_stepWrites (.bind fun _ _ => .pure (.spongeAndDigest (by simp)))
  | aesKeyexp => exact conclude_stepWrites (.bind fun _ _ => .bind fun _ _ => .pure .key)
  | ctrInc => exact conclude_stepWrites (.pure .counter)
  | ctrXor => exact conclude_stepWrites (.bind fun _ _ => .bind fun _ _ => .pure (.counterAndOutput (by simp)))
  | ghSeth => exact conclude_stepWrites (.bind fun _ _ => .pure .hashKey)
  | ghUpdate => exact conclude_stepWrites (.bind fun _ _ => .pure .accumulator)
  | gcmJ0 => exact conclude_stepWrites (.bind fun _ _ => .bind fun _ _ => .pure .preCounter)
  | gcmEnc =>
    exact conclude_stepWrites (.bind fun _ _ => .bind fun _ _ => .pure (.ciphertextAndTag (by simp) (by simp)))
  | ecOncurve => exact conclude_stepWrites (.bind fun _ _ => .bind fun _ _ => .pure (.answer (by decide)))
  | permitVerify => exact conclude_stepWrites (.bind fun _ _ => .bind fun _ _ => .pure (.answer (by decide)))
  | ksqueeze =>
    refine conclude_stepWrites (.bind fun _ hlen => .bind fun _ _ => .pure (.output rfl ?_))
    have hle : s.arg 1 ≤ 136 := of_decide_eq_true (of_require_eq_ok hlen)
    exact (squeeze_length _ _).trans (Nat.min_eq_left (by omega))
  | encWord =>
    refine conclude_stepWrites (.bind fun _ hlen => .bind fun _ _ => .pure (.output rfl (encodeWord_length _ ?_)))
    simpa using of_require_eq_ok hlen
  | gfMul | ecAddr | eip712Digest | permitDomain | permitToken | permitBatch | permitDigest =>
    exact conclude_stepWrites (.bind fun _ _ => .pure (.output rfl (by simp)))
  | aesEnc | ecdsaRecover =>
    exact conclude_stepWrites (.bind fun _ _ => .bind fun _ _ => .pure (.output rfl (by simp)))
  | gcmDec | ecFinv =>
    exact conclude_stepWrites (.bind fun _ _ => .bind fun _ _ => .bind fun _ _ => .pure (.output rfl (by simp)))
  | ecPadd | ecPdbl =>
    exact conclude_stepWrites (.bind fun _ _ => .bind fun _ _ => .bind fun _ _ => .bind fun _ _ => .pure
      (.output rfl (by simp)))
  | ecSmul =>
    exact conclude_stepWrites (.bind fun _ _ => .bind fun _ _ => .bind fun _ _ => .bind fun _ _ => .bind fun _ _ =>
      .bind fun _ _ => .pure (.output rfl (by simp)))

/-- Settles O55: each command leaves the state in one of the ways of `CommandWrites`, and completion touches BUSY, DONE,
ERR and ERRCODE alone. -/
theorem commandFrame : Obligations.CommandFrame := by
  intro i s t h
  obtain ⟨u, c, hu, rfl⟩ := exec_stepWrites i s t h
  obtain ⟨hie, hoverrun, hcmd, hargs, hparams, hagenda, hreadData, hdrawn⟩ := hu.keeps_control
  exact ⟨hie, hoverrun, hcmd, hargs, hparams, hagenda, hreadData, hdrawn, hu.keeps_key, hu.keeps_result,
    hu.keeps_kstate, hu.keeps_cb, hu.keeps_h, hu.keeps_y, hu.keeps_j0, hu.keeps_spm⟩

end Sys2Proof.Machine
end

section
/-! SUPPORT. The bytes and words behind the host bus: word m of a byte window read after a write, and KSTATE as bytes and
as lanes (20_memory.md R85; 10_state.md R37). -/

namespace Sys2Proof.Machine

/-! ### Parts of byte strings -/

theorem slice_slice (b : List Byte) {i j k l : Nat} (h : i + l ≤ j) :
    slice (slice b i j) k l = slice b (i + k) (i + l) := by
  simp only [slice, List.drop_take, List.take_take, List.drop_drop]
  congr 1
  omega

/-- Part i of a string put together of parts of one length. -/
theorem slice_flatMap_const {α : Type} (l : List α) (f : α → List Byte) (n i : Nat) (hf : ∀ x ∈ l, (f x).length = n)
    (hi : i < l.length) : slice (l.flatMap f) (n * i) (n * i + n) = f l[i] := by
  induction l generalizing i with
  | nil => simp at hi
  | cons x l ih =>
    have hx : (f x).length = n := hf x (by simp)
    cases i with
    | zero => simp [slice, hx]
    | succ i =>
      have tail := ih i (fun y hy => hf y (by simp [hy])) (by simpa using hi)
      have drop : (f x ++ l.flatMap f).drop (n * (i + 1)) = (l.flatMap f).drop (n * i) := by
        rw [Nat.mul_succ, Nat.add_comm, ← List.drop_drop, ← hx, List.drop_left]
      simp only [slice, Nat.add_sub_cancel_left] at tail ⊢
      rw [List.flatMap_cons, drop, tail, List.getElem_cons_succ]

/-- The first k parts of length n of a string, put together again. -/
theorem flatMap_slice (b : List Byte) (n k : Nat) :
    ((List.range k).flatMap fun i => slice b (n * i) (n * i + n)) = b.take (n * k) := by
  induction k with
  | zero => simp
  | succ k ih =>
    rw [List.range_succ, List.flatMap_append, ih, Nat.mul_succ, List.take_add]
    simp [slice]

/-- Bytes i to j-1 of `le_n(v)` (00_scope.md R9). -/
theorem slice_leBytes (n v : Nat) {i j : Nat} (hj : j ≤ n) : slice (leBytes n v) i j = leBytes (j - i) (v >>> (8 * i)) := by
  apply List.ext_getElem
  · simp only [slice_length, leBytes_length]
    omega
  · intro k _ _
    simp [slice, leBytes, ← Nat.shiftRight_add, Nat.mul_add]

/-- The word whose four bytes are `le_4(v)` is v, cut to 32 bits (00_scope.md R9; 20_memory.md R85). -/
theorem ofNat_le_leBytes (v : Nat) : BitVec.ofNat 32 (le (leBytes 4 v)) = BitVec.ofNat 32 v := by
  apply BitVec.eq_of_toNat_eq
  simp [le_leBytes]

/-! ### Byte windows -/

theorem windowUpdate_length (w : List Byte) {m : Nat} (v : Word) (h : 4 * m + 4 ≤ w.length) :
    (windowUpdate w m v).length = w.length := by
  simp only [windowUpdate, List.length_append, List.length_take, List.length_drop, leBytes_length]
  omega

/-- A word written to a byte window is read back (20_memory.md R85). -/
theorem windowWord_windowUpdate (w : List Byte) {m : Nat} (v : Word) (h : 4 * m + 4 ≤ w.length) :
    windowWord (windowUpdate w m v) m = v := by
  have hlen : (w.take (4 * m)).length = 4 * m := by
    rw [List.length_take]
    omega
  have bytes : slice (windowUpdate w m v) (4 * m) (4 * m + 4) = leBytes 4 v.toNat := by
    rw [slice, windowUpdate, List.append_assoc, List.drop_left' hlen]
    exact List.take_left' (by simp)
  rw [windowWord, bytes, ofNat_le_leBytes, BitVec.ofNat_toNat, BitVec.setWidth_eq]

/-- A block register after a write of one of its four words (20_memory.md R85). -/
theorem blockBytes_write (b : Block) {m : Nat} (v : Word) (hm : m < 4) :
    blockBytes (bytesBlock (windowUpdate (blockBytes b) m v)) = windowUpdate (blockBytes b) m v := by
  apply blockBytes_bytesBlock
  rw [windowUpdate_length _ _ (by rw [blockBytes_length]; omega), blockBytes_length]

theorem windowWord_blockBytes_write (b : Block) {m : Nat} (v : Word) (hm : m < 4) :
    windowWord (blockBytes (bytesBlock (windowUpdate (blockBytes b) m v))) m = v := by
  rw [blockBytes_write b v hm, windowWord_windowUpdate _ _ (by rw [blockBytes_length]; omega)]

/-! ### KSTATE -/

/-- Lane i of a sponge state lies in bytes 8i to 8i+7 (10_state.md R37). -/
theorem slice_stateBytes (A : Lanes) (i : Fin 25) : slice (stateBytes A) (8 * i) (8 * i + 8) = leBytes 8 A[i].toNat := by
  simpa [stateBytes] using slice_flatMap_const A.toList (fun v => leBytes 8 v.toNat) 8 i (by simp) (by simp)

/-- A sponge state read from 200 bytes has those bytes (10_state.md R37). -/
theorem stateBytes_bytesLanes (b : List Byte) (h : b.length = 200) : stateBytes (bytesLanes b) = b := by
  have lane : ∀ i ∈ List.range 25,
      leBytes 8 (BitVec.ofNat 64 (le (slice b (8 * i) (8 * i + 8)))).toNat = slice b (8 * i) (8 * i + 8) := by
    intro i hi
    have hlen : (slice b (8 * i) (8 * i + 8)).length = 8 := by
      have := List.mem_range.mp hi
      rw [slice_length]
      omega
    have hlt : le (slice b (8 * i) (8 * i + 8)) < 2 ^ 64 := by simpa [hlen] using le_lt (slice b (8 * i) (8 * i + 8))
    rw [BitVec.toNat_ofNat, Nat.mod_eq_of_lt hlt]
    simpa only [hlen] using leBytes_le (slice b (8 * i) (8 * i + 8))
  calc stateBytes (bytesLanes b)
      = (List.range 25).flatMap fun i => leBytes 8 (BitVec.ofNat 64 (le (slice b (8 * i) (8 * i + 8)))).toNat := by
        rw [stateBytes, bytesLanes, tabulate_toList, List.flatMap_map]
    _ = (List.range 25).flatMap fun i => slice b (8 * i) (8 * i + 8) := List.flatMap_congr lane
    _ = b := by rw [flatMap_slice, List.take_of_length_le (by omega)]

/-- KSTATE after a write of one of its 50 words (20_memory.md R85). -/
theorem stateBytes_write (A : Lanes) {m : Nat} (v : Word) (hm : m < 50) :
    stateBytes (bytesLanes (windowUpdate (stateBytes A) m v)) = windowUpdate (stateBytes A) m v := by
  apply stateBytes_bytesLanes
  rw [windowUpdate_length _ _ (by rw [stateBytes_length]; omega), stateBytes_length]

theorem windowWord_stateBytes_write (A : Lanes) {m : Nat} (v : Word) (hm : m < 50) :
    windowWord (stateBytes (bytesLanes (windowUpdate (stateBytes A) m v))) m = v := by
  rw [stateBytes_write A v hm, windowWord_windowUpdate _ _ (by rw [stateBytes_length]; omega)]

/-- Words 2i and 2i+1 of KSTATE are the low and the high half of lane i (10_state.md R37; 20_memory.md R85). -/
theorem windowWord_stateBytes (A : Lanes) (i : Fin 25) {k : Nat} (hk : k < 2) :
    windowWord (stateBytes A) (2 * i + k) = A[i].extractLsb' (32 * k) 32 := by
  have bytes : slice (stateBytes A) (4 * (2 * i + k)) (4 * (2 * i + k) + 4)
      = leBytes 4 (A[i].toNat >>> (32 * k)) := by
    calc slice (stateBytes A) (4 * (2 * i + k)) (4 * (2 * i + k) + 4)
        = slice (slice (stateBytes A) (8 * i) (8 * i + 8)) (4 * k) (4 * k + 4) := by
          rw [slice_slice _ (by omega)]
          congr 1 <;> omega
      _ = leBytes 4 (A[i].toNat >>> (32 * k)) := by
          rw [slice_stateBytes, slice_leBytes _ _ (by omega), Nat.add_sub_cancel_left, ← Nat.mul_assoc]
  rw [windowWord, bytes, ofNat_le_leBytes]
  rfl

end Sys2Proof.Machine
end

section
/-! SUPPORT. What one access of the host does at each kind of target, from the step lemma `step_hostNext` (20_memory.md
R84 to R89). -/

namespace Sys2Proof.Machine

/-! ### Accesses that are performed -/

variable {s : State} {off : Nat} {v : Word} {rest : List Turn} {t : Target}

/-- A 32-bit read at a multiple of 4 (20_memory.md R84). -/
theorem step_read (h : HostNext s (.read 32 off) rest) (h4 : off % 4 = 0) (hloc : locate s.params off = t) :
    step s = .next ({ s with agenda := rest }.readTarget t) := by
  have hw : Access.wellFormed (.read 32 off) = true := by simp [Access.wellFormed, h4]
  rw [step_hostNext h]
  simp [State.blockAccess, hw, hloc]

/-- A 32-bit write at a multiple of 4 (20_memory.md R84). -/
theorem step_write (h : HostNext s (.write 32 off v) rest) (h4 : off % 4 = 0) (hloc : locate s.params off = t) :
    step s = .next ({ s with agenda := rest }.hostWrite t v) := by
  have hw : Access.wellFormed (.write 32 off v) = true := by simp [Access.wellFormed, h4]
  rw [step_hostNext h]
  simp [State.blockAccess, hw, hloc]

theorem State.targetWord_withAgenda (s : State) (rest : List Turn) (t : Target) :
    { s with agenda := rest }.targetWord t = s.targetWord t := by
  cases t <;> rfl

/-- A read that R89 does not hide is exact (20_memory.md R84, R89). -/
theorem step_read_exact (h : HostNext s (.read 32 off) rest) (h4 : off % 4 = 0) (hloc : locate s.params off = t)
    (ht : (s.busy && t.hiddenWhileBusy) = false) :
    step s = .next { s with agenda := rest, readData := s.targetWord t } := by
  rw [step_read h h4 hloc]
  simp [State.readTarget, ht, State.targetWord_withAgenda]

/-- A read at a target that is never hidden is exact, whether or not a command runs (20_memory.md R89). -/
theorem step_read_shown (h : HostNext s (.read 32 off) rest) (h4 : off % 4 = 0) (hloc : locate s.params off = t)
    (ht : t.hiddenWhileBusy = false) : step s = .next { s with agenda := rest, readData := s.targetWord t } :=
  step_read_exact h h4 hloc (by rw [ht, Bool.and_false])

/-- A read while no command runs is exact (20_memory.md R84). -/
theorem step_read_idle (h : HostNext s (.read 32 off) rest) (h4 : off % 4 = 0) (hloc : locate s.params off = t)
    (hb : s.busy = false) : step s = .next { s with agenda := rest, readData := s.targetWord t } :=
  step_read_exact h h4 hloc (by rw [hb, Bool.false_and])

/-- The half k of lane i lies at 0x100 + 8i + 4k (10_state.md R30, R37; 20_memory.md R85). -/
theorem step_read_lane (h : HostNext s (.read 32 off) rest) (hb : s.busy = false) (i : Fin 25) {k : Nat} (hk : k < 2)
    (hoff : off = 0x100 + 8 * i + 4 * k) :
    step s = .next { s with agenda := rest, readData := s.kstate[i].extractLsb' (32 * k) 32 } := by
  have hloc : locate s.params off = .kstate (2 * i + k) := by
    rw [← locate_kstate s.params (by omega : 2 * i.val + k < 50)]
    congr 1
    omega
  have hword : s.targetWord (.kstate (2 * i + k)) = s.kstate[i].extractLsb' (32 * k) 32 :=
    windowWord_stateBytes s.kstate i hk
  rw [step_read_idle h (by omega) hloc hb, hword]

/-- A hidden read draws the next free word (20_memory.md R89; log entry 5). -/
theorem step_read_hidden (h : HostNext s (.read 32 off) rest) (h4 : off % 4 = 0) (hloc : locate s.params off = t)
    (hb : s.busy = true) (ht : t.hiddenWhileBusy = true) :
    step s = .next { s with agenda := rest, readData := Config.drawnWord s.drawn, drawn := s.drawn + 1 } := by
  rw [step_read h h4 hloc]
  simp [State.readTarget, hb, ht]

/-- A write while no command runs has its effect (20_memory.md R84). -/
theorem step_write_idle (h : HostNext s (.write 32 off v) rest) (h4 : off % 4 = 0) (hloc : locate s.params off = t)
    (hb : s.busy = false) : step s = .next ({ s with agenda := rest }.writeTarget t v) := by
  rw [step_write h h4 hloc]
  exact congrArg _ (State.hostWrite_idle _ t v hb)

/-- A write to a locked target while a command runs is dropped and sets OVERRUN (20_memory.md R88). -/
theorem step_write_dropped (h : HostNext s (.write 32 off v) rest) (h4 : off % 4 = 0)
    (hloc : locate s.params off = t) (hb : s.busy = true) (ht : t.lockedWhileBusy = true) :
    step s = .next { s with agenda := rest, overrun := true } := by
  rw [step_write h h4 hloc]
  exact congrArg _ (State.hostWrite_dropped _ t v hb ht)

/-! ### Targets that ignore writes -/

/-- A write there has no effect and is not one that R88 drops with OVERRUN (20_memory.md R86). -/
def Target.IgnoresWrites (t : Target) : Prop :=
  t.lockedWhileBusy = false ∧ ∀ (s : State) (v : Word), s.writeTarget t v = s

theorem step_write_ignored (h : HostNext s (.write 32 off v) rest) (h4 : off % 4 = 0)
    (ht : (locate s.params off).IgnoresWrites) : step s = .next { s with agenda := rest } := by
  obtain ⟨hlock, hkeep⟩ := ht
  rw [step_write_unlocked h h4 rfl hlock, hkeep]

theorem locate_unmapped_ignoresWrites {p : Params} (h : unmappedOffset p off) : (locate p off).IgnoresWrites := by
  rw [locate_unmapped h]
  exact ⟨rfl, fun _ _ => rfl⟩

theorem rkOffset_eq (h4 : off % 4 = 0) (h : 0x200 ≤ off ∧ off ≤ 0x2EF) : ∃ m < 60, off = 0x200 + 4 * m :=
  ⟨(off - 0x200) / 4, by omega, by omega⟩

theorem locate_readOnly_ignoresWrites {p : Params} (h4 : off % 4 = 0) (h : readOnlyOffset off) :
    (locate p off).IgnoresWrites := by
  rcases h with rfl | rfl | rfl | rfl | rfl | hrk
  case inr.inr.inr.inr.inr =>
    obtain ⟨m, hm, rfl⟩ := rkOffset_eq h4 hrk
    rw [locate_rk p hm]
    exact ⟨rfl, fun _ _ => rfl⟩
  all_goals exact ⟨rfl, fun _ _ => rfl⟩

/-! ### Targets that hold data -/

/-- SPM_BYTES is a multiple of 4 (00_scope.md R6). -/
theorem spmBytes_mod_four {p : Params} (h : p.wellFormed = true) : p.spmBytes % 4 = 0 := by
  simp only [Params.wellFormed, Bool.and_eq_true, beq_iff_eq] at h
  exact h.1.1

/-- ARG, CB, H, Y, J0, KSTATE or SPM, at a word the window has (10_state.md R30). -/
def Target.HoldsData : Target → Prop
  | .arg _ | .spm _ => True
  | .cb m | .h m | .y m | .j0 m => m < 4
  | .kstate m => m < 50
  | .id | .version | .ctrl | .status | .cmd | .result | .spmsize | .aesnr | .rk _ | .unmapped => False

/-- A data offset holds data, and all but the ARG registers are hidden while a command runs (20_memory.md R88, R89). -/
theorem locate_data {p : Params} (hp : p.spmBytes % 4 = 0) (h4 : off % 4 = 0) (h : dataOffset p off) :
    (locate p off).HoldsData ∧ (0x040 ≤ off → (locate p off).hiddenWhileBusy = true) := by
  rcases dataOffset_cases hp h4 h with ⟨i, rfl⟩ | ⟨m, hm, rfl⟩ | ⟨m, hm, rfl⟩ | ⟨m, hm, rfl⟩ | ⟨m, hm, rfl⟩
    | ⟨m, hm, rfl⟩ | ⟨m, hm, rfl⟩
  · rw [locate_arg]; exact ⟨trivial, fun h => by omega⟩
  · rw [locate_cb p hm]; exact ⟨hm, fun _ => rfl⟩
  · rw [locate_h p hm]; exact ⟨hm, fun _ => rfl⟩
  · rw [locate_y p hm]; exact ⟨hm, fun _ => rfl⟩
  · rw [locate_j0 p hm]; exact ⟨hm, fun _ => rfl⟩
  · rw [locate_kstate p hm]; exact ⟨hm, fun _ => rfl⟩
  · rw [locate_spm p hm]; exact ⟨trivial, fun _ => rfl⟩

theorem locate_hidden {p : Params} (hp : p.spmBytes % 4 = 0) (h4 : off % 4 = 0) (h : hiddenOffset p off) :
    (locate p off).hiddenWhileBusy = true := by
  rcases h with rfl | rfl | hreg | hlanes | hrk | hspm
  · rfl
  · rfl
  · exact (locate_data hp h4 (.inl (by omega))).2 hreg.1
  · exact (locate_data hp h4 (.inr (.inl hlanes))).2 (by omega)
  · obtain ⟨m, hm, rfl⟩ := rkOffset_eq h4 hrk
    rw [locate_rk p hm]
    rfl
  · exact (locate_data hp h4 (.inr (.inr hspm))).2 (by omega)

/-- A string of four bytes written to the scratchpad reads back (20_memory.md R81, R82). -/
theorem State.memRead_memWrite_word (s : State) (j : Nat) (v : Word) :
    (s.memWrite j (leBytes 4 v.toNat)).memRead j 4 = leBytes 4 v.toNat := by
  simpa using s.memRead_memWrite_same j (leBytes 4 v.toNat)

/-- What is written where data is held is what is read there (20_memory.md R84, R85). -/
theorem State.targetWord_writeTarget (s : State) (v : Word) (ht : t.HoldsData) :
    (s.writeTarget t v).targetWord t = v := by
  cases t with
  | arg i => exact Vector.getElem_set_self i.isLt
  | cb m => exact windowWord_blockBytes_write s.cb v ht
  | h m => exact windowWord_blockBytes_write s.h v ht
  | y m => exact windowWord_blockBytes_write s.y v ht
  | j0 m => exact windowWord_blockBytes_write s.j0 v ht
  | kstate m => exact windowWord_stateBytes_write s.kstate v ht
  | spm j =>
    change BitVec.ofNat 32 (le ((s.memWrite j (leBytes 4 v.toNat)).memRead j 4)) = v
    rw [State.memRead_memWrite_word, ofNat_le_leBytes, BitVec.ofNat_toNat, BitVec.setWidth_eq]
  | _ => exact ht.elim

/-- A write where data is held leaves BUSY and the model's parameters and agenda alone (20_memory.md R85). -/
theorem State.writeTarget_keeps_control (s : State) (v : Word) (ht : t.HoldsData) :
    (s.writeTarget t v).busy = s.busy ∧ (s.writeTarget t v).params = s.params
      ∧ (s.writeTarget t v).agenda = s.agenda := by
  cases t with
  | arg _ | cb _ | h _ | y _ | j0 _ | kstate _ | spm _ => exact ⟨rfl, rfl, rfl⟩
  | _ => exact ht.elim

end Sys2Proof.Machine
end

section
/-! SUPPORT and the settlements of O7 to O11, O14 and O15: each finds the target of the offset and cites what an access
does there. -/

namespace Sys2Proof.Machine

/-! ### Two turns in a row -/

/-- Which host access comes next depends on the agenda and the place of the block alone. -/
theorem hostNext_congr {s t : State} {a : Access} {rest : List Turn} (ha : t.agenda = s.agenda)
    (hp : t.params = s.params) (h : HostNext s a rest) : HostNext t a rest := by
  rw [HostNext, ha, State.hostTurn, hp]
  exact h

theorem core_run_two {s t u : State} (hs : step s = .next t) (ht : step t = .next u) : core.run 2 s = .next u := by
  have first : core.step s = .next t := hs
  have second : core.step t = .next u := ht
  simp only [Host.Core.run, first, second]

/-! ### The settlements -/

/-- Settles O8: the unmapped target reads 0 and, like the read-only ones, ignores writes, and no such target is hidden
or locked while a command runs. -/
theorem unmappedAndReadOnlyAccesses : Obligations.UnmappedAndReadOnlyAccesses := by
  intro s off v rest h4
  refine ⟨fun hun h => step_read_shown h h4 (locate_unmapped hun) rfl, fun hoff h => ?_⟩
  rcases hoff with hun | hro
  · exact step_write_ignored h h4 (locate_unmapped_ignoresWrites hun)
  · exact step_write_ignored h h4 (locate_readOnly_ignoresWrites h4 hro)

/-- Settles O9: CMD and every data offset are locked while a command runs; STATUS and CTRL are not. -/
theorem busyWritesDroppedWithOverrun : Obligations.BusyWritesDroppedWithOverrun := by
  intro s off v rest hp hb h4 h
  refine ⟨fun hoff => ?_, ?_, ?_, ?_⟩
  · have hlock : (locate s.params off).lockedWhileBusy = true := by
      rcases hoff with rfl | hdata
      · rfl
      · exact locate_data_locked (spmBytes_mod_four hp) h4 hdata
    exact step_write_dropped h h4 rfl hb hlock
  · rintro rfl
    exact statusFieldsAndWriteOneToClear.2 s v rest h
  · rintro rfl hv
    exact (ctrlRegisterFields.2.2 s v rest h).1 hv
  · rintro rfl hv
    obtain ⟨t, hstep, rfl, -⟩ := (ctrlRegisterFields.2.2 s v rest h).2 hv
    exact hstep

/-- Settles O10: every offset R89 lists is a hidden target, and a hidden read takes the next draw. -/
theorem busyReadsReturnFreshDraws : Obligations.BusyReadsReturnFreshDraws := by
  intro s off rest hp hb h4 hoff h
  exact step_read_hidden h h4 rfl hb (locate_hidden (spmBytes_mod_four hp) h4 hoff)

/-- Settles O11: at each offset the word of its target; the lanes of KSTATE are its words 2i and 2i+1
(`windowWord_stateBytes`). -/
theorem hostReadsReturnTheRegisters : Obligations.HostReadsReturnTheRegisters := by
  intro s off rest h
  refine ⟨?_, ?_, ?_, ?_, ?_, ?_, ?_, fun hb => ⟨?_, ?_, ?_, ?_, ?_, ?_, ?_, ?_, ?_, ?_, ?_⟩⟩
  · rintro rfl; exact step_read_shown h rfl (t := .id) rfl rfl
  · rintro rfl; exact step_read_shown h rfl (t := .version) rfl rfl
  · rintro rfl; exact step_read_shown h rfl (t := .ctrl) rfl rfl
  · rintro rfl; exact step_read_shown h rfl (t := .status) rfl rfl
  · rintro rfl; exact step_read_shown h rfl (t := .cmd) rfl rfl
  · rintro rfl; exact step_read_shown h rfl (t := .spmsize) rfl rfl
  · rintro i rfl; exact step_read_shown h (by omega) (locate_arg _ i) rfl
  · rintro rfl; exact step_read_idle h rfl (t := .result) rfl hb
  · rintro rfl; exact step_read_idle h rfl (t := .aesnr) rfl hb
  · rintro m hm rfl; exact step_read_idle h (by omega) (locate_cb _ hm) hb
  · rintro m hm rfl; exact step_read_idle h (by omega) (locate_h _ hm) hb
  · rintro m hm rfl; exact step_read_idle h (by omega) (locate_y _ hm) hb
  · rintro m hm rfl; exact step_read_idle h (by omega) (locate_j0 _ hm) hb
  · rintro m hm rfl; exact step_read_idle h (by omega) (locate_kstate _ hm) hb
  · intro i hoff; exact step_read_lane h hb i (k := 0) (by omega) (by omega)
  · intro i hoff; exact step_read_lane h hb i (k := 1) (by omega) (by omega)
  · rintro m hm rfl; exact step_read_idle h (by omega) (locate_rk _ hm) hb
  · rintro m hm rfl; exact step_read_idle h (by omega) (locate_spm _ hm) hb

/-- Settles O14: a data offset holds data, so its target reads back what was written, and the write keeps BUSY, the place
of the block and the turn of the read. -/
theorem hostWriteThenReadBack : Obligations.HostWriteThenReadBack := by
  intro s off v hp hb h4 hdata hagenda
  obtain ⟨ht, -⟩ := locate_data (spmBytes_mod_four hp) h4 hdata
  have hwrite := step_write_idle hagenda h4 rfl hb
  obtain ⟨hbusy, hparams, hrest⟩ :=
    State.writeTarget_keeps_control { s with agenda := [s.hostTurn (.read 32 off)] } v ht
  have hturn := hostNext_congr (a := .read 32 off) (rest := []) hrest hparams rfl
  have hread := step_read_idle hturn h4 (congrArg (locate · off) hparams) (hbusy.trans hb)
  exact ⟨_, core_run_two hwrite hread, State.targetWord_writeTarget _ v ht⟩

/-- Settles O15: the write of the target, whose window then reads as written (`blockBytes_write`, `stateBytes_write`,
`State.memRead_memWrite_word`). -/
theorem hostWriteFrame : Obligations.HostWriteFrame := by
  intro s off v rest hb h
  refine ⟨?_, ?_, ?_, ?_, ?_, ?_, ?_⟩
  · rintro i rfl
    exact step_write_idle h (by omega) (locate_arg _ i) hb
  · rintro m hm rfl
    exact ⟨_, step_write_idle h (by omega) (locate_cb _ hm) hb, rfl, blockBytes_write s.cb v hm⟩
  · rintro m hm rfl
    exact ⟨_, step_write_idle h (by omega) (locate_h _ hm) hb, rfl, blockBytes_write s.h v hm⟩
  · rintro m hm rfl
    exact ⟨_, step_write_idle h (by omega) (locate_y _ hm) hb, rfl, blockBytes_write s.y v hm⟩
  · rintro m hm rfl
    exact ⟨_, step_write_idle h (by omega) (locate_j0 _ hm) hb, rfl, blockBytes_write s.j0 v hm⟩
  · rintro m hm rfl
    exact ⟨_, step_write_idle h (by omega) (locate_kstate _ hm) hb, rfl, stateBytes_write s.kstate v hm⟩
  · rintro m hm rfl
    refine ⟨_, step_write_idle h (by omega) (locate_spm _ hm) hb, rfl, State.memRead_memWrite_word _ _ v, ?_⟩
    exact fun a ha => State.readByte_memWrite_outside _ _ _ _ (by simp) a (ha ⟨4 * m, 4⟩ (by simp))

/-- Settles O7: such an access is not well formed, so the block does not perform it. -/
theorem narrowOrMisalignedNotPerformed : Obligations.NarrowOrMisalignedNotPerformed := by
  intro s width off v rest hbad
  have hform : (width == 32 && off % 4 == 0) = false := by
    rcases hbad with hw | h4
    · simp [hw]
    · simp [h4]
  constructor
  · intro h
    rw [step_hostNext h, State.blockAccess_write_refused _ _ _ _ hform]
  · intro h
    rw [step_hostNext h]
    simp [State.blockAccess, Access.wellFormed, hform]

end Sys2Proof.Machine
end

section
/-! SUPPORT and the settlements of O1 and O2: the opcode map and the two fields of a command word, each taken apart once,
and from them what the decoder answers (30_encoding.md R110 to R115). -/

namespace Sys2Proof.Machine

/-! ### The opcode map -/

/-- Each arm of the map has its own code, and it is the encoder's (30_encoding.md R113). -/
theorem opcodeMap_eq_some_iff (opc : BitVec 8) (i : Instr) : opcodeMap opc = some i ↔ opc = opcodeOf i := by
  constructor
  · unfold opcodeMap
    split
    case h_32 => nofun
    all_goals
      rintro ⟨⟩
      exact BitVec.eq_of_toNat_eq ‹_›
  · rintro rfl
    cases i <;> rfl

/-- The map and the ranges of 30_encoding.md R115, which are written apart from it, agree: a code with an arm lies outside
them, and any other code lies in one of them. -/
theorem legalOpcode_eq_isSome (opc : BitVec 8) : legalOpcode opc = (opcodeMap opc).isSome := by
  unfold opcodeMap
  split
  case h_32 =>
    simp only [legalOpcode, Option.isSome_none, Bool.not_eq_false', Bool.or_eq_true, decide_eq_true_eq]
    simp only [imp_false] at *
    omega
  all_goals simp [legalOpcode, *]

/-! ### The fields of a command word -/

/-- A word is its RSVD and its OPC (30_encoding.md R110). -/
theorem commandFields_eq_iff (w : Word) (rsvd : BitVec 24) (opc : BitVec 8) :
    commandFields w = ⟨rsvd, opc⟩ ↔ w = rsvd ++ opc := by
  constructor
  · rintro ⟨⟩
    exact (BitVec.extractLsb'_append_extractLsb' (w := 24) (len := 8)).symm
  · rintro rfl
    rw [commandFields, BitVec.extractLsb'_append_eq_left, BitVec.extractLsb'_append_eq_right]

theorem commandFields_wellFormed_iff (c : CommandFields) :
    c.wellFormed = true ↔ c.rsvd = 0 ∧ ∃ i, opcodeMap c.opc = some i := by
  simp [CommandFields.wellFormed, legalOpcode_eq_isSome, Option.isSome_iff_exists]

/-! ### The decoder -/

/-- The decoder answers a command exactly where both fields allow it (30_encoding.md R111). -/
theorem decode_eq_ok_iff_fields (w : Word) (i : Instr) :
    decode w = .ok i ↔ (commandFields w).rsvd = 0 ∧ opcodeMap (commandFields w).opc = some i := by
  unfold decode
  by_cases hr : (commandFields w).rsvd = 0
  · rw [if_neg (not_not_intro hr)]
    cases opcodeMap (commandFields w).opc <;> simp [hr]
  · rw [if_pos hr]
    exact ⟨nofun, fun h => absurd h.1 hr⟩

/-- A command word is legal exactly when it decodes to a command (30_encoding.md R111, R115). -/
theorem wellFormed_iff_decode_ok (w : Word) : (commandFields w).wellFormed = true ↔ ∃ i, decode w = .ok i := by
  simp only [commandFields_wellFormed_iff, decode_eq_ok_iff_fields, exists_and_left]

/-- Settles O1: both sides say that RSVD is 0 and OPC is the operation code of the command. -/
theorem decodeIsExactlyTheOpcodeMap : Obligations.DecodeIsExactlyTheOpcodeMap := by
  intro w i
  calc decode w = .ok i
      ↔ (commandFields w).rsvd = 0 ∧ opcodeMap (commandFields w).opc = some i := decode_eq_ok_iff_fields w i
    _ ↔ (commandFields w).rsvd = 0 ∧ (commandFields w).opc = opcodeOf i := by rw [opcodeMap_eq_some_iff]
    _ ↔ commandFields w = ⟨0, opcodeOf i⟩ := by rw [CommandFields.mk.injEq]
    _ ↔ w = encode i := commandFields_eq_iff w 0 (opcodeOf i)

/-- Decoding inverts encoding (30_encoding.md R114). -/
theorem decode_encode (i : Instr) : decode (encode i) = .ok i := (decodeIsExactlyTheOpcodeMap (encode i) i).mpr rfl

/-- Settles O2: the listed words are the encodings of their commands, and the rest fail on OPC or on RSVD. -/
theorem listedWordsDecode : Obligations.ListedWordsDecode :=
  ⟨decode_encode .nop, decode_encode .kinit, decode_encode .kabsorb, decode_encode .kfinal, decode_encode .ksqueeze,
    decode_encode .kpermute, decode_encode .khash, decode_encode .aesKeyexp, decode_encode .aesEnc,
    decode_encode .ctrXor, decode_encode .ctrInc, decode_encode .ghSeth, decode_encode .ghUpdate, decode_encode .gfMul,
    decode_encode .gcmJ0, decode_encode .gcmEnc, decode_encode .gcmDec, decode_encode .ecFinv, decode_encode .ecPadd,
    decode_encode .ecPdbl, decode_encode .ecSmul, decode_encode .ecOncurve, decode_encode .ecdsaRecover,
    decode_encode .ecAddr, decode_encode .encWord, decode_encode .eip712Digest, decode_encode .permitDomain,
    decode_encode .permitToken, decode_encode .permitBatch, decode_encode .permitDigest, decode_encode .permitVerify,
    rfl, rfl, rfl, rfl, rfl, rfl, rfl⟩

end Sys2Proof.Machine
end

section
/-! SUPPORT and the settlement of O3: the step in which the engine has the next turn. -/

namespace Sys2Proof.Machine

/-- The engine's turn comes next also when nothing is on the agenda (20_memory.md R95). -/
theorem step_engineNext {s : State} (h : EngineNext s) : step s = engineTurn { s with agenda := s.agenda.tail } := by
  unfold step nextEvent
  rcases h with h | ⟨rest, h⟩
  · obtain ⟨⟩ := s
    cases h
    rfl
  · rw [h]
    simp only [State.popAgenda, h]

theorem runCommand_of_decode_ok {s : State} {i : Instr} (h : decode s.cmd = .ok i) : runCommand s = exec i s := by
  unfold runCommand
  rw [h]

theorem runCommand_of_illegal {s : State} (h : (commandFields s.cmd).wellFormed = false) :
    runCommand s = .next (s.failed .illegalCmd) := by
  unfold runCommand
  cases hd : decode s.cmd with
  | ok i => exact absurd ((wellFormed_iff_decode_ok _).mpr ⟨i, hd⟩) (by simp [h])
  | error e => rfl

/-- Settles O3: the busy engine runs CMD, and CMD decodes to a command exactly when it is legal. -/
theorem engineTurnDecodesTheWord : Obligations.EngineTurnDecodesTheWord := by
  intro s hnext hbusy
  have hstep : step s = runCommand { s with agenda := s.agenda.tail } :=
    (step_engineNext hnext).trans (if_pos hbusy)
  rw [hstep]
  constructor
  · exact fun hill => runCommand_of_illegal hill
  · intro hlegal
    obtain ⟨i, hi⟩ := (wellFormed_iff_decode_ok s.cmd).mp hlegal
    exact ⟨i, hi, runCommand_of_decode_ok hi⟩

end Sys2Proof.Machine
end

section
/-! SUPPORT and the settlement of O56: two runs of one rule, in a state and in the same state with other ARG registers. A
rule whose named operands agree takes the same checks in both and leaves states that differ in ARG alone. -/

namespace Sys2Proof.Machine

/-- The second rule fails as the first does, or leaves the state the first leaves with `args` in ARG. -/
def SameButArgs (args : Vector Word 8) (r r' : Except ErrorCode State) : Prop :=
  r' = r.map fun u => { u with args := args }

/-- The second step answers the state the first answers, with `args` in ARG. -/
def StepSameButArgs (args : Vector Word 8) (o o' : Result) : Prop :=
  ∀ t, o = .next t → o' = .next { t with args := args }

/-! ### What a rule reads besides its operands is not in ARG -/

theorem State.memRead_withOtherArgs (s : State) (args : Vector Word 8) :
    State.memRead { s with args := args } = s.memRead := rfl

theorem State.cipher_withOtherArgs (s : State) (args : Vector Word 8) :
    State.cipher { s with args := args } = s.cipher := rfl

/-! ### From checks and writes to rules -/

section
variable {args : Vector Word 8}

/-- Registers written. -/
theorem SameButArgs.update {u : State} : SameButArgs args (pure u) (pure { u with args := args }) := rfl

/-- A string written to the scratchpad. -/
theorem SameButArgs.memWrite {u : State} {off : Nat} {bs : List Byte} :
    SameButArgs args (pure (u.memWrite off bs)) (pure (State.memWrite { u with args := args } off bs)) := rfl

/-- RESULT written. -/
theorem SameButArgs.answer {u : State} {w : Word} :
    SameButArgs args (pure { u with result := w }) (pure { u with args := args, result := w }) := rfl

/-- A check or a value that both rules compute alike: what follows is reached in both, with one answer. -/
theorem SameButArgs.bind {α : Type} {x : Except ErrorCode α} {k k' : α → Except ErrorCode State}
    (hk : ∀ a, SameButArgs args (k a) (k' a)) : SameButArgs args (x >>= k) (x >>= k') := by
  cases x with
  | error e => rfl
  | ok a => exact hk a

/-- Completion sets the same STATUS fields in both. -/
theorem conclude_sameButArgs {s : State} {r r' : Except ErrorCode State} (h : SameButArgs args r r') :
    StepSameButArgs args (conclude s r) (conclude { s with args := args } r') := by
  subst h
  cases r <;> rintro _ ⟨⟩ <;> rfl

end

/-! ### Every command -/

/-- One case a command: its named operands are rewritten, and then both rules check and write the same. -/
theorem exec_sameButArgs (i : Instr) (s : State) (args : Vector Word 8)
    (hnamed : ∀ k : Fin 8, k.val < argCount i → State.arg { s with args := args } k = s.arg k) :
    StepSameButArgs args (exec i s) (exec i { s with args := args }) := by
  cases i with
  | nop | kinit | kpermute | ctrInc =>
    simp only [exec, execNop, execKinit, execKpermute, execCtrInc]
    exact conclude_sameButArgs .update
  | ghSeth => exact conclude_sameButArgs (.bind fun _ => .update)
  | kabsorb | ghUpdate =>
    simp (disch := decide) only [exec, execKabsorb, execGhUpdate, hnamed]
    exact conclude_sameButArgs (.bind fun _ => .update)
  | khash | gfMul | ecAddr | eip712Digest | permitDomain | permitToken | permitBatch | permitDigest =>
    simp (disch := decide) only [exec, execKhash, execGfMul, execEcAddr, execEip712Digest, execPermitDomain,
      execPermitToken, execPermitBatch, execPermitDigest, hnamed]
    exact conclude_sameButArgs (.bind fun _ => .memWrite)
  | kfinal | aesKeyexp | gcmJ0 =>
    simp (disch := decide) only [exec, execKfinal, execAesKeyexp, execGcmJ0, hnamed]
    exact conclude_sameButArgs (.bind fun _ => .bind fun _ => .update)
  | ctrXor =>
    simp (disch := decide) only [exec, execCtrXor, hnamed, State.memRead_withOtherArgs, State.cipher_withOtherArgs]
    exact conclude_sameButArgs (.bind fun _ => .bind fun _ => .update)
  | gcmEnc =>
    simp (disch := decide) only [exec, execGcmEnc, hnamed, State.memRead_withOtherArgs, State.cipher_withOtherArgs]
    exact conclude_sameButArgs (.bind fun _ => .bind fun _ => .memWrite)
  | ksqueeze | aesEnc | ecdsaRecover | encWord =>
    simp (disch := decide) only [exec, execKsqueeze, execAesEnc, execEcdsaRecover, execEncWord, hnamed]
    exact conclude_sameButArgs (.bind fun _ => .bind fun _ => .memWrite)
  | gcmDec | ecFinv =>
    simp (disch := decide) only [exec, execGcmDec, execEcFinv, hnamed]
    exact conclude_sameButArgs (.bind fun _ => .bind fun _ => .bind fun _ => .memWrite)
  | ecOncurve | permitVerify =>
    simp (disch := decide) only [exec, execEcOncurve, execPermitVerify, hnamed]
    exact conclude_sameButArgs (.bind fun _ => .bind fun _ => .answer)
  | ecPadd | ecPdbl =>
    simp (disch := decide) only [exec, execEcPadd, execEcPdbl, hnamed]
    exact conclude_sameButArgs (.bind fun _ => .bind fun _ => .bind fun _ => .bind fun _ => .memWrite)
  | ecSmul =>
    simp (disch := decide) only [exec, execEcSmul, hnamed]
    exact conclude_sameButArgs (.bind fun _ => .bind fun _ => .bind fun _ => .bind fun _ => .bind fun _ =>
      .bind fun _ => .memWrite)

/-! ### The settlement -/

/-- Settles O56: registers below `argCount` agree, so the operands a command names do (`exec_sameButArgs`). -/
theorem unnamedArgumentsIgnored : Obligations.UnnamedArgumentsIgnored := by
  intro i s t args hargs h
  exact exec_sameButArgs i s args (fun k hk => congrArg BitVec.toNat (hargs k hk)) t h

end Sys2Proof.Machine
end

section
/-! SUPPORT. The step of a command whose checks pass: completion after the writes (60_exceptions.md R353, R360), a string
written to one region, and operands the host has written to ARG (30_encoding.md R116). -/

namespace Sys2Proof.Machine

/-! ### Checks that pass -/

theorem require_bind_of_true {α : Type} {c : Bool} {e : ErrorCode} {k : Unit → Except ErrorCode α} (h : c = true) :
    (require c e >>= k) = k () := by
  rw [require_bind, if_pos h]

theorem requireRegions_bind_of_inBounds {α : Type} {s : State} {rs : List Region} {k : Unit → Except ErrorCode α}
    (h : rs.all s.inBounds = true) : (requireRegions s rs >>= k) = k () :=
  require_bind_of_true h

/-! ### One string written -/

/-- A rule that writes one string to the region it fills, and then completes (20_memory.md R82; 60_exceptions.md R360). -/
theorem wroteOnly_memWrite (s : State) (off n : Nat) (bs : List Byte) (h : bs.length = n) :
    WroteOnly s ((s.memWrite off bs).complete .ok) ⟨off, n⟩ bs := by
  refine ⟨rfl, h, ?_, fun a ha => ?_⟩
  · subst h
    exact s.memRead_memWrite_same off bs
  · exact s.readByte_memWrite_outside off n bs h a (ha _ (List.mem_singleton_self _))

/-! ### Parts of a string in the scratchpad -/

/-- The first bytes of a string in the scratchpad (20_memory.md R81). -/
theorem State.take_memRead (s : State) (off : Nat) {n k : Nat} (h : k ≤ n) :
    (s.memRead off n).take k = s.memRead off k := by
  simpa [slice] using s.slice_memRead off n 0 k h

/-- What follows the first bytes of a string in the scratchpad (20_memory.md R81). -/
theorem State.drop_memRead (s : State) (off n k : Nat) : (s.memRead off n).drop k = s.memRead (off + k) (n - k) := by
  rw [← s.slice_memRead off n k n le_rfl, slice, List.take_of_length_le (by simp)]

/-! ### Operands -/

@[simp] theorem State.withArgs_params (s : State) (l : List Nat) : (s.withArgs l).params = s.params := rfl

/-- An operand that fits a register is read back from ARG (10_state.md R31). -/
theorem State.arg_withArgs (s : State) (l : List Nat) (i : Fin 8) {v : Nat} (hv : l.getD i 0 = v) (hlt : v < 2 ^ 32) :
    (s.withArgs l).arg i = v := by
  subst hv
  simp only [State.arg, State.withArgs, Fin.getElem_fin, tabulate_get, BitVec.toNat_ofNat]
  exact Nat.mod_eq_of_lt hlt

/-- Offsets inside a legal scratchpad fit an ARG register (00_scope.md R6). -/
theorem spmBytes_lt {p : Params} (h : p.wellFormed = true) : p.spmBytes < 2 ^ 32 := by
  simp only [Params.wellFormed, Bool.and_eq_true, decide_eq_true_eq] at h
  omega

end Sys2Proof.Machine
end

section
/-! SUPPORT and the settlements of O21 and O23: the step mappings lane by lane, absorbing block by block, the padded block
byte by byte (40_keccak.md R140 to R152). -/

namespace Sys2Proof.Machine

/-! ### The step mappings -/

@[simp] theorem columnParity_mod (A : Lanes) (x : Nat) : columnParity A (x % 5) = columnParity A x := by
  simp [columnParity]

section
variable (A : Lanes) {x y : Nat} (hx : x < 5) (hy : y < 5)
include hx hy

theorem lane_theta : lane (theta A) x y
    = lane A x y ^^^ (columnParity A (x + 4) ^^^ rotl64 (columnParity A (x + 1)) 1) := by
  rw [theta, lane_lanesOf _ hx hy, columnParity_mod, columnParity_mod]

theorem lane_rho : lane (rho A) x y = rotl64 (lane A x y) (rotationOffset x y) := lane_lanesOf _ hx hy

theorem lane_piStep : lane (piStep A) x y = lane A (x + 3 * y) x := lane_lanesOf _ hx hy

theorem lane_chi : lane (chi A) x y = lane A x y ^^^ (~~~(lane A (x + 1) y) &&& lane A (x + 2) y) :=
  lane_lanesOf _ hx hy

theorem lane_iota (rc : Lane) : lane (iota A rc) x y = if x = 0 ∧ y = 0 then lane A 0 0 ^^^ rc else lane A x y := by
  rw [iota, lane_lanesOf _ hx hy]
  split
  · next h =>
    obtain ⟨rfl, rfl⟩ := h
    rfl
  · rfl

end

/-- The rows of the table of 40_keccak.md R141, one after the other. -/
theorem rotationOffset_eq_flatten {x y : Nat} (hx : x < 5) (hy : y < 5) :
    rotationOffset x y = rotationOffsets.flatten.getD (x + 5 * y) 0 := by
  interval_cases x <;> interval_cases y <;> rfl

/-- Settles O21: one lemma a step mapping, and Keccak-f is the fold of their composition. -/
theorem keccakStepMappings : Obligations.KeccakStepMappings := by
  refine ⟨fun A rc x y hx hy => ⟨lane_theta A hx hy, ?_, ?_, lane_chi A hx hy, lane_iota A hx hy rc⟩, fun A => rfl⟩
  · rw [lane_rho A hx hy, rotationOffset_eq_flatten hx hy]
    rfl
  · rw [lane_piStep A hx hy, lane_mod]

/-! ### Absorbing -/

/-- XORing a block into a state, element by element (40_keccak.md R150). -/
theorem xorBlock_eq_ofFn (A : Lanes) (B : List Byte) :
    xorBlock A B = Vector.ofFn fun i : Fin 25 =>
      if i.val < 17 then A[i] ^^^ BitVec.ofNat 64 (le (slice B (8 * i.val) (8 * i.val + 8))) else A[i] := by
  apply Vector.ext
  intro i hi
  simp only [xorBlock, lanesOf, tabulate_get _ _ _ hi, Vector.getElem_ofFn, lane_eq_getElem A i hi, Fin.getElem_fin,
    show i % 5 + 5 * (i / 5) = i by omega]

/-- A part of what follows the first k bytes (00_scope.md R8). -/
theorem slice_drop (b : List Byte) (k i j : Nat) : slice (b.drop k) i j = slice b (k + i) (k + j) := by
  simp [slice, Nat.add_sub_add_left]

/-- Absorbing block after block folds over the block numbers (40_keccak.md R152). -/
theorem absorbBlocks_eq_foldl (n : Nat) (A : Lanes) (M : List Byte) :
    absorbBlocks n A M = (List.range n).foldl (fun A j => absorb A (slice M (136 * j) (136 * j + 136))) A := by
  induction n generalizing A M with
  | zero => rfl
  | succ n ih =>
    have shift (j : Nat) : slice (M.drop 136) (136 * j) (136 * j + 136)
        = slice M (136 * (j + 1)) (136 * (j + 1) + 136) := by
      rw [slice_drop]
      congr 1 <;> ring
    have first : slice M (136 * 0) (136 * 0 + 136) = M.take 136 := rfl
    rw [absorbBlocks, ih, List.range_succ_eq_map, List.foldl_cons, List.foldl_map, first]
    simp only [shift, Nat.succ_eq_add_one]

/-- Absorbing n blocks reads the first 136 n bytes alone. -/
theorem absorbBlocks_take (n : Nat) (A : Lanes) (M : List Byte) :
    absorbBlocks n A (M.take (136 * n)) = absorbBlocks n A M := by
  induction n generalizing A M with
  | zero => rfl
  | succ n ih =>
    rw [absorbBlocks, absorbBlocks, List.take_take, List.drop_take, Nat.min_eq_left (by omega),
      show 136 * (n + 1) - 136 = 136 * n by omega, ih]

/-- A whole message is its full blocks and the padded rest (40_keccak.md R152). -/
theorem spongeState_eq_take_drop (M : List Byte) :
    spongeState M = absorb (absorbBlocks (M.length / 136) zeroLanes (M.take (136 * (M.length / 136))))
      (pad (M.drop (136 * (M.length / 136)))) := by
  rw [absorbBlocks_take, spongeState]

/-- The same of a message in the scratchpad: its full blocks and its rest lie one after the other. -/
theorem spongeState_memRead (s : State) (src len : Nat) :
    spongeState (s.memRead src len)
      = absorb (absorbBlocks (len / 136) zeroLanes (s.memRead src (136 * (len / 136))))
          (pad (s.memRead (src + 136 * (len / 136)) (len - 136 * (len / 136)))) := by
  rw [spongeState_eq_take_drop, State.memRead_length, State.take_memRead _ _ (by omega), State.drop_memRead]

/-! ### Padding -/

theorem pad_of_length_eq {M : List Byte} (h : M.length = 135) : pad M = M ++ [0x81] := if_pos h

theorem pad_of_length_ne {M : List Byte} (h : M.length ≠ 135) :
    pad M = M ++ [0x01] ++ zeros (134 - M.length) ++ [0x80] := if_neg h

theorem getD_zeros (n i : Nat) : (zeros n).getD i 0 = 0 := by
  rcases lt_or_ge i n with h | h
  · exact List.getD_replicate _ h
  · exact List.getD_eq_default _ _ (by simpa using h)

/-- The bytes of the padded block: the message, 0x01, zeros, and bit 7 of the last byte set (40_keccak.md R149). -/
theorem getD_pad {M : List Byte} (hM : M.length < 136) {j : Nat} (hj : j < 136) :
    (pad M).getD j 0 =
      (if j < M.length then M.getD j 0 else if j = M.length then 0x01 else 0x00) ||| (if j = 135 then 0x80 else 0x00) := by
  by_cases hfull : M.length = 135
  · rw [pad_of_length_eq hfull]
    by_cases hin : j < M.length
    · rw [List.getD_append _ _ _ _ hin, if_pos hin, if_neg (by omega)]
      exact (BitVec.or_zero).symm
    · obtain rfl : j = 135 := by omega
      simp [hfull]
  · rw [pad_of_length_ne hfull]
    have hfront : (M ++ [0x01] ++ zeros (134 - M.length)).length = 135 := by
      simp only [List.length_append, List.length_singleton, zeros_length]
      omega
    by_cases hlast : j = 135
    · subst hlast
      rw [List.getD_append_right _ _ _ _ hfront.le, hfront, if_neg (by omega), if_neg (Ne.symm hfull)]
      rfl
    · rw [List.getD_append _ _ _ _ (by omega), if_neg hlast]
      rcases lt_trichotomy j M.length with hin | rfl | hout
      · simp [List.getElem?_append, hin]
      · simp
      · rw [List.getD_append_right _ _ _ _ (by simpa using hout), getD_zeros, if_neg (by omega), if_neg (by omega)]
        rfl

/-- Settles O23: the lengths and bytes of the padded block, and the message cut into its full blocks and its rest. -/
theorem paddingOfTheLastBlock : Obligations.PaddingOfTheLastBlock := by
  refine ⟨fun M hM => ⟨pad_length M hM, fun j hj => getD_pad hM hj, pad_of_length_eq⟩, rfl, fun M => ?_⟩
  exact spongeState_eq_take_drop M

end Sys2Proof.Machine
end

section
/-! SUPPORT and the settlements of O22 and O24 to O26: the four sponge commands that have operands, first with their
checks passed, then with the operands the host has written, then in sequence (40_keccak.md R155 to R160). -/

namespace Sys2Proof.Machine

/-! ### The commands with their checks passed -/

section
variable {s : State}

theorem exec_kabsorb_of_ready (h : Ready .kabsorb s) :
    exec .kabsorb s = .next { s.succeeded with
      kstate := absorbBlocks (s.arg 1) s.kstate (s.memRead (s.arg 0) (136 * s.arg 1)) } := by
  obtain ⟨-, hbounds, -⟩ := h
  exact congrArg (conclude s) (requireRegions_bind_of_inBounds hbounds)

theorem exec_kfinal_of_ready (h : Ready .kfinal s) :
    exec .kfinal s = .next { s.succeeded with kstate := absorb s.kstate (pad (s.memRead (s.arg 0) (s.arg 1))) } := by
  obtain ⟨hlen, hbounds, -⟩ := h
  refine (congrArg (conclude s) (require_bind_of_true hlen)).trans ?_
  exact congrArg (conclude s) (requireRegions_bind_of_inBounds hbounds)

theorem exec_ksqueeze_of_ready (h : Ready .ksqueeze s) :
    exec .ksqueeze s = .next ((s.memWrite (s.arg 0) (squeeze s.kstate (s.arg 1))).complete .ok) := by
  obtain ⟨hlen, hbounds, -⟩ := h
  refine (congrArg (conclude s) (require_bind_of_true hlen)).trans ?_
  exact congrArg (conclude s) (requireRegions_bind_of_inBounds hbounds)

theorem exec_khash_of_ready (h : Ready .khash s) :
    exec .khash s = .next ((State.memWrite { s with kstate := spongeState (s.memRead (s.arg 0) (s.arg 1)) } (s.arg 2)
      (keccak256 (s.memRead (s.arg 0) (s.arg 1)))).complete .ok) := by
  obtain ⟨-, hbounds, -⟩ := h
  exact congrArg (conclude s) (requireRegions_bind_of_inBounds hbounds)

end

/-- Settles O22: the two rules with their checks passed, and absorbing as a fold over lanes and blocks. -/
theorem kabsorbKfinalResults : Obligations.KabsorbKfinalResults := by
  refine ⟨fun s h => exec_kabsorb_of_ready h, fun s h hzero => ?_, fun s h => exec_kfinal_of_ready h,
    fun A B => congrArg keccakF (xorBlock_eq_ofFn A B), absorbBlocks_eq_foldl⟩
  rw [exec_kabsorb_of_ready h, hzero]
  rfl

/-- Settles O24: a legal length is at most the 200 state bytes, so the string fills its region. -/
theorem ksqueezeResult : Obligations.KsqueezeResult := by
  intro s h
  have ⟨hlegal, _, _⟩ := h
  have hlen : s.arg 1 ≤ 136 := of_decide_eq_true hlegal
  have hsize : (squeeze s.kstate (s.arg 1)).length = s.arg 1 := (squeeze_length _ _).trans (by omega)
  exact ⟨_, exec_ksqueeze_of_ready h, wroteOnly_memWrite s _ _ _ hsize⟩

/-- Settles O25: the rule writes KSTATE and then the digest, its first 32 bytes. -/
theorem khashResult : Obligations.KhashResult := by
  intro s h
  let M := s.memRead (s.arg 0) (s.arg 1)
  obtain ⟨-, -, hread, hkept⟩ :=
    wroteOnly_memWrite { s with kstate := spongeState M } (s.arg 2) 32 (keccak256 M) (keccak256_length M)
  exact ⟨_, exec_khash_of_ready h, rfl, keccak256_length M, rfl, hread, hkept⟩

/-! ### The commands with operands written by the host -/

/-- `t` follows `s` with `A` in KSTATE, and with the scratchpad and the parameters as they were. -/
structure SpongeStep (s t : State) (A : Lanes) : Prop where
  kstate : t.kstate = A
  spm : t.spm = s.spm
  params : t.params = s.params

theorem SpongeStep.trans {s t u : State} {A B : Lanes} (h : SpongeStep s t A) (h' : SpongeStep t u B) :
    SpongeStep s u B :=
  ⟨h'.kstate, h'.spm.trans h.spm, h'.params.trans h.params⟩

theorem SpongeStep.memRead {s t : State} {A : Lanes} (h : SpongeStep s t A) (off n : Nat) :
    t.memRead off n = s.memRead off n :=
  State.memRead_congr fun a _ _ => State.readByte_congr h.spm a

theorem exec_kinit_step (s : State) : ∃ t, exec .kinit s = .next t ∧ SpongeStep s t zeroLanes :=
  ⟨_, rfl, rfl, rfl, rfl⟩

section
variable (s : State) (hp : s.params.spmBytes < 2 ^ 32)
include hp

/-- KABSORB of n blocks at src (40_keccak.md R156). -/
theorem exec_kabsorb_withArgs {src n : Nat} (hsrc : src + 136 * n ≤ s.params.spmBytes) :
    ∃ t, exec .kabsorb (s.withArgs [src, n]) = .next t
      ∧ SpongeStep s t (absorbBlocks n s.kstate (s.memRead src (136 * n))) := by
  have h0 : (s.withArgs [src, n]).arg 0 = src := s.arg_withArgs _ 0 rfl (by omega)
  have h1 : (s.withArgs [src, n]).arg 1 = n := s.arg_withArgs _ 1 rfl (by omega)
  have hready : Ready .kabsorb (s.withArgs [src, n]) := by
    refine ⟨rfl, ?_, nofun⟩
    simpa [operandRegions, State.inBounds_iff, h0, h1] using hsrc
  refine ⟨_, exec_kabsorb_of_ready hready, ?_⟩
  rw [h0, h1]
  exact ⟨rfl, rfl, rfl⟩

/-- KFINAL of the len bytes at src (40_keccak.md R157). -/
theorem exec_kfinal_withArgs {src len : Nat} (hlen : len ≤ 135) (hsrc : src + len ≤ s.params.spmBytes) :
    ∃ t, exec .kfinal (s.withArgs [src, len]) = .next t
      ∧ SpongeStep s t (absorb s.kstate (pad (s.memRead src len))) := by
  have h0 : (s.withArgs [src, len]).arg 0 = src := s.arg_withArgs _ 0 rfl (by omega)
  have h1 : (s.withArgs [src, len]).arg 1 = len := s.arg_withArgs _ 1 rfl (by omega)
  have hready : Ready .kfinal (s.withArgs [src, len]) := by
    refine ⟨?_, ?_, nofun⟩
    · simpa [lengthsLegal, h1] using hlen
    · simpa [operandRegions, State.inBounds_iff, h0, h1] using hsrc
  refine ⟨_, exec_kfinal_of_ready hready, ?_⟩
  rw [h0, h1]
  exact ⟨rfl, rfl, rfl⟩

/-- KSQUEEZE of len bytes to dst (40_keccak.md R158). -/
theorem exec_ksqueeze_withArgs {dst len : Nat} (hlen : len ≤ 136) (hdst : dst + len ≤ s.params.spmBytes) :
    exec .ksqueeze (s.withArgs [dst, len])
      = .next (((s.withArgs [dst, len]).memWrite dst (squeeze s.kstate len)).complete .ok) := by
  have h0 : (s.withArgs [dst, len]).arg 0 = dst := s.arg_withArgs _ 0 rfl (by omega)
  have h1 : (s.withArgs [dst, len]).arg 1 = len := s.arg_withArgs _ 1 rfl (by omega)
  have hready : Ready .ksqueeze (s.withArgs [dst, len]) := by
    refine ⟨?_, ?_, nofun⟩
    · simpa [lengthsLegal, h1] using hlen
    · simpa [operandRegions, State.inBounds_iff, h0, h1] using hdst
  rw [exec_ksqueeze_of_ready hready, h0, h1]
  rfl

/-- KHASH of the len bytes at src to dst (40_keccak.md R160). -/
theorem exec_khash_withArgs {src len dst : Nat} (hsrc : src + len ≤ s.params.spmBytes)
    (hdst : dst + 32 ≤ s.params.spmBytes) :
    exec .khash (s.withArgs [src, len, dst])
      = .next ((State.memWrite { s.withArgs [src, len, dst] with kstate := spongeState (s.memRead src len) } dst
          (keccak256 (s.memRead src len))).complete .ok) := by
  have h0 : (s.withArgs [src, len, dst]).arg 0 = src := s.arg_withArgs _ 0 rfl (by omega)
  have h1 : (s.withArgs [src, len, dst]).arg 1 = len := s.arg_withArgs _ 1 rfl (by omega)
  have h2 : (s.withArgs [src, len, dst]).arg 2 = dst := s.arg_withArgs _ 2 rfl (by omega)
  have hready : Ready .khash (s.withArgs [src, len, dst]) := by
    refine ⟨rfl, ?_, nofun⟩
    simpa [operandRegions, State.inBounds_iff, h0, h1, h2] using And.intro hsrc hdst
  rw [exec_khash_of_ready hready, h0, h1, h2]
  rfl

/-! ### Streaming -/

/-- KINIT, KABSORB of the full blocks and KFINAL of the rest leave the state of the whole message in KSTATE
(40_keccak.md R152, R155 to R157). -/
theorem stream_reaches_spongeState {src len : Nat} (hsrc : src + len ≤ s.params.spmBytes) :
    ∃ s1 s2 s3, exec .kinit s = .next s1
      ∧ exec .kabsorb (s1.withArgs [src, len / 136]) = .next s2
      ∧ exec .kfinal (s2.withArgs [src + 136 * (len / 136), len - 136 * (len / 136)]) = .next s3
      ∧ SpongeStep s s3 (spongeState (s.memRead src len)) := by
  obtain ⟨s1, hinit, step1⟩ := exec_kinit_step s
  obtain ⟨s2, habsorb, step2⟩ := exec_kabsorb_withArgs s1 (src := src) (n := len / 136)
    (by rwa [step1.params]) (by rw [step1.params]; omega)
  obtain ⟨s3, hfinal, step3⟩ := exec_kfinal_withArgs s2
    (src := src + 136 * (len / 136)) (len := len - 136 * (len / 136))
    (by rwa [step2.params, step1.params]) (by omega) (by rw [step2.params, step1.params]; omega)
  refine ⟨s1, s2, s3, hinit, habsorb, hfinal, ?_⟩
  have step := (step1.trans step2).trans step3
  rwa [(step1.trans step2).memRead, step2.kstate, step1.memRead, step1.kstate, ← spongeState_memRead] at step

end

/-- Settles O26: both ways put `spongeState` of the message into KSTATE (`stream_reaches_spongeState`), and both then
write its first 32 bytes to the scratchpad the message was read from. -/
theorem streamingHashEqualsKhash : Obligations.StreamingHashEqualsKhash := by
  intro s src len dst hwf hsrc hdst
  have hp := spmBytes_lt hwf
  obtain ⟨s1, s2, s3, hinit, habsorb, hfinal, hstep⟩ := stream_reaches_spongeState s hp hsrc
  have hsqueeze := exec_ksqueeze_withArgs s3 (dst := dst) (len := 32) (by rwa [hstep.params]) (by omega)
    (by rwa [hstep.params])
  refine ⟨s1, s2, s3, _, _, hinit, habsorb, hfinal, hsqueeze, exec_khash_withArgs s hp hsrc hdst, rfl, rfl,
    hstep.kstate, ?_, State.readByte_congr ?_⟩
  · have hwrote := State.memRead_memWrite_same (s.withArgs [src, len, dst]) dst (keccak256 (s.memRead src len))
    rwa [keccak256_length] at hwrote
  · show Memory.writeBytes s3.spm dst (squeeze s3.kstate 32) = Memory.writeBytes s.spm dst (keccak256 _)
    rw [hstep.spm, hstep.kstate, keccak256]

end Sys2Proof.Machine
end

section
/-! SUPPORT and the settlement of O30: the byte field, the S-box as the affine map of the inverse, the round functions
byte by byte, and the cipher (41_aes.md R181 to R188). -/

namespace Sys2Proof.Machine

/-! ### The field and the S-box -/

/-- One round of the product: the sum takes `xtime^i(a)` where bit i of b is 1 (41_aes.md R181). -/
def gf8Step (a b z : Byte) (i : Nat) : Byte := if b.getLsbD i then z ^^^ xtime^[i] a else z

/-- The loop of the product carries the sum so far and `xtime^n(a)` (41_aes.md R181). -/
theorem gf8Loop_eq (a b : Byte) (n : Nat) :
    (List.range n).foldl (fun (zv : Byte × Byte) i => (if b.getLsbD i then zv.1 ^^^ zv.2 else zv.1, xtime zv.2)) (0, a)
      = ((List.range n).foldl (gf8Step a b) 0, xtime^[n] a) := by
  induction n with
  | zero => rfl
  | succ n ih =>
    rw [List.range_succ, List.foldl_append, ih, List.foldl_append, Function.iterate_succ_apply']
    rfl

theorem gf8Mul_eq_foldl (a b : Byte) : gf8Mul a b = (List.range 8).foldl (gf8Step a b) 0 :=
  congrArg Prod.fst (gf8Loop_eq a b 8)

/-- The affine map of the S-box (41_aes.md R182). -/
def sboxAffine (b : Byte) : Byte :=
  b ^^^ b.rotateLeft 1 ^^^ b.rotateLeft 2 ^^^ b.rotateLeft 3 ^^^ b.rotateLeft 4 ^^^ 0x63

/-- The map that undoes `sboxAffine`. -/
def sboxAffineInv (y : Byte) : Byte := y.rotateLeft 1 ^^^ y.rotateLeft 3 ^^^ y.rotateLeft 6 ^^^ 0x05

theorem sboxAffine_sboxAffineInv : ∀ y : Byte, sboxAffine (sboxAffineInv y) = y := by decide +kernel

theorem sboxAffineInv_sbox_zero : sboxAffineInv (sbox 0) = 0 := by decide

/-- Entry by entry of the table: with the affine map undone, SBOX[v] is the inverse of v (41_aes.md R182). -/
theorem gf8Mul_sboxAffineInv_sbox : ∀ v : Byte, v ≠ 0 → gf8Mul v (sboxAffineInv (sbox v)) = 1 := by decide +kernel

/-- SBOX[v] is the affine map of the inverse of v, of 0 for v = 0 (41_aes.md R182). -/
theorem sbox_eq_sboxAffine_inverse (v : Byte) :
    ∃ b : Byte, (if v = 0 then b = 0 else gf8Mul v b = 1) ∧ sbox v = sboxAffine b := by
  refine ⟨sboxAffineInv (sbox v), ?_, (sboxAffine_sboxAffineInv _).symm⟩
  split
  · next hv => rw [hv, sboxAffineInv_sbox_zero]
  · next hv => exact gf8Mul_sboxAffineInv_sbox v hv

/-! ### The round functions and the cipher -/

section
variable (s : List Byte) {r c : Nat} (hr : r < 4) (hc : c < 4)
include hr hc

theorem stateByte_subBytes : stateByte (subBytes s) r c = sbox (stateByte s r c) :=
  stateByte_stateOf _ hr hc

theorem stateByte_shiftRows : stateByte (shiftRows s) r c = stateByte s r ((c + r) % 4) :=
  stateByte_stateOf _ hr hc

theorem stateByte_addRoundKey (w : Vector Word 60) (rd : Nat) :
    stateByte (addRoundKey w s rd) r c = stateByte s r c ^^^ wordByte (w.toList.getD (4 * rd + c) 0) r :=
  stateByte_stateOf _ hr hc

/-- Each row of the matrix is the row above it rotated (41_aes.md R186). -/
theorem stateByte_mixColumns :
    stateByte (mixColumns s) r c
      = gf8Mul 2 (stateByte s r c) ^^^ gf8Mul 3 (stateByte s ((r + 1) % 4) c)
        ^^^ stateByte s ((r + 2) % 4) c ^^^ stateByte s ((r + 3) % 4) c :=
  stateByte_stateOf _ hr hc

end

/-- A middle round (41_aes.md R188). -/
def middleRound (w : Vector Word 60) (s : List Byte) (rd : Nat) : List Byte :=
  addRoundKey w (mixColumns (shiftRows (subBytes s))) rd

/-- The middle rounds fold over their numbers (41_aes.md R188). -/
theorem middleRounds_eq_foldl (w : Vector Word 60) (n rd : Nat) (s : List Byte) :
    middleRounds w n rd s = (List.range n).foldl (fun s k => middleRound w s (k + rd)) s := by
  induction n generalizing rd s with
  | zero => rfl
  | succ n ih =>
    rw [middleRounds, ih, List.range_succ_eq_map, List.foldl_cons, List.foldl_map, Nat.zero_add, middleRound]
    simp only [Nat.succ_add_eq_add_succ]

/-- Settles O30: the product as the first half of its loop, the S-box through the inverse of its affine map, the middle
rounds as a fold, and one lemma a round function. -/
theorem aesRoundFunctions : Obligations.AesRoundFunctions := by
  refine ⟨gf8Mul_eq_foldl, sbox_eq_sboxAffine_inverse, fun w nr input => ?_, fun s w rd r c hr hc =>
    ⟨stateByte_subBytes s hr hc, stateByte_shiftRows s hr hc, ?_, ?_, ?_, ?_, stateByte_addRoundKey s hr hc w rd⟩⟩
  · rw [aesEncrypt, middleRounds_eq_foldl]
    rfl
  · exact stateByte_mixColumns s (by decide) hc
  all_goals
    simp (disch := decide) only [stateByte_mixColumns s _ hc, Nat.reduceAdd, Nat.reduceMod]
    ac_rfl

end Sys2Proof.Machine
end

section
/-! SUPPORT and the settlements of O27 to O29: the bytes of a word, the key schedule word by word, and the two AES
commands with their checks passed (41_aes.md R183, R190, R191). -/

namespace Sys2Proof.Machine

/-! ### The bytes of a word -/

theorem wordByte_eq_extractLsb' (w : Word) (j : Nat) : wordByte w j = w.extractLsb' (8 * (3 - j)) 8 := rfl

theorem wordByte_eq_getD_beBytes (w : Word) {j : Nat} (hj : j < 4) : wordByte w j = (beBytes 4 w.toNat).getD j 0 := by
  interval_cases j <;> rfl

/-- The bytes of a word made of 4 bytes are those bytes. -/
theorem wordByte_bytesWord {b : List Byte} (h : b.length = 4) {j : Nat} (hj : j < 4) :
    wordByte (bytesWord b) j = b.getD j 0 := by
  have hb : be b < 2 ^ 32 := (be_lt b).trans_eq (by rw [h]; rfl)
  rw [wordByte_eq_getD_beBytes _ hj, bytesWord, BitVec.toNat_ofNat, Nat.mod_eq_of_lt hb, ← h, beBytes_be]

theorem wordByte_subWord (w : Word) {j : Nat} (hj : j < 4) : wordByte (subWord w) j = sbox (wordByte w j) := by
  rw [subWord, wordByte_bytesWord rfl hj]
  interval_cases j <;> rfl

/-- A rotation by 8 bits moves each byte one place on (41_aes.md R183). -/
theorem wordByte_rotWord (w : Word) {j : Nat} (hj : j < 4) : wordByte (rotWord w) j = wordByte w ((j + 1) % 4) := by
  rw [wordByte_eq_extractLsb', wordByte_eq_extractLsb', rotWord]
  apply BitVec.eq_of_getLsbD_eq
  intro k hk
  simp only [BitVec.getLsbD_extractLsb', BitVec.getLsbD_rotateLeft, hk, decide_true, Bool.true_and]
  rcases Nat.lt_or_ge j 3 with h3 | h3
  · rw [decide_eq_false (by omega), cond_false, decide_eq_true (by omega), Bool.true_and]
    congr 1
    omega
  · obtain rfl : j = 3 := by omega
    simp [hk]

/-! ### The key schedule -/

/-- Extending the schedule keeps the words it has. -/
theorem suffix_extendSchedule (nk n i : Nat) (ws : List Word) : ws <:+ extendSchedule nk n i ws := by
  induction n generalizing i ws with
  | zero => exact List.suffix_rfl
  | succ n ih => exact (List.suffix_cons _ _).trans (ih _ _)

theorem getD_reverse_of_suffix {α : Type} {l ws : List α} {a d : α} (h : a :: ws <:+ l) :
    l.reverse.getD ws.length d = a := by
  obtain ⟨newer, rfl⟩ := h
  simp

theorem take_reverse_of_suffix {α : Type} {l ws : List α} (h : ws <:+ l) : l.reverse.take ws.length = ws.reverse := by
  rw [← List.length_reverse]
  exact (List.prefix_iff_eq_take.mp (List.reverse_prefix.mpr h)).symm

/-- The schedule in order: each new word comes from the words before it (41_aes.md R183). -/
theorem getD_extendSchedule (nk n : Nat) (ws : List Word) {k : Nat} (hk : ws.length ≤ k) (hn : k < n + ws.length) :
    (extendSchedule nk n ws.length ws).reverse.getD k 0
      = scheduleWord nk k ((extendSchedule nk n ws.length ws).reverse.take k).reverse := by
  induction n generalizing ws with
  | zero => omega
  | succ n ih =>
    have step : extendSchedule nk (n + 1) ws.length ws
        = extendSchedule nk n (scheduleWord nk ws.length ws :: ws).length (scheduleWord nk ws.length ws :: ws) := rfl
    rcases Nat.eq_or_lt_of_le hk with rfl | hlt
    · rw [take_reverse_of_suffix (suffix_extendSchedule ..), List.reverse_reverse, step]
      exact getD_reverse_of_suffix (suffix_extendSchedule ..)
    · rw [step]
      exact ih _ hlt (by rw [List.length_cons]; omega)

theorem getD_reverse_take {α : Type} (l : List α) (d : α) {k j : Nat} (hj : j < k) (hk : k ≤ l.length) :
    (l.take k).reverse.getD j d = l.getD (k - 1 - j) d := by
  have hlen : (l.take k).length = k := List.length_take_of_le hk
  rw [List.getD_eq_getElem _ _ (by rw [List.length_reverse, hlen]; exact hj), List.getD_eq_getElem _ _ (by omega)]
  simp [hlen]

/-- The recurrence of the schedule, on a list in order (41_aes.md R183). -/
theorem scheduleWord_reverse_take (l : List Word) {nk k : Nat} (hnk : 0 < nk) (hk : nk ≤ k) (hl : k ≤ l.length) :
    scheduleWord nk k (l.take k).reverse = l.getD (k - nk) 0 ^^^
      (if k % nk = 0 then subWord (rotWord (l.getD (k - 1) 0)) ^^^ rconWord (k / nk)
      else if nk = 8 ∧ k % 8 = 4 then subWord (l.getD (k - 1) 0)
      else l.getD (k - 1) 0) := by
  rw [scheduleWord, getD_reverse_take l 0 (by omega) hl, getD_reverse_take l 0 (by omega) hl, Nat.sub_zero,
    show k - 1 - (nk - 1) = k - nk by omega]

section
variable (K : List Byte)

/-- The words the key itself gives, in order (41_aes.md R183). -/
def keyWords : List Word := (List.range (K.length / 4)).map fun i => bytesWord (slice K (4 * i) (4 * i + 4))

theorem keyWords_reverse_length : (keyWords K).reverse.length = K.length / 4 := by simp [keyWords]

/-- The expansion extends the words of the key to 4(Nr + 1) words (41_aes.md R183). -/
theorem keyExpansion_eq_extendSchedule :
    keyExpansion K = (extendSchedule (K.length / 4) (4 * (roundsOf K.length + 1) - K.length / 4)
      (keyWords K).reverse.length (keyWords K).reverse).reverse := by
  rw [keyWords_reverse_length]
  rfl

theorem getD_keyExpansion_key {i : Nat} (hi : i < K.length / 4) :
    (keyExpansion K).getD i 0 = bytesWord (slice K (4 * i) (4 * i + 4)) := by
  have hfirst : keyWords K <+: keyExpansion K := by
    rw [keyExpansion_eq_extendSchedule, ← List.reverse_suffix, List.reverse_reverse]
    exact suffix_extendSchedule ..
  obtain ⟨later, hlater⟩ := hfirst
  rw [← hlater, List.getD_append _ _ _ _ (by simpa [keyWords] using hi)]
  simp [keyWords, hi]

theorem getD_keyExpansion_later {k : Nat} (hnk : 0 < K.length / 4) (hk : K.length / 4 ≤ k)
    (hn : k < (keyExpansion K).length) :
    (keyExpansion K).getD k 0 = (keyExpansion K).getD (k - K.length / 4) 0 ^^^
      (if k % (K.length / 4) = 0 then
        subWord (rotWord ((keyExpansion K).getD (k - 1) 0)) ^^^ rconWord (k / (K.length / 4))
      else if K.length / 4 = 8 ∧ k % 8 = 4 then subWord ((keyExpansion K).getD (k - 1) 0)
      else (keyExpansion K).getD (k - 1) 0) := by
  have hword : (keyExpansion K).getD k 0 = scheduleWord (K.length / 4) k ((keyExpansion K).take k).reverse := by
    rw [keyExpansion_eq_extendSchedule, List.length_reverse, extendSchedule_length] at hn
    rw [keyExpansion_eq_extendSchedule]
    exact getD_extendSchedule _ _ _ (by rwa [keyWords_reverse_length]) hn
  rw [hword, scheduleWord_reverse_take _ hnk hk hn.le]

end

/-- Settles O28: the bytes of a rotated and of a substituted word, and each word of the expansion from those
before it. -/
theorem keyScheduleRecurrence : Obligations.KeyScheduleRecurrence := by
  refine ⟨fun w j hj =>
    ⟨wordByte_eq_extractLsb' w j, wordByte_rotWord w hj, wordByte_subWord w hj⟩, fun K hK => ?_⟩
  have hlen : (keyExpansion K).length = 4 * (K.length / 4 + 7) := keyExpansion_length K hK
  refine ⟨hlen, fun i hi => getD_keyExpansion_key K hi, fun k hk hn => ?_⟩
  exact getD_keyExpansion_later K (by omega) hk (by rwa [hlen])

/-! ### The commands with their checks passed -/

section
variable {s : State}

theorem keyLength_of_ready (h : Ready .aesKeyexp s) : s.arg 1 = 16 ∨ s.arg 1 = 24 ∨ s.arg 1 = 32 := by
  obtain ⟨hlen, -, -⟩ := h
  simpa [lengthsLegal, or_assoc] using hlen

theorem exec_aesKeyexp_of_ready (h : Ready .aesKeyexp s) :
    exec .aesKeyexp s = .next { s.succeeded with
      rk := tabulate 60 fun i => (keyExpansion (s.memRead (s.arg 0) (s.arg 1))).getD i 0
      aesnr := BitVec.ofNat 32 (roundsOf (s.arg 1)) } := by
  have hlen := keyLength_of_ready h
  obtain ⟨-, hbounds, -⟩ := h
  refine (congrArg (conclude s) (require_bind_of_true (decide_eq_true hlen))).trans ?_
  exact congrArg (conclude s) (requireRegions_bind_of_inBounds hbounds)

theorem exec_aesEnc_of_ready (h : Ready .aesEnc s) :
    exec .aesEnc s = .next ((s.memWrite (s.arg 1)
      (blockBytes (s.cipher (bytesBlock (s.memRead (s.arg 0) 16))))).complete .ok) := by
  obtain ⟨-, hbounds, hkey⟩ := h
  refine (congrArg (conclude s) (requireRegions_bind_of_inBounds hbounds)).trans ?_
  exact congrArg (conclude s) (require_bind_of_true (hkey rfl))

end

/-- Settles O27: the rule with its checks passed; the schedule has 4(Nr + 1) words, at most the 60 of RK. -/
theorem aesKeyexpResult : Obligations.AesKeyexpResult := by
  intro s h w nr
  have hcases := keyLength_of_ready h
  have hwlen : w.length = 4 * (nr + 1) := by
    rw [keyExpansion_length _ (by rwa [State.memRead_length]), State.memRead_length]
    rfl
  refine ⟨_, exec_aesKeyexp_of_ready h, rfl, ?_, hwlen, fun i _ => ?_, fun i hi => ?_⟩
  · rcases roundsOf_cases hcases with e | e | e <;> simp [State.keyValid, e]
  · exact tabulate_get 60 _ i i.isLt
  · refine (tabulate_get 60 _ i i.isLt).trans ?_
    exact List.getD_eq_default _ _ (hwlen.trans_le hi)

/-- Settles O29: the rule with its checks passed writes one block, 16 bytes. -/
theorem aesEncResult : Obligations.AesEncResult := fun s h =>
  ⟨_, exec_aesEnc_of_ready h, wroteOnly_memWrite s _ _ _ (blockBytes_length _)⟩

end Sys2Proof.Machine
end

section
/-! SUPPORT. The two checks of an AES-based command at once, and reading back a string written to the scratchpad
(60_exceptions.md R353; 20_memory.md R81, R82). -/

namespace Sys2Proof.Machine

/-- Steps 3 and 4 of 60_exceptions.md R353 when both pass. -/
theorem requireRegions_requireKey_bind {α : Type} {s : State} {rs : List Region} {k : Unit → Except ErrorCode α}
    (hbounds : rs.all s.inBounds = true) (hkey : s.keyValid = true) :
    (requireRegions s rs >>= fun _ => requireKey s >>= k) = k () :=
  (requireRegions_bind_of_inBounds hbounds).trans (require_bind_of_true hkey)

/-- Reading back a written string of a given length (20_memory.md R81, R82). -/
theorem State.memRead_memWrite_of_length (s : State) (off : Nat) {bs : List Byte} {n : Nat} (h : bs.length = n) :
    (s.memWrite off bs).memRead off n = bs :=
  h ▸ s.memRead_memWrite_same off bs

/-- A byte of a written string (20_memory.md R82). -/
theorem State.readByte_memWrite_inside (s : State) (off : Nat) {bs : List Byte} {k : Nat} (h : k < bs.length) :
    (s.memWrite off bs).readByte (off + k) = bs.getD k 0 := by
  rw [State.readByte_memWrite, if_pos (by omega), Nat.add_sub_cancel_left]

end Sys2Proof.Machine
end

section
/-! SUPPORT and the settlement of O31: the bytes of a block split between two of its words, and the counter
(42_ctr_ghash_gcm.md R210, R217). -/

namespace Sys2Proof.Machine

/-! ### The counter -/

/-- The last n of the m + n bytes of a number are those of its remainder, the bytes before them those of its quotient
(00_scope.md R9). -/
theorem beBytes_add (m n v : Nat) : beBytes (m + n) v = beBytes m (v / 256 ^ n) ++ beBytes n v := by
  induction n generalizing v with
  | zero => simp [beBytes]
  | succ n ih =>
    rw [← Nat.add_assoc, beBytes_succ, ih, beBytes_succ, Nat.div_div_eq_div_mul, ← pow_succ', List.append_assoc]

/-- `be_n(v)` depends on v modulo 256^n alone (00_scope.md R9). -/
theorem beBytes_mod (n v : Nat) : beBytes n (v % 256 ^ n) = beBytes n v := by
  rw [← be_beBytes]
  simpa using beBytes_be (beBytes n v)

/-- A block is its first 12 bytes and its counter (42_ctr_ghash_gcm.md R210). -/
theorem blockBytes_eq_append (b : Block) : blockBytes b = beBytes 12 (b.toNat / 2 ^ 32) ++ beBytes 4 b.toNat :=
  beBytes_add 12 4 b.toNat

theorem take_blockBytes (b : Block) : (blockBytes b).take 12 = beBytes 12 (b.toNat / 2 ^ 32) := by
  rw [blockBytes_eq_append]
  exact List.take_left' (beBytes_length _ _)

theorem drop_blockBytes (b : Block) : (blockBytes b).drop 12 = beBytes 4 b.toNat := by
  rw [blockBytes_eq_append]
  exact List.drop_left' (beBytes_length _ _)

/-- The counter moves on in the low 32 bits and the rest stays (42_ctr_ghash_gcm.md R210). -/
theorem toNat_inc32 (cb : Block) : (inc32 cb).toNat = cb.toNat / 2 ^ 32 * 2 ^ 32 + (cb.toNat + 1) % 2 ^ 32 := by
  have hcb := cb.isLt
  refine (BitVec.toNat_append _ _).trans ?_
  rw [← Nat.shiftLeft_add_eq_or_of_lt (BitVec.isLt _), BitVec.toNat_add, show BitVec.toNat (1 : BitVec 32) = 1 from rfl,
    BitVec.extractLsb'_toNat, BitVec.extractLsb'_toNat, Nat.shiftLeft_eq, Nat.shiftRight_zero,
    Nat.shiftRight_eq_div_pow]
  omega

/-- inc32 on the bytes of a block (42_ctr_ghash_gcm.md R210). -/
theorem blockBytes_inc32 (cb : Block) :
    blockBytes (inc32 cb)
      = (blockBytes cb).take 12 ++ beBytes 4 ((be ((blockBytes cb).drop 12) + 1) % 2 ^ 32) := by
  have hhigh : (inc32 cb).toNat / 2 ^ 32 = cb.toNat / 2 ^ 32 := by
    rw [toNat_inc32]
    omega
  have hlow : (be (beBytes 4 cb.toNat) + 1) % 2 ^ 32 = (inc32 cb).toNat % 256 ^ 4 := by
    rw [toNat_inc32, be_beBytes]
    omega
  rw [blockBytes_eq_append, hhigh, take_blockBytes, drop_blockBytes, hlow, beBytes_mod]

/-- The first 12 bytes stay however often the counter moves on (42_ctr_ghash_gcm.md R210). -/
theorem take_blockBytes_iterate_inc32 (cb : Block) (n : Nat) :
    (blockBytes (inc32^[n] cb)).take 12 = (blockBytes cb).take 12 := by
  induction n with
  | zero => rfl
  | succ n ih => rw [Function.iterate_succ_apply', blockBytes_inc32, List.take_left' (by simp), ih]

/-! ### The command -/

/-- Settles O31: the bytes of inc32 (`blockBytes_inc32`); CTR_INC has no check. -/
theorem ctrIncResult : Obligations.CtrIncResult := ⟨blockBytes_inc32, fun _ => rfl⟩

end Sys2Proof.Machine
end

section
/-! SUPPORT and the settlements of O32 and O33: counter mode byte by byte, that it undoes itself, and CTR_XOR
(42_ctr_ghash_gcm.md R215, R216). -/

namespace Sys2Proof.Machine

/-! ### The keystream -/

theorem getD_xorBytes (b c : List Byte) {k : Nat} (hb : k < b.length) (hc : k < c.length) :
    (xorBytes b c).getD k 0 = b.getD k 0 ^^^ c.getD k 0 := by
  simp [xorBytes, hb, hc]

/-- Byte k of the keystream from the counter block cb (42_ctr_ghash_gcm.md R215). -/
def keystreamByte (E : Block → Block) (cb : Block) (k : Nat) : Byte :=
  (blockBytes (E (inc32^[k / 16] cb))).getD (k % 16) 0

theorem keystreamByte_of_lt (E : Block → Block) (cb : Block) {k : Nat} (hk : k < 16) :
    keystreamByte E cb k = (blockBytes (E cb)).getD k 0 := by
  rw [keystreamByte, Nat.div_eq_of_lt hk, Nat.mod_eq_of_lt hk]
  rfl

/-- The keystream after one block is that of the next counter block (42_ctr_ghash_gcm.md R215). -/
theorem keystreamByte_add (E : Block → Block) (cb : Block) (k : Nat) :
    keystreamByte E cb (16 + k) = keystreamByte E (inc32 cb) k := by
  rw [keystreamByte, Nat.add_div_left _ (by decide), Nat.add_mod_left]
  rfl

/-- The output of the first n blocks, byte by byte (42_ctr_ghash_gcm.md R215). -/
theorem getD_gctrBlocks (E : Block → Block) (n : Nat) (cb : Block) (X : List Byte) {k : Nat} (hn : k < 16 * n)
    (hX : k < X.length) : (gctrBlocks E n cb X).1.getD k 0 = X.getD k 0 ^^^ keystreamByte E cb k := by
  induction n generalizing cb X k with
  | zero => omega
  | succ n ih =>
    have hlen : (xorBytes (X.take 16) (blockBytes (E cb))).length = min 16 X.length := by simp
    rw [gctrBlocks]
    rcases Nat.lt_or_ge k 16 with hk | hk
    · rw [List.getD_append _ _ _ _ (by omega), getD_xorBytes _ _ (by simp [hk, hX]) (by simpa using hk),
        keystreamByte_of_lt E cb hk]
      simp [hk]
    · obtain ⟨k, rfl⟩ := Nat.exists_eq_add_of_le hk
      rw [List.getD_append_right _ _ _ _ (by omega), hlen, show 16 + k - min 16 X.length = k by omega,
        ih (inc32 cb) (X.drop 16) (by omega) (by rw [List.length_drop]; omega), keystreamByte_add]
      simp

theorem gctrBlocks_counter (E : Block → Block) (n : Nat) (cb : Block) (X : List Byte) :
    (gctrBlocks E n cb X).2 = inc32^[n] cb := by
  induction n generalizing cb X with
  | zero => rfl
  | succ n ih => exact ih _ _

/-- GCTR byte by byte (42_ctr_ghash_gcm.md R215). -/
theorem getD_gctr (E : Block → Block) (cb : Block) (X : List Byte) {k : Nat} (hk : k < X.length) :
    (gctr E cb X).1.getD k 0 = X.getD k 0 ^^^ keystreamByte E cb k :=
  getD_gctrBlocks E _ cb X (by omega) hk

theorem gctr_counter (E : Block → Block) (cb : Block) (X : List Byte) :
    (gctr E cb X).2 = inc32^[(X.length + 15) / 16] cb :=
  gctrBlocks_counter E _ cb X

/-- GCTR from the same counter block undoes itself: each byte meets the same keystream byte twice
(42_ctr_ghash_gcm.md R216). -/
theorem gctr_gctr (E : Block → Block) (cb : Block) (X : List Byte) : (gctr E cb (gctr E cb X).1).1 = X := by
  apply List.ext_getElem (by simp)
  intro k hout hX
  have hmid : k < (gctr E cb X).1.length := by rwa [gctr_length]
  rw [← List.getD_eq_getElem _ 0 hout, ← List.getD_eq_getElem _ 0 hX, getD_gctr E cb _ hmid, getD_gctr E cb X hX,
    BitVec.xor_assoc, BitVec.xor_self, BitVec.xor_zero]

/-! ### The command -/

theorem exec_ctrXor_of_ready {s : State} (h : Ready .ctrXor s) :
    exec .ctrXor s = .next (State.complete
      { s.memWrite (s.arg 2) (gctr s.cipher s.cb (s.memRead (s.arg 0) (s.arg 1))).1 with
        cb := (gctr s.cipher s.cb (s.memRead (s.arg 0) (s.arg 1))).2 } .ok) := by
  obtain ⟨-, hbounds, hkey⟩ := h
  exact congrArg (conclude s) (requireRegions_requireKey_bind hbounds (hkey rfl))

/-- Settles O32: GCTR byte by byte (`getD_gctr`) and its counter block (`gctr_counter`); the rule with its checks passed
writes that string and that block. -/
theorem ctrXorResult : Obligations.CtrXorResult := by
  refine ⟨fun E cb X => ⟨gctr_length E cb X, fun k hk => getD_gctr E cb X hk, gctr_counter E cb X⟩, ?_⟩
  intro s h out
  have hlen : out.1.length = s.arg 1 := by simp [out]
  have hcb : out.2 = inc32^[(s.arg 1 + 15) / 16] s.cb := by simp [out, gctr_counter]
  obtain ⟨-, -, hread, hkept⟩ := wroteOnly_memWrite s (s.arg 2) (s.arg 1) out.1 hlen
  refine ⟨_, exec_ctrXor_of_ready h, rfl, hlen, hread, fun k hk => ?_, hkept, hcb, ?_⟩
  · calc (s.memWrite (s.arg 2) out.1).readByte (s.arg 2 + k)
        = out.1.getD k 0 := s.readByte_memWrite_inside (s.arg 2) (hk.trans_eq hlen.symm)
      _ = s.readByte (s.arg 0 + k) ^^^ keystreamByte (aesEncrypt s.rk s.aesnr.toNat) s.cb k := by
          rw [getD_gctr _ _ _ (by simpa using hk), State.getD_memRead _ _ _ _ hk]
  · exact (congrArg (fun cb => (blockBytes cb).take 12) hcb).trans (take_blockBytes_iterate_inc32 s.cb _)

/-- CTR_XOR of the len bytes at src to dst (42_ctr_ghash_gcm.md R216). -/
theorem exec_ctrXor_withArgs (s : State) (hp : s.params.spmBytes < 2 ^ 32) (hkey : s.keyValid = true)
    {src len dst : Nat} (hsrc : src + len ≤ s.params.spmBytes) (hdst : dst + len ≤ s.params.spmBytes) :
    exec .ctrXor (s.withArgs [src, len, dst])
      = .next (State.complete
          { (s.withArgs [src, len, dst]).memWrite dst (gctr s.cipher s.cb (s.memRead src len)).1 with
            cb := (gctr s.cipher s.cb (s.memRead src len)).2 } .ok) := by
  have h0 : (s.withArgs [src, len, dst]).arg 0 = src := s.arg_withArgs _ 0 rfl (by omega)
  have h1 : (s.withArgs [src, len, dst]).arg 1 = len := s.arg_withArgs _ 1 rfl (by omega)
  have h2 : (s.withArgs [src, len, dst]).arg 2 = dst := s.arg_withArgs _ 2 rfl (by omega)
  have hready : Ready .ctrXor (s.withArgs [src, len, dst]) := by
    refine ⟨rfl, ?_, fun _ => hkey⟩
    simpa [operandRegions, State.inBounds_iff, h0, h1, h2] using And.intro hsrc hdst
  rw [exec_ctrXor_of_ready hready, h0, h1, h2]
  rfl

/-- Settles O33: the second run reads what the first wrote and meets the same keystream (`gctr_gctr`); both advance CB by
the same number of blocks. -/
theorem ctrXorIsItsOwnInverse : Obligations.CtrXorIsItsOwnInverse := by
  intro s src len dst back hwf hkey hsrc hdst hback
  have hp := spmBytes_lt hwf
  let X := s.memRead src len
  let out := gctr s.cipher s.cb X
  let t : State := State.complete { (s.withArgs [src, len, dst]).memWrite dst out.1 with cb := out.2 } .ok
  let t' : State := { t with cb := s.cb }
  let out' := gctr s.cipher s.cb (t.memRead dst len)
  have hwritten : t.memRead dst len = out.1 :=
    (s.withArgs [src, len, dst]).memRead_memWrite_of_length dst (by simp [out, X])
  have hinverse : out'.1 = X := by rw [show out' = gctr s.cipher s.cb out.1 by rw [← hwritten], gctr_gctr]
  refine ⟨t, _, exec_ctrXor_withArgs s hp hkey hsrc hdst, exec_ctrXor_withArgs t' hp hkey hdst hback, rfl, ?_, ?_⟩
  · exact ((t'.withArgs [dst, len, back]).memRead_memWrite_of_length back (by simp)).trans hinverse
  · show out'.2 = out.2
    rw [gctr_counter, gctr_counter, State.memRead_length, State.memRead_length]

end Sys2Proof.Machine
end

section
/-! SUPPORT and the settlements of O34 to O37: the product in GF(2^128), GHASH block by block, J0, and the commands that
write H, Y, J0 or a product (42_ctr_ghash_gcm.md R212 to R214, R219 to R222). -/

namespace Sys2Proof.Machine

/-! ### Multiplication by α -/

/-- The reduction of mulAlpha as a term of a sum (42_ctr_ghash_gcm.md R212). -/
theorem mulAlpha_eq_xor (v : Block) :
    mulAlpha v = v >>> 1 ^^^ if v.getLsbD 0 then 0xE1000000000000000000000000000000 else 0 := by
  unfold mulAlpha
  split
  · rfl
  · exact BitVec.xor_zero.symm

/-- Where both terms are reduced, the two reductions cancel (42_ctr_ghash_gcm.md R212). -/
theorem mulAlpha_xor (u v : Block) : mulAlpha (u ^^^ v) = mulAlpha u ^^^ mulAlpha v := by
  have reduction (a b : Bool) (r : Block) :
      (if (a ^^ b) then r else 0) = (if a then r else 0) ^^^ (if b then r else 0) := by
    cases a <;> cases b <;> simp
  simp only [mulAlpha_eq_xor, BitVec.getLsbD_xor, BitVec.ushiftRight_xor_distrib, reduction]
  ac_rfl

/-- Sums go through the rounds (42_ctr_ghash_gcm.md R212). -/
theorem gfRounds_xor (x : Block) (n : Nat) (z z' v v' : Block) :
    gfRounds x n (z ^^^ z') (v ^^^ v') = gfRounds x n z v ^^^ gfRounds x n z' v' := by
  induction n generalizing z z' v v' with
  | zero => rfl
  | succ n ih =>
    rw [gfRounds, gfRounds, gfRounds, mulAlpha_xor, ← ih]
    cases x.getLsbD n
    · rfl
    · congr 1
      show (z ^^^ z') ^^^ (v ^^^ v') = (z ^^^ v) ^^^ (z' ^^^ v')
      ac_rfl

/-- A map of blocks that goes through sums and through multiplication by α. -/
structure AlphaLinear (f : Block → Block) : Prop where
  map_xor : ∀ u v, f (u ^^^ v) = f u ^^^ f v
  map_mulAlpha : ∀ v, f (mulAlpha v) = mulAlpha (f v)

theorem AlphaLinear.map_zero {f : Block → Block} (hf : AlphaLinear f) : f 0 = 0 := by
  simpa using hf.map_xor 0 0

/-- The rounds add up multiples of V by powers of α, so an α-linear map goes through them. -/
theorem AlphaLinear.map_gfRounds {f : Block → Block} (hf : AlphaLinear f) (x : Block) (n : Nat) (z v : Block) :
    f (gfRounds x n z v) = gfRounds x n (f z) (f v) := by
  induction n generalizing z v with
  | zero => rfl
  | succ n ih =>
    rw [gfRounds, ih, gfRounds, hf.map_mulAlpha]
    cases x.getLsbD n
    · rfl
    · exact congrArg (gfRounds x n · _) (hf.map_xor z v)

theorem AlphaLinear.map_gfMul {f : Block → Block} (hf : AlphaLinear f) (x v : Block) :
    f (gfMul x v) = gfMul x (f v) := by
  rw [gfMul, hf.map_gfRounds, hf.map_zero, gfMul]

theorem alphaLinear_mulAlpha : AlphaLinear mulAlpha := ⟨mulAlpha_xor, fun _ => rfl⟩

theorem alphaLinear_gfMul (x : Block) : AlphaLinear (gfMul x) where
  map_xor := gfRounds_xor x 128 0 0
  map_mulAlpha v := (alphaLinear_mulAlpha.map_gfMul x v).symm

/-- 0x80 ‖ 0^15, the one element (42_ctr_ghash_gcm.md R212; 95_test_vectors.md S-3). -/
def gfOne : Block := BitVec.twoPow 128 127

theorem bytesBlock_one : bytesBlock ([0x80] ++ zeros 15) = gfOne := by decide

theorem mulAlpha_twoPow {n : Nat} (hn : n + 1 < 128) : mulAlpha (BitVec.twoPow 128 (n + 1)) = BitVec.twoPow 128 n := by
  apply BitVec.eq_of_getLsbD_eq
  intro i hi
  rw [mulAlpha, BitVec.getLsbD_twoPow, if_neg (by simp), BitVec.getLsbD_ushiftRight, BitVec.getLsbD_twoPow,
    BitVec.getLsbD_twoPow, decide_eq_true hn, decide_eq_true (by omega : n < 128), Bool.true_and, Bool.true_and]
  exact decide_eq_decide.mpr (by omega)

/-- Adding 2^n where bit n of X is set adds bit n of X. -/
theorem getLsbD_ite_xor_twoPow (x z : Block) {n : Nat} (hn : n < 128) (i : Nat) :
    (if x.getLsbD n then z ^^^ BitVec.twoPow 128 n else z).getLsbD i
      = (z.getLsbD i ^^ (decide (i = n) && x.getLsbD i)) := by
  by_cases h : i = n
  · subst h
    cases x.getLsbD i <;> simp [hn]
  · cases x.getLsbD n <;> simp [h, Ne.symm h]

/-- From a power 2^n on, the rounds meet 2^n, 2^(n-1), ..., 1 and add to Z the bits of X from n down. -/
theorem getLsbD_gfRounds_twoPow (x z : Block) {n : Nat} (hn : n < 128) (i : Nat) :
    (gfRounds x (n + 1) z (BitVec.twoPow 128 n)).getLsbD i = (z.getLsbD i ^^ (decide (i ≤ n) && x.getLsbD i)) := by
  induction n generalizing z with
  | zero =>
    rw [gfRounds, gfRounds, getLsbD_ite_xor_twoPow x z hn]
    simp
  | succ n ih =>
    rw [gfRounds, mulAlpha_twoPow hn, ih _ (by omega), getLsbD_ite_xor_twoPow x z hn]
    rcases lt_trichotomy i (n + 1) with h | rfl | h
    · simp [h.ne, h.le, Nat.le_of_lt_succ h]
    · simp
    · simp [h.ne', show ¬i ≤ n by omega, show ¬i ≤ n + 1 by omega]

theorem gfMul_one (x : Block) : gfMul x gfOne = x := by
  apply BitVec.eq_of_getLsbD_eq
  intro i hi
  rw [gfMul, gfOne, getLsbD_gfRounds_twoPow x 0 (by decide)]
  simp [Nat.le_of_lt_succ hi]

/-- Multiplication by X is α-linear, so it goes through the rounds of multiplication by Y; applied to the one element this
is commutativity (42_ctr_ghash_gcm.md R212). -/
theorem gfMul_comm (x y : Block) : gfMul x y = gfMul y x := by
  calc gfMul x y = gfMul x (gfMul y gfOne) := by rw [gfMul_one]
    _ = gfMul y (gfMul x gfOne) := (alphaLinear_gfMul x).map_gfMul y gfOne
    _ = gfMul y x := by rw [gfMul_one]

/-- The rounds as the loop over the bits of X (42_ctr_ghash_gcm.md R212). -/
theorem gfRounds_eq_foldl (x : Block) (n : Nat) (z v : Block) :
    gfRounds x n z v
      = (List.range n).foldl (fun Z j => if x.getLsbD (n - 1 - j) then Z ^^^ mulAlpha^[j] v else Z) z := by
  induction n generalizing z v with
  | zero => rfl
  | succ n ih =>
    rw [gfRounds, ih, List.range_succ_eq_map, List.foldl_cons, List.foldl_map]
    simp only [Nat.succ_eq_add_one, Function.iterate_succ_apply, Nat.add_sub_cancel, Nat.sub_sub, Nat.add_comm 1]
    rfl

/-- 0xE1 ‖ 0^15, the reduction of R212. -/
theorem bytesBlock_reduction : bytesBlock ([0xE1] ++ zeros 15) = 0xE1000000000000000000000000000000 := by decide

theorem gfMul_zero (x : Block) : gfMul x 0 = 0 := (alphaLinear_gfMul x).map_zero

/-- Settles O36: the rounds as a loop (`gfRounds_eq_foldl`), and the zero and the one element on the right; on the left
they follow by `gfMul_comm`. -/
theorem gfMulZeroAndOne : Obligations.GfMulZeroAndOne := by
  refine ⟨fun X Y => ?_, gfMul_comm, fun X => ?_⟩
  · rw [bytesBlock_reduction]
    exact gfRounds_eq_foldl X 128 0 Y
  · rw [bytesBlock_one]
    exact ⟨gfMul_zero X, (gfMul_comm 0 X).trans (gfMul_zero X), gfMul_one X, (gfMul_comm gfOne X).trans (gfMul_one X)⟩

/-! ### GHASH and J0 -/

/-- GHASH over n blocks folds over the block numbers (42_ctr_ghash_gcm.md R213). -/
theorem ghashBlocks_eq_foldl (H : Block) (n : Nat) (Y : Block) (S : List Byte) :
    ghashBlocks H n Y S
      = (List.range n).foldl (fun Y j => gfMul (Y ^^^ bytesBlock (slice S (16 * j) (16 * j + 16))) H) Y := by
  induction n generalizing Y S with
  | zero => rfl
  | succ n ih =>
    have shift (j : Nat) : slice (S.drop 16) (16 * j) (16 * j + 16) = slice S (16 * (j + 1)) (16 * (j + 1) + 16) := by
      rw [slice_drop]
      congr 1 <;> ring
    have first : slice S (16 * 0) (16 * 0 + 16) = S.take 16 := rfl
    rw [ghashBlocks, ih, List.range_succ_eq_map, List.foldl_cons, List.foldl_map, first]
    simp only [shift, Nat.succ_eq_add_one]

/-- The GHASH of one zero block from a zero accumulator (42_ctr_ghash_gcm.md R212, R213). -/
theorem ghash_zero_block (H : Block) : ghash H 0 (zeros 16) = 0 := by
  have hblock : bytesBlock ((zeros 16).take 16) = 0 := by decide
  calc ghash H 0 (zeros 16) = gfMul (0 ^^^ bytesBlock ((zeros 16).take 16)) H := rfl
    _ = gfMul H 0 := by rw [hblock]; exact gfMul_comm 0 H
    _ = 0 := gfMul_zero H

theorem deriveJ0_of_length_eq {E : Block → Block} {IV : List Byte} (h : IV.length = 12) :
    deriveJ0 E IV = bytesBlock (IV ++ [0x00, 0x00, 0x00, 0x01]) := if_pos h

theorem deriveJ0_of_length_ne {E : Block → Block} {IV : List Byte} (h : IV.length ≠ 12) :
    deriveJ0 E IV = ghash (E 0) 0 (IV ++ zpad IV.length ++ zeros 8 ++ beBytes 8 (8 * IV.length)) := if_neg h

/-- Settles O37: the two branches of DeriveJ0; the empty IV gives one zero block to GHASH. -/
theorem deriveJ0Cases : Obligations.DeriveJ0Cases := by
  refine fun E IV => ⟨fun h => ?_, ?_, fun h => ⟨_, ?_, deriveJ0_of_length_ne h, rfl⟩⟩
  · rw [deriveJ0_of_length_eq h, blockBytes_bytesBlock]
    simp [h]
  · rintro rfl
    have hempty : ([] : List Byte) ++ zpad 0 ++ zeros 8 ++ beBytes 8 (8 * 0) = zeros 16 := by decide
    rw [deriveJ0_of_length_ne (by decide), List.length_nil, hempty, ghash_zero_block]
  · simp only [List.length_append, zeros_length, beBytes_length, zpad]
    omega

/-! ### The commands with their checks passed -/

section
variable {s : State}

theorem exec_ghSeth_of_ready (h : Ready .ghSeth s) : exec .ghSeth s = .next { s.succeeded with h := s.cipher 0 } := by
  obtain ⟨-, -, hkey⟩ := h
  exact congrArg (conclude s) (require_bind_of_true (hkey rfl))

theorem exec_ghUpdate_of_ready (h : Ready .ghUpdate s) :
    exec .ghUpdate s = .next { s.succeeded with y := ghash s.h s.y (s.memRead (s.arg 0) (16 * s.arg 1)) } := by
  obtain ⟨-, hbounds, -⟩ := h
  exact congrArg (conclude s) (requireRegions_bind_of_inBounds hbounds)

theorem exec_gcmJ0_of_ready (h : Ready .gcmJ0 s) :
    exec .gcmJ0 s = .next { s.succeeded with j0 := deriveJ0 s.cipher (s.memRead (s.arg 0) (s.arg 1)) } := by
  obtain ⟨-, hbounds, hkey⟩ := h
  exact congrArg (conclude s) (requireRegions_requireKey_bind hbounds (hkey rfl))

theorem exec_gfMul_of_ready (h : Ready .gfMul s) :
    exec .gfMul s = .next ((s.memWrite (s.arg 2) (blockBytes
      (gfMul (bytesBlock (s.memRead (s.arg 0) 16)) (bytesBlock (s.memRead (s.arg 1) 16))))).complete .ok) := by
  obtain ⟨-, hbounds, -⟩ := h
  exact congrArg (conclude s) (requireRegions_bind_of_inBounds hbounds)

end

/-- Settles O34: the three rules with their checks passed, and GHASH as a fold over the blocks. -/
theorem ghashRegisterResults : Obligations.GhashRegisterResults :=
  ⟨fun _ => exec_ghSeth_of_ready, fun _ => exec_ghUpdate_of_ready, fun _ => exec_gcmJ0_of_ready,
    fun H Y S => ghashBlocks_eq_foldl H (S.length / 16) Y S⟩

/-- Settles O35: the rule with its checks passed writes one block, 16 bytes. -/
theorem gfMulResult : Obligations.GfMulResult := fun s h =>
  ⟨_, exec_gfMul_of_ready h, wroteOnly_memWrite s _ _ _ (blockBytes_length _)⟩

end Sys2Proof.Machine
end

section
/-! SUPPORT and the settlements of O38 to O40: GCM encryption, decryption, and the one after the other
(42_ctr_ghash_gcm.md R218, R223, R224). -/

namespace Sys2Proof.Machine

/-! ### What GCM computes -/

/-- The payload through counter mode from the first counter block the IV gives, the same in both directions
(42_ctr_ghash_gcm.md R223, R224). -/
def gcmPayload (E : Block → Block) (p : Params) (IV X : List Byte) : List Byte :=
  (gctr E (firstCounter p.gcmFirstCounter (deriveJ0 E IV)) X).1

/-- The tag over AAD and ciphertext under the IV (42_ctr_ghash_gcm.md R218). -/
def gcmTagBytes (E : Block → Block) (p : Params) (IV A C : List Byte) : List Byte :=
  blockBytes (gcmTag E p.ghashPad A C (deriveJ0 E IV))

@[simp] theorem gcmPayload_length (E : Block → Block) (p : Params) (IV X : List Byte) :
    (gcmPayload E p IV X).length = X.length := gctr_length _ _ _

@[simp] theorem gcmTagBytes_length (E : Block → Block) (p : Params) (IV A C : List Byte) :
    (gcmTagBytes E p IV A C).length = 16 := blockBytes_length _

/-- The payload of the payload under one IV is the string itself (42_ctr_ghash_gcm.md R224). -/
theorem gcmPayload_gcmPayload (E : Block → Block) (p : Params) (IV X : List Byte) :
    gcmPayload E p IV (gcmPayload E p IV X) = X := gctr_gctr _ _ _

/-! ### The commands with their checks passed -/

section
variable (s : State)

/-- The IV of GCM_ENC and GCM_DEC (30_encoding.md R113). -/
def State.gcmIv : List Byte := s.memRead (s.arg 0) (s.arg 1)

/-- The AAD of GCM_ENC and GCM_DEC (30_encoding.md R113). -/
def State.gcmAad : List Byte := s.memRead (s.arg 2) (s.arg 3)

/-- The plaintext of GCM_ENC, the ciphertext of GCM_DEC (30_encoding.md R113). -/
def State.gcmInput : List Byte := s.memRead (s.arg 4) (s.arg 5)

/-- The string GCM_ENC and GCM_DEC write to dst. -/
def State.gcmOutput : List Byte := gcmPayload s.cipher s.params s.gcmIv s.gcmInput

@[simp] theorem State.gcmOutput_length : s.gcmOutput.length = s.arg 5 := by
  simp [State.gcmOutput, State.gcmInput]

end

section
variable {s : State}

theorem exec_gcmEnc_of_ready (h : Ready .gcmEnc s) :
    exec .gcmEnc s = .next (((s.memWrite (s.arg 6) s.gcmOutput).memWrite (s.arg 7)
      (gcmTagBytes s.cipher s.params s.gcmIv s.gcmAad s.gcmOutput)).complete .ok) := by
  obtain ⟨-, hbounds, hkey⟩ := h
  exact congrArg (conclude s) (requireRegions_requireKey_bind hbounds (hkey rfl))

/-- GCM_DEC up to its last check, the tag (42_ctr_ghash_gcm.md R224). -/
theorem exec_gcmDec_of_ready (h : Ready .gcmDec s) :
    exec .gcmDec s = conclude s (do
      require (s.memRead (s.arg 7) 16 == gcmTagBytes s.cipher s.params s.gcmIv s.gcmAad s.gcmInput) .authFailure
      pure (s.memWrite (s.arg 6) s.gcmOutput)) := by
  obtain ⟨-, hbounds, hkey⟩ := h
  exact congrArg (conclude s) (requireRegions_requireKey_bind hbounds (hkey rfl))

theorem exec_gcmDec_of_tag_eq (h : Ready .gcmDec s)
    (htag : s.memRead (s.arg 7) 16 = gcmTagBytes s.cipher s.params s.gcmIv s.gcmAad s.gcmInput) :
    exec .gcmDec s = .next ((s.memWrite (s.arg 6) s.gcmOutput).complete .ok) := by
  rw [exec_gcmDec_of_ready h, require_bind_of_true (beq_iff_eq.mpr htag), conclude_pure]

theorem exec_gcmDec_of_tag_ne (h : Ready .gcmDec s)
    (htag : s.memRead (s.arg 7) 16 ≠ gcmTagBytes s.cipher s.params s.gcmIv s.gcmAad s.gcmInput) :
    exec .gcmDec s = .next (s.failed .authFailure) := by
  rw [exec_gcmDec_of_ready h, require_bind, if_neg (by simpa using htag), conclude_error]
  rfl

end

/-- Settles O38: the tag and the first counter are their definitions; GCM_ENC writes the ciphertext and then the tag, so
a byte of the ciphertext outside the tag's region is not written again. -/
theorem gcmEncResult : Obligations.GcmEncResult := by
  refine ⟨fun E A C j0 => ⟨rfl, rfl, rfl, rfl⟩, fun s h => ?_⟩
  have hC := s.gcmOutput_length
  have hT := gcmTagBytes_length s.cipher s.params s.gcmIv s.gcmAad s.gcmOutput
  refine ⟨_, exec_gcmEnc_of_ready h, rfl, hC, State.memRead_memWrite_of_length _ _ hT, fun k hk hout => ?_,
    (CommandWrites.ciphertextAndTag hC hT).keeps_spm⟩
  rw [State.readByte_complete, State.readByte_memWrite_outside _ _ _ _ hT _ hout,
    s.readByte_memWrite_inside _ (hk.trans_eq hC.symm)]
  rfl

/-- Settles O39: the tag decides between the two ends of the rule. -/
theorem gcmDecResult : Obligations.GcmDecResult := fun s h =>
  ⟨fun htag => ⟨_, exec_gcmDec_of_tag_eq h htag, wroteOnly_memWrite s _ _ _ s.gcmOutput_length⟩,
    fun htag => exec_gcmDec_of_tag_ne h htag⟩

/-! ### The commands with operands written by the host -/

/-- The operands of GCM_ENC and GCM_DEC, in the order of ARG0 to ARG7 (30_encoding.md R113). -/
structure GcmOperands where
  iv : Nat
  ivlen : Nat
  aad : Nat
  aadlen : Nat
  src : Nat
  len : Nat
  dst : Nat
  tag : Nat

namespace GcmOperands

def list (o : GcmOperands) : List Nat := [o.iv, o.ivlen, o.aad, o.aadlen, o.src, o.len, o.dst, o.tag]

/-- Every region lies inside a scratchpad of n bytes (20_memory.md R83). -/
structure Fit (o : GcmOperands) (n : Nat) : Prop where
  iv : o.iv + o.ivlen ≤ n
  aad : o.aad + o.aadlen ≤ n
  src : o.src + o.len ≤ n
  dst : o.dst + o.len ≤ n
  tag : o.tag + 16 ≤ n

end GcmOperands

section
variable {s : State} (hp : s.params.spmBytes < 2 ^ 32) {o : GcmOperands} (ho : o.Fit s.params.spmBytes)
include hp ho

theorem State.gcm_args :
    (s.withArgs o.list).arg 0 = o.iv ∧ (s.withArgs o.list).arg 1 = o.ivlen ∧ (s.withArgs o.list).arg 2 = o.aad
      ∧ (s.withArgs o.list).arg 3 = o.aadlen ∧ (s.withArgs o.list).arg 4 = o.src ∧ (s.withArgs o.list).arg 5 = o.len
      ∧ (s.withArgs o.list).arg 6 = o.dst ∧ (s.withArgs o.list).arg 7 = o.tag := by
  obtain ⟨hiv, haad, hsrc, hdst, htag⟩ := ho
  refine ⟨?_, ?_, ?_, ?_, ?_, ?_, ?_, ?_⟩ <;> exact s.arg_withArgs _ _ rfl (by omega)

/-- The regions of the two commands lie in bounds (20_memory.md R83). -/
theorem State.gcm_inBounds : (operandRegions .gcmEnc (s.withArgs o.list)).all (s.withArgs o.list).inBounds = true := by
  obtain ⟨h0, h1, h2, h3, h4, h5, h6, h7⟩ := State.gcm_args hp ho
  simp [operandRegions, State.inBounds_iff, h0, h1, h2, h3, h4, h5, h6, h7, ho.iv, ho.aad, ho.src, ho.dst, ho.tag]

variable (hkey : s.keyValid = true)
include hkey

/-- GCM_ENC of the operands (42_ctr_ghash_gcm.md R223). -/
theorem exec_gcmEnc_withArgs {C T : List Byte}
    (hC : C = gcmPayload s.cipher s.params (s.memRead o.iv o.ivlen) (s.memRead o.src o.len))
    (hT : T = gcmTagBytes s.cipher s.params (s.memRead o.iv o.ivlen) (s.memRead o.aad o.aadlen) C) :
    exec .gcmEnc (s.withArgs o.list) = .next ((((s.withArgs o.list).memWrite o.dst C).memWrite o.tag T).complete .ok) := by
  obtain ⟨h0, h1, h2, h3, h4, h5, h6, h7⟩ := State.gcm_args hp ho
  have hready : Ready .gcmEnc (s.withArgs o.list) := ⟨rfl, State.gcm_inBounds hp ho, fun _ => hkey⟩
  rw [exec_gcmEnc_of_ready hready, State.gcmOutput, State.gcmIv, State.gcmAad, State.gcmInput, h0, h1, h2, h3, h4, h5,
    h6, h7, hT, hC]
  rfl

/-- GCM_DEC of the operands, where the tag is the one it computes (42_ctr_ghash_gcm.md R224). -/
theorem exec_gcmDec_withArgs (htag : s.memRead o.tag 16 = gcmTagBytes s.cipher s.params (s.memRead o.iv o.ivlen)
      (s.memRead o.aad o.aadlen) (s.memRead o.src o.len)) :
    exec .gcmDec (s.withArgs o.list) = .next (((s.withArgs o.list).memWrite o.dst
      (gcmPayload s.cipher s.params (s.memRead o.iv o.ivlen) (s.memRead o.src o.len))).complete .ok) := by
  obtain ⟨h0, h1, h2, h3, h4, h5, h6, h7⟩ := State.gcm_args hp ho
  have hready : Ready .gcmDec (s.withArgs o.list) := ⟨rfl, State.gcm_inBounds hp ho, fun _ => hkey⟩
  have hmatch : (s.withArgs o.list).memRead ((s.withArgs o.list).arg 7) 16
      = gcmTagBytes (s.withArgs o.list).cipher (s.withArgs o.list).params (s.withArgs o.list).gcmIv
          (s.withArgs o.list).gcmAad (s.withArgs o.list).gcmInput := by
    rw [State.gcmIv, State.gcmAad, State.gcmInput, h0, h1, h2, h3, h4, h5, h7]
    exact htag
  rw [exec_gcmDec_of_tag_eq hready hmatch, State.gcmOutput, State.gcmIv, State.gcmInput, h0, h1, h4, h5, h6]
  rfl

end

/-- Settles O40: the outputs of GCM_ENC lie apart, so GCM_DEC reads the same IV and AAD, the whole ciphertext and the tag
over them; the tag matches, and the payload of the payload is the plaintext. -/
theorem gcmDecryptsItsEncryption : Obligations.GcmDecryptsItsEncryption := by
  intro s iv ivlen aad aadlen src len dst tag back hwf hkey hiv haad hsrc hdst htag hback hdstIv hdstAad htagIv htagAad
    htagDst
  simp only [Region.disjoint] at hdstIv hdstAad htagIv htagAad htagDst
  have hp := spmBytes_lt hwf
  let enc : GcmOperands := ⟨iv, ivlen, aad, aadlen, src, len, dst, tag⟩
  let dec : GcmOperands := ⟨iv, ivlen, aad, aadlen, dst, len, back, tag⟩
  let IV := s.memRead iv ivlen
  let A := s.memRead aad aadlen
  let P := s.memRead src len
  let C := gcmPayload s.cipher s.params IV P
  let T := gcmTagBytes s.cipher s.params IV A C
  have hClen : C.length = len := by simp [C, P]
  have hTlen : T.length = 16 := gcmTagBytes_length ..
  let written := (s.withArgs enc.list).memWrite dst C
  let t := (written.memWrite tag T).complete .ok
  have apart {off n : Nat} (hC : dst + len ≤ off ∨ off + n ≤ dst) (hT : tag + 16 ≤ off ∨ off + n ≤ tag) :
      t.memRead off n = s.memRead off n :=
    (written.memRead_memWrite_other tag T off n (by omega)).trans
      ((s.withArgs enc.list).memRead_memWrite_other dst C off n (by omega))
  have htIV : t.memRead iv ivlen = IV := apart hdstIv htagIv
  have htA : t.memRead aad aadlen = A := apart hdstAad htagAad
  have htC : t.memRead dst len = C :=
    (written.memRead_memWrite_other tag T dst len (by omega)).trans (State.memRead_memWrite_of_length _ dst hClen)
  have htT : t.memRead tag 16 = T := written.memRead_memWrite_of_length tag hTlen
  have hpayload : gcmPayload t.cipher t.params IV C = P := gcmPayload_gcmPayload ..
  have hdec := exec_gcmDec_withArgs (s := t) (o := dec) hp ⟨hiv, haad, hdst, hback, htag⟩ hkey
    (by rw [htIV, htA, htC, htT]; rfl)
  rw [htIV, htC, hpayload] at hdec
  exact ⟨t, _, exec_gcmEnc_withArgs hp (o := enc) ⟨hiv, haad, hsrc, hdst, htag⟩ hkey rfl rfl, hdec, rfl,
    State.memRead_memWrite_of_length _ back (s.memRead_length src len)⟩

end Sys2Proof.Machine
end

section
/-! SUPPORT and the settlement of O42: the functions of secp256k1 as 43_ec_point.md writes them, on integers mod p, and
double-and-add by the low bit of the scalar (43_ec_point.md R250 to R258). -/

namespace Sys2Proof.Machine

/-! ### The field -/

theorem curveP_pos : 0 < curveP := by decide

/-- The inverse as the power it is (43_ec_point.md R254). -/
theorem fieldInv_eq (a : Nat) : fieldInv a = a ^ (curveP - 2) % curveP := powMod_eq _ _ _ curveP_pos

/-- A difference of the field as an integer (43_ec_point.md R255). -/
theorem subMod_curveP (a b : Nat) : (subMod curveP a b : Int) = ((a : Int) - b) % curveP :=
  subMod_eq_emod _ _ _ curveP_pos

/-! ### The curve and the affine formulas -/

theorem Point.inRange_iff (a : Point) : a.inRange = true ↔ a.x < curveP ∧ a.y < curveP := decide_eq_true_iff

/-- The curve equation on integers (43_ec_point.md R253). -/
theorem Point.onCurve_iff (a : Point) :
    a.onCurve = true ↔ ((a.y : Int) ^ 2 - (a.x : Int) ^ 3 - 7) % curveP = 0 := by
  have equation : ((a.y : Int) ^ 2 - (a.x : Int) ^ 3 - 7) % curveP
      = (subMod curveP (a.y * a.y) (a.x * a.x * a.x + 7) : Nat) := by
    rw [subMod_curveP]
    push_cast
    ring_nf
  rw [equation, Point.onCurve, beq_iff_eq, Int.natCast_eq_zero]

/-- The first coordinate on the line of slope l (43_ec_point.md R255, R256). -/
theorem combine_x (l : Nat) (a : Point) (x2 : Nat) :
    ((combine l a x2).x : Int) = ((l : Int) ^ 2 - a.x - x2) % curveP := by
  rw [combine, subMod_curveP]
  push_cast
  ring_nf

/-- The second coordinate on the line of slope l (43_ec_point.md R255, R256). -/
theorem combine_y (l : Nat) (a : Point) (x2 : Nat) :
    ((combine l a x2).y : Int) = ((l : Int) * (a.x - (combine l a x2).x) - a.y) % curveP := by
  rw [combine, subMod_curveP, Nat.cast_mul, subMod_curveP]
  exact ((Int.mod_modEq _ _).mul_left _).sub_right _

/-- The slope of the line through two points of unequal x (43_ec_point.md R255). -/
theorem addSlope_eq (a b : Point) :
    ((subMod curveP b.y a.y * fieldInv (subMod curveP b.x a.x) % curveP : Nat) : Int)
      = ((b.y : Int) - a.y) * (fieldInv (((b.x : Int) - a.x) % curveP).toNat : Nat) % curveP := by
  rw [← subMod_curveP b.x, Int.toNat_natCast, Int.natCast_emod, Nat.cast_mul, subMod_curveP]
  exact (Int.mod_modEq _ _).mul_right _

/-- The slope of the tangent (43_ec_point.md R256). -/
theorem doubleSlope_eq (a : Point) :
    ((3 * (a.x * a.x) * fieldInv (2 * a.y % curveP) % curveP : Nat) : Int)
      = (3 * (a.x : Int) ^ 2) * (fieldInv ((2 * a.y) % curveP) : Nat) % curveP := by
  push_cast
  rw [pow_two]

/-! ### The group law -/

theorem groupAdd_none_left (B : GroupPoint) : groupAdd none B = B := rfl

theorem groupAdd_none_right (A : GroupPoint) : groupAdd A none = A := by
  cases A <;> rfl

section
variable {a b : Point}

/-- Opposite points sum to O (43_ec_point.md R257). -/
theorem groupAdd_of_opposite (hx : a.x = b.x) (hy : (a.y + b.y) % curveP = 0) : groupAdd (some a) (some b) = none :=
  if_pos ⟨hx, hy⟩

theorem groupAdd_of_x_eq (hx : a.x = b.x) (hy : (a.y + b.y) % curveP ≠ 0) :
    groupAdd (some a) (some b) = some (pointDouble a) :=
  (if_neg fun h => hy h.2).trans (if_pos hx)

theorem groupAdd_of_x_ne (hx : a.x ≠ b.x) : groupAdd (some a) (some b) = some (pointAdd a b) :=
  (if_neg fun h => hx h.1).trans (if_neg hx)

end

/-! ### The product by a scalar -/

theorem scalarMul_zero (Q : GroupPoint) : scalarMul 0 Q = none := rfl

/-- One more low bit in the scalar doubles the product, and adds the point where the bit is 1 (43_ec_point.md R258). -/
theorem scalarMul_append_bit (k b : Nat) (hk : k ≠ 0) (hb : b < 2) (Q : GroupPoint) :
    scalarMul (2 * k + b) Q
      = if b = 1 then groupAdd (groupAdd (scalarMul k Q) (scalarMul k Q)) Q
        else groupAdd (scalarMul k Q) (scalarMul k Q) := by
  have higher (i : Nat) : (2 * k + b).testBit (i + 1) = k.testBit i := by
    rw [Nat.testBit_add_one, show (2 * k + b) / 2 = k by omega]
  have lowest : (2 * k + b).testBit 0 = true ↔ b = 1 := by
    rw [Nat.testBit_zero, decide_eq_true_iff]
    omega
  simp only [← lowest]
  rw [scalarMul, bitLength_append_bit k b hk hb]
  exact doubleAndAdd_low_bit _ _ _ k _ _ fun i _ => higher i

/-- An even scalar doubles the product by its half (43_ec_point.md R258). -/
theorem scalarMul_even (k : Nat) (Q : GroupPoint) : scalarMul (2 * k) Q = groupAdd (scalarMul k Q) (scalarMul k Q) := by
  rcases eq_or_ne k 0 with rfl | hk
  · rfl
  · exact scalarMul_append_bit k 0 hk (by decide) Q

/-- An odd scalar adds the point to the double (43_ec_point.md R258). -/
theorem scalarMul_odd (k : Nat) (Q : GroupPoint) :
    scalarMul (2 * k + 1) Q = groupAdd (groupAdd (scalarMul k Q) (scalarMul k Q)) Q := by
  rcases eq_or_ne k 0 with rfl | hk
  · rfl
  · exact scalarMul_append_bit k 1 hk (by decide) Q

/-- The scalar 1 gives the point itself (43_ec_point.md R263). -/
theorem scalarMul_one (Q : GroupPoint) : scalarMul 1 Q = Q := scalarMul_odd 0 Q

/-! ### The settlement -/

/-- Settles O42: the formulas are those of the line through the points, with its slope as an integer. -/
theorem pointFormulas : Obligations.PointFormulas := by
  refine ⟨⟨by decide, rfl, rfl⟩, fun s off => rfl, fun a => ⟨rfl, a.inRange_iff⟩, fieldInv_eq,
    fun A B => ⟨groupAdd_none_left B, groupAdd_none_right A⟩,
    fun a b => ⟨groupAdd_of_opposite, groupAdd_of_x_eq, groupAdd_of_x_ne⟩, fun a b => ?_, fun a => ?_,
    Point.onCurve_iff⟩
  · intro l x3
    have hx : ((pointAdd a b).x : Int) = x3 := by rw [pointAdd, combine_x, addSlope_eq]
    refine ⟨hx, ?_⟩
    rw [← hx, pointAdd, combine_y, addSlope_eq]
  · intro l x3
    have hx : ((pointDouble a).x : Int) = x3 := by
      rw [pointDouble, combine_x, doubleSlope_eq, sub_sub, ← two_mul]
    refine ⟨hx, ?_⟩
    rw [← hx, pointDouble, combine_y, doubleSlope_eq]

end Sys2Proof.Machine
end

section
/-! SUPPORT and the settlements of O41 and O43 to O46: the five point commands, first up to their value checks, then each
with its checks passed or with the first check that fails (43_ec_point.md R260 to R264; 60_exceptions.md R353). -/

namespace Sys2Proof.Machine

/-! ### Value checks -/

section
variable {s : State} {c : Bool} {e : ErrorCode} {k : Unit → Except ErrorCode State}

theorem conclude_require_of_true (h : c = true) : conclude s (require c e >>= k) = conclude s (k ()) :=
  congrArg (conclude s) (require_bind_of_true h)

/-- A check that fails ends the command; only STATUS changes (60_exceptions.md R356, R360). -/
theorem conclude_require_of_false (h : c = false) (he : e ≠ .ok) :
    conclude s (require c e >>= k) = .next (s.failed e) := by
  rw [require_bind, if_neg (by simp [h]), conclude_error, State.complete, decide_eq_true he]
  rfl

end

/-! ### Operands -/

/-- A point read from the scratchpad encodes to the 64 bytes it was read from (43_ec_point.md R252). -/
theorem State.pointBytes_pointAt (s : State) (off : Nat) : pointBytes (s.pointAt off) = s.memRead off 64 := by
  have word (o : Nat) : beBytes 32 (s.scalarAt o) = s.memRead o 32 := by
    simpa [State.scalarAt] using beBytes_be (s.memRead o 32)
  rw [pointBytes, State.pointAt, word, word, ← s.take_memRead off (by decide : 32 ≤ 64), ← s.drop_memRead off 64 32,
    List.take_append_drop]

/-! ### The commands up to their value checks -/

section
variable {s : State}

theorem exec_ecFinv_of_ready (h : Ready .ecFinv s) :
    exec .ecFinv s = conclude s (do
      require (decide (s.scalarAt (s.arg 0) < curveP)) .invalidRange
      require (s.scalarAt (s.arg 0) != 0) .degenerate
      pure (s.memWrite (s.arg 1) (beBytes 32 (fieldInv (s.scalarAt (s.arg 0)))))) := by
  obtain ⟨-, hbounds, -⟩ := h
  exact congrArg (conclude s) (requireRegions_bind_of_inBounds hbounds)

theorem exec_ecPadd_of_ready (h : Ready .ecPadd s) :
    exec .ecPadd s = conclude s (do
      let P := s.pointAt (s.arg 0)
      let Q := s.pointAt (s.arg 1)
      require (P.inRange && Q.inRange) .invalidRange
      require (P.onCurve && Q.onCurve) .pointNotOnCurve
      require (P.x != Q.x) .degenerate
      pure (s.memWrite (s.arg 2) (pointBytes (pointAdd P Q)))) := by
  obtain ⟨-, hbounds, -⟩ := h
  exact congrArg (conclude s) (requireRegions_bind_of_inBounds hbounds)

theorem exec_ecPdbl_of_ready (h : Ready .ecPdbl s) :
    exec .ecPdbl s = conclude s (do
      let P := s.pointAt (s.arg 0)
      require P.inRange .invalidRange
      require P.onCurve .pointNotOnCurve
      require (P.y != 0) .degenerate
      pure (s.memWrite (s.arg 1) (pointBytes (pointDouble P)))) := by
  obtain ⟨-, hbounds, -⟩ := h
  exact congrArg (conclude s) (requireRegions_bind_of_inBounds hbounds)

theorem exec_ecSmul_of_ready (h : Ready .ecSmul s) :
    exec .ecSmul s = conclude s (do
      let k := s.scalarAt (s.arg 0)
      let P := s.pointAt (s.arg 1)
      require (decide (k < curveN)) .invalidRange
      require P.inRange .invalidRange
      require P.onCurve .pointNotOnCurve
      require (k != 0) .degenerate
      let R ← finitePoint (scalarMul k (some P)) .degenerate
      pure (s.memWrite (s.arg 2) (pointBytes R))) := by
  obtain ⟨-, hbounds, -⟩ := h
  exact congrArg (conclude s) (requireRegions_bind_of_inBounds hbounds)

theorem exec_ecOncurve_of_ready (h : Ready .ecOncurve s) :
    exec .ecOncurve s = conclude s (do
      require (s.pointAt (s.arg 0)).inRange .invalidRange
      pure { s with result := if (s.pointAt (s.arg 0)).onCurve then 1 else 0 }) := by
  obtain ⟨-, hbounds, -⟩ := h
  exact congrArg (conclude s) (requireRegions_bind_of_inBounds hbounds)

/-- EC_SMUL of a scalar below n, past the checks on the point: 0 and a product O are degenerate (43_ec_point.md R263). -/
theorem exec_ecSmul_of_onCurve (h : Ready .ecSmul s) (hk : s.scalarAt (s.arg 0) < curveN)
    (hP : (s.pointAt (s.arg 1)).inRange = true) (hcP : (s.pointAt (s.arg 1)).onCurve = true) :
    exec .ecSmul s = conclude s (do
      require (s.scalarAt (s.arg 0) != 0) .degenerate
      let R ← finitePoint (scalarMul (s.scalarAt (s.arg 0)) (some (s.pointAt (s.arg 1)))) .degenerate
      pure (s.memWrite (s.arg 2) (pointBytes R))) :=
  (exec_ecSmul_of_ready h).trans <| (conclude_require_of_true (decide_eq_true hk)).trans <|
    (conclude_require_of_true hP).trans (conclude_require_of_true hcP)

/-- EC_SMUL of a scalar in [1, n) whose product is an affine point (43_ec_point.md R263). -/
theorem exec_ecSmul_of_product (h : Ready .ecSmul s) (hk0 : 0 < s.scalarAt (s.arg 0)) (hk : s.scalarAt (s.arg 0) < curveN)
    (hP : (s.pointAt (s.arg 1)).inRange = true) (hcP : (s.pointAt (s.arg 1)).onCurve = true) {R : Point}
    (hR : scalarMul (s.scalarAt (s.arg 0)) (some (s.pointAt (s.arg 1))) = some R) :
    ∃ t, exec .ecSmul s = .next t ∧ WroteOnly s t ⟨s.arg 2, 64⟩ (pointBytes R) := by
  refine ⟨_, ?_, wroteOnly_memWrite s _ _ _ (pointBytes_length R)⟩
  rw [exec_ecSmul_of_onCurve h hk hP hcP, conclude_require_of_true (bne_iff_ne.mpr hk0.ne'), conclude_finitePoint, hR]
  rfl

end

/-! ### The results -/

/-- Settles O41: with both checks passed the rule writes the inverse, the power of `fieldInv_eq`. -/
theorem ecFinvResult : Obligations.EcFinvResult := by
  intro s h x hx0 hxp
  refine ⟨(s.memWrite (s.arg 1) (beBytes 32 (fieldInv x))).complete .ok, ?_, ?_⟩
  · rw [exec_ecFinv_of_ready h]
    exact (conclude_require_of_true (decide_eq_true hxp)).trans (conclude_require_of_true (bne_iff_ne.mpr hx0.ne'))
  · rw [← fieldInv_eq]
    exact wroteOnly_memWrite s _ _ _ (beBytes_length _ _)

/-- Settles O43: with the three checks passed each rule writes its sum, the 64 bytes of a point. -/
theorem ecPaddEcPdblResults : Obligations.EcPaddEcPdblResults := by
  constructor
  · intro s h P Q hP hQ hcP hcQ hx
    have hrange : (P.inRange && Q.inRange) = true := Bool.and_eq_true_iff.mpr ⟨hP, hQ⟩
    have hcurve : (P.onCurve && Q.onCurve) = true := Bool.and_eq_true_iff.mpr ⟨hcP, hcQ⟩
    refine ⟨_, ?_, wroteOnly_memWrite s _ _ _ (pointBytes_length _)⟩
    rw [exec_ecPadd_of_ready h]
    exact (conclude_require_of_true hrange).trans <|
      (conclude_require_of_true hcurve).trans (conclude_require_of_true (bne_iff_ne.mpr hx))
  · intro s h P hP hcP hy
    refine ⟨_, ?_, wroteOnly_memWrite s _ _ _ (pointBytes_length _)⟩
    rw [exec_ecPdbl_of_ready h]
    exact (conclude_require_of_true hP).trans <|
      (conclude_require_of_true hcP).trans (conclude_require_of_true (bne_iff_ne.mpr hy))

/-- Settles O44: the product by the low bit of the scalar, and the rule with its checks passed; the product by 1 is the
point read, whose encoding is the 64 bytes it was read from. -/
theorem ecSmulResult : Obligations.EcSmulResult := by
  refine ⟨fun Q => ⟨scalarMul_zero Q, fun k => ⟨scalarMul_even k Q, scalarMul_odd k Q⟩⟩, ?_⟩
  intro s h k P hk0 hk hP hcP
  have product {R : Point} := exec_ecSmul_of_product h hk0 hk hP hcP (R := R)
  refine ⟨fun R => product, fun h1 => ?_⟩
  have hone : scalarMul k (some P) = some P := by rw [h1, scalarMul_one]
  rw [← s.pointBytes_pointAt]
  exact product hone

/-- Settles O45: past the range check the rule completes with the curve predicate in RESULT. -/
theorem ecOncurveResult : Obligations.EcOncurveResult := by
  intro s h P hx hy
  rw [exec_ecOncurve_of_ready h, conclude_require_of_true (P.inRange_iff.mpr ⟨hx, hy⟩)]
  simp only [← Point.onCurve_iff]
  rfl

/-! ### The first check that fails -/

section
variable {s : State}

theorem exec_ecFinv_errors (h : Ready .ecFinv s) :
    (curveP ≤ s.scalarAt (s.arg 0) → exec .ecFinv s = .next (s.failed .invalidRange))
    ∧ (s.scalarAt (s.arg 0) = 0 → exec .ecFinv s = .next (s.failed .degenerate)) := by
  rw [exec_ecFinv_of_ready h]
  refine ⟨fun hx => conclude_require_of_false (by simpa using hx) nofun, fun hx => ?_⟩
  rw [hx, conclude_require_of_true (by decide)]
  exact conclude_require_of_false rfl nofun

theorem exec_ecPadd_errors (h : Ready .ecPadd s) :
    let P := s.pointAt (s.arg 0)
    let Q := s.pointAt (s.arg 1)
    (¬(P.inRange = true ∧ Q.inRange = true) → exec .ecPadd s = .next (s.failed .invalidRange))
    ∧ (P.inRange = true → Q.inRange = true → ¬(P.onCurve = true ∧ Q.onCurve = true) →
        exec .ecPadd s = .next (s.failed .pointNotOnCurve))
    ∧ (P.inRange = true → Q.inRange = true → P.onCurve = true → Q.onCurve = true → P.x = Q.x →
        exec .ecPadd s = .next (s.failed .degenerate)) := by
  intro P Q
  have both {c d : Bool} (hc : c = true) (hd : d = true) : (c && d) = true := Bool.and_eq_true_iff.mpr ⟨hc, hd⟩
  have notBoth {c d : Bool} (hn : ¬(c = true ∧ d = true)) : (c && d) = false := by simpa using hn
  rw [exec_ecPadd_of_ready h]
  refine ⟨fun hn => conclude_require_of_false (notBoth hn) nofun, fun hP hQ hn => ?_, fun hP hQ hcP hcQ hx => ?_⟩
  · exact (conclude_require_of_true (both hP hQ)).trans (conclude_require_of_false (notBoth hn) nofun)
  · exact (conclude_require_of_true (both hP hQ)).trans <|
      (conclude_require_of_true (both hcP hcQ)).trans (conclude_require_of_false (by simpa using hx) nofun)

theorem exec_ecPdbl_errors (h : Ready .ecPdbl s) :
    let P := s.pointAt (s.arg 0)
    (P.inRange = false → exec .ecPdbl s = .next (s.failed .invalidRange))
    ∧ (P.inRange = true → P.onCurve = false → exec .ecPdbl s = .next (s.failed .pointNotOnCurve)) := by
  rw [exec_ecPdbl_of_ready h]
  exact ⟨fun hP => conclude_require_of_false hP nofun,
    fun hP hcP => (conclude_require_of_true hP).trans (conclude_require_of_false hcP nofun)⟩

theorem exec_ecSmul_errors (h : Ready .ecSmul s) :
    let k := s.scalarAt (s.arg 0)
    let P := s.pointAt (s.arg 1)
    (curveN ≤ k ∨ P.inRange = false → exec .ecSmul s = .next (s.failed .invalidRange))
    ∧ (k < curveN → P.inRange = true → P.onCurve = false → exec .ecSmul s = .next (s.failed .pointNotOnCurve))
    ∧ (k = 0 → P.inRange = true → P.onCurve = true → exec .ecSmul s = .next (s.failed .degenerate)) := by
  intro k P
  refine ⟨fun hrange => ?_, fun hk hP hcP => ?_, fun hk hP hcP => ?_⟩
  · rw [exec_ecSmul_of_ready h]
    rcases lt_or_ge k curveN with hk | hk
    · exact (conclude_require_of_true (decide_eq_true hk)).trans
        (conclude_require_of_false (hrange.resolve_left hk.not_ge) nofun)
    · exact conclude_require_of_false (decide_eq_false hk.not_gt) nofun
  · rw [exec_ecSmul_of_ready h]
    exact (conclude_require_of_true (decide_eq_true hk)).trans <|
      (conclude_require_of_true hP).trans (conclude_require_of_false hcP nofun)
  · have hkn : k < curveN := hk.trans_lt (by decide)
    rw [exec_ecSmul_of_onCurve h hkn hP hcP]
    exact conclude_require_of_false (by simpa using hk) nofun

theorem exec_ecOncurve_of_not_inRange (h : Ready .ecOncurve s) (hP : (s.pointAt (s.arg 0)).inRange = false) :
    exec .ecOncurve s = .next (s.failed .invalidRange) := by
  rw [exec_ecOncurve_of_ready h]
  exact conclude_require_of_false hP nofun

end

/-- Settles O46: command by command, the checks before the one that fails pass. -/
theorem ecValueChecksInOrder : Obligations.EcValueChecksInOrder :=
  ⟨fun _ => exec_ecFinv_errors, fun _ => exec_ecPadd_errors, fun _ => exec_ecPdbl_errors, fun _ => exec_ecSmul_errors,
    fun _ => exec_ecOncurve_of_not_inRange⟩

end Sys2Proof.Machine
end

section
/-! SUPPORT and the settlements of O47 and O48: public-key recovery as one equation over its three checks, with the powers
and the integers of the rule in place of the model's squaring and `subMod`, and the two commands of 44_ecdsa.md with their
checks passed (R280 to R286). -/

namespace Sys2Proof.Machine

/-! ### The recovery id -/

theorem parityOf_eq_none {v : Nat} (hv : v ≠ 0 ∧ v ≠ 1 ∧ v ≠ 27 ∧ v ≠ 28) : parityOf v = none := by
  obtain ⟨h0, h1, h27, h28⟩ := hv
  rw [parityOf, if_neg (not_or_intro h27 h28), if_neg (not_or_intro h0 h1)]

/-- A parity and 27 above it select that parity (44_ecdsa.md R280). -/
theorem parityOf_eq_some {v parity : Nat} (hv : v = parity ∨ v = 27 + parity) (hp : parity < 2) :
    parityOf v = some parity := by
  rw [parityOf]
  rcases hv with rfl | rfl
  · rw [if_neg (by omega), if_pos (by omega)]
  · rw [if_pos (by omega), Nat.add_sub_cancel_left]

/-! ### The point of an x-coordinate -/

/-- The square root as the power it is (43_ec_point.md R259). -/
theorem fieldSqrt_eq (a : Nat) : fieldSqrt a = a ^ ((curveP + 1) / 4) % curveP := powMod_eq _ _ _ curveP_pos

/-- The candidate root decides whether there is a point, and its parity which of the two roots is y (44_ecdsa.md R282). -/
theorem liftX_eq_ite {r a root : Nat} (ha : (r ^ 3 + 7) % curveP = a) (hroot : fieldSqrt a = root) (parity : Nat) :
    liftX r parity
      = if root ^ 2 % curveP = a then some ⟨r, if root % 2 = parity then root else curveP - root⟩ else none := by
  rw [liftX, ← pow_three', ha, hroot, ← pow_two, ite_not]

/-! ### Recovery -/

theorem curveN_pos : 0 < curveN := by decide

/-- `u1 G + u2 R`, with u1 and u2 from the inverse ri of r mod n (44_ecdsa.md R282). -/
def recoverySum (e s ri : Nat) (R : Point) : GroupPoint :=
  groupAdd (scalarMul (subMod curveN 0 (e * ri)) (some curveG)) (scalarMul (s * ri % curveN) (some R))

/-- The sum with u1 as the negated product of integers mod n (44_ecdsa.md R282). -/
theorem recoverySum_eq (e s ri : Nat) (R : Point) :
    recoverySum e s ri R
      = groupAdd (scalarMul (-((e : Int) * ri) % curveN).toNat (some curveG)) (scalarMul (s * ri % curveN) (some R)) := by
  have hu1 : (subMod curveN 0 (e * ri) : Int) = -((e : Int) * ri) % curveN := by
    rw [subMod_eq_emod _ _ _ curveN_pos, Nat.cast_zero, zero_sub, Nat.cast_mul]
  rw [← hu1, Int.toNat_natCast, recoverySum]

/-- All recovery can answer: the sum, once the id, the range of r and s and the square root pass (44_ecdsa.md R282). -/
theorem recover_eq_bind (e : Nat) (g : Signature) :
    recover e g = (parityOf g.v).bind fun parity =>
      if 1 ≤ g.r ∧ g.r ≤ curveN - 1 ∧ 1 ≤ g.s ∧ g.s ≤ curveN - 1 then
        (liftX g.r parity).bind (recoverySum e g.s (powMod curveN g.r (curveN - 2)))
      else none := by
  rw [recover]
  cases parityOf g.v with
  | none => rfl
  | some parity =>
    simp only [Option.bind_some, ite_not]
    cases liftX g.r parity with
    | none => simp only [Option.bind_none]
    | some R => simp only [Option.bind_some, recoverySum]

/-- The recovery id enters through its parity alone (44_ecdsa.md R280; 90_conflicts.md C4). -/
theorem recover_congr_parity (e r s : Nat) {v v' : Nat} (h : parityOf v = parityOf v') :
    recover e ⟨r, s, v⟩ = recover e ⟨r, s, v'⟩ := by
  simp only [recover_eq_bind, h]

section
variable {e : Nat} {g : Signature}

theorem recover_of_bad_id (hv : g.v ≠ 0 ∧ g.v ≠ 1 ∧ g.v ≠ 27 ∧ g.v ≠ 28) : recover e g = none := by
  rw [recover_eq_bind, parityOf_eq_none hv, Option.bind_none]

theorem recover_of_out_of_range (h : g.r = 0 ∨ curveN ≤ g.r ∨ g.s = 0 ∨ curveN ≤ g.s) : recover e g = none := by
  have hn := curveN_pos
  have hbad : ¬(1 ≤ g.r ∧ g.r ≤ curveN - 1 ∧ 1 ≤ g.s ∧ g.s ≤ curveN - 1) := by omega
  simp only [recover_eq_bind, if_neg hbad, Option.bind_fun_none]

theorem recover_of_no_root (h : ∀ parity, liftX g.r parity = none) : recover e g = none := by
  simp only [recover_eq_bind, h, Option.bind_none, ite_self, Option.bind_fun_none]

theorem recover_of_liftX {parity : Nat} {R : Point} (hv : parityOf g.v = some parity) (hr : 1 ≤ g.r ∧ g.r ≤ curveN - 1)
    (hs : 1 ≤ g.s ∧ g.s ≤ curveN - 1) (hR : liftX g.r parity = some R) :
    recover e g = recoverySum e g.s (powMod curveN g.r (curveN - 2)) R := by
  rw [recover_eq_bind, hv, Option.bind_some, if_pos ⟨hr.1, hr.2, hs⟩, hR, Option.bind_some]

end

/-- Settles O48: each failing check makes the equation `recover_eq_bind` none, with all of them passed it is the sum, and
the two ids of a parity give the same equation. -/
theorem recoveryFailuresAndIds : Obligations.RecoveryFailuresAndIds := by
  refine ⟨fun e g => ⟨recover_of_bad_id, recover_of_out_of_range, fun hne => ?_⟩, ?_,
    fun e r s => ⟨recover_congr_parity e r s rfl, recover_congr_parity e r s rfl⟩⟩
  · exact recover_of_no_root fun parity => (liftX_eq_ite rfl (fieldSqrt_eq _) parity).trans (if_neg hne)
  · intro e r s v parity hv hp hr hrn hs hsn a root hsquare R ri u1 u2 sum
    have hroot : fieldSqrt a = root := fieldSqrt_eq a
    have hR : liftX r parity = some R := (liftX_eq_ite rfl hroot parity).trans (if_pos hsquare)
    have hri : powMod curveN r (curveN - 2) = ri := powMod_eq _ _ _ curveN_pos
    have hsum : recover e ⟨r, s, v⟩ = sum := by
      rw [recover_of_liftX (g := ⟨r, s, v⟩) (parityOf_eq_some hv hp) ⟨hr, hrn⟩ ⟨hs, hsn⟩ hR, hri]
      exact recoverySum_eq e s ri R
    rw [hsum]
    exact ⟨fun _ => id, id⟩

/-! ### The commands -/

section
variable {s : State}

theorem exec_ecdsaRecover_of_ready (h : Ready .ecdsaRecover s) :
    exec .ecdsaRecover s = conclude s (do
      let Q ← finitePoint (recover (be (s.memRead (s.arg 0) 32))
        ⟨be (s.memRead (s.arg 1) 32), be (s.memRead (s.arg 1 + 32) 32), (s.readByte (s.arg 1 + 64)).toNat⟩)
        .recoveryFailure
      pure (s.memWrite (s.arg 2) (pointBytes Q))) := by
  obtain ⟨-, hbounds, -⟩ := h
  rw [← bytesSignature_memRead]
  exact congrArg (conclude s) (requireRegions_bind_of_inBounds hbounds)

theorem exec_ecAddr_of_ready (h : Ready .ecAddr s) :
    exec .ecAddr s = .next ((s.memWrite (s.arg 1) (addressOf (s.memRead (s.arg 0) 64))).complete .ok) := by
  obtain ⟨-, hbounds, -⟩ := h
  exact congrArg (conclude s) (requireRegions_bind_of_inBounds hbounds)

end

/-- Settles O47: past its bounds check the rule of ECDSA_RECOVER has the two cases of the recovered point, and EC_ADDR
writes the 20 bytes of the address. -/
theorem ecdsaRecoverEcAddrResults : Obligations.EcdsaRecoverEcAddrResults := by
  constructor
  · intro s h o
    have hexec := (exec_ecdsaRecover_of_ready h).trans (conclude_finitePoint s o _ _)
    refine ⟨fun Q hQ => ⟨_, ?_, wroteOnly_memWrite s _ _ _ (pointBytes_length Q)⟩, fun hnone => ?_⟩
    · rw [hexec, hQ]
      rfl
    · rw [hexec, hnone]
      rfl
  · exact fun s h => ⟨_, exec_ecAddr_of_ready h, wroteOnly_memWrite s _ _ _ (addressOf_length _)⟩

end Sys2Proof.Machine
end

section
/-! SUPPORT and the settlements of O49 to O52: the fields of a parameter block and of the estate records where they stand in
the scratchpad, the digests as Keccak-256 of the pre-images, the commands of 45_eip712.md with their checks passed, and
PERMIT_DIGEST against the three commands it is made of (R300 to R316). -/

namespace Sys2Proof.Machine

/-! ### Words -/

/-- Zero bytes in front leave the integer of a string as it is (00_scope.md R9). -/
theorem be_zeros_append (n : Nat) (b : List Byte) : be (zeros n ++ b) = be b := by
  induction n with
  | zero => rfl
  | succ n ih => exact ih

@[simp] theorem encodeWords_nil : encodeWords [] = [] := rfl

@[simp] theorem encodeWords_cons (b : List Byte) (bs : List (List Byte)) :
    encodeWords (b :: bs) = encodeWord b ++ encodeWords bs := rfl

@[simp] theorem encodeWord_keccak256 (M : List Byte) : encodeWord (keccak256 M) = keccak256 M :=
  encodeWord_whole _ (keccak256_length M)

@[simp] theorem encodeWord_memRead_word (s : State) (off : Nat) : encodeWord (s.memRead off 32) = s.memRead off 32 :=
  encodeWord_whole _ (s.memRead_length off 32)

@[simp] theorem encodeWord_memRead_address (s : State) (off : Nat) :
    encodeWord (s.memRead off 20) = zeros 12 ++ s.memRead off 20 :=
  encodeWord_address _ (s.memRead_length off 20)

/-! ### The parameter block -/

section
variable (s : State) (prm : Nat)

@[simp] theorem State.permitBlockAt_domainTypehash : (s.permitBlockAt prm).domainTypehash = s.memRead prm 32 :=
  s.slice_memRead prm 232 0 32 (by decide)

@[simp] theorem State.permitBlockAt_tokenTypehash : (s.permitBlockAt prm).tokenTypehash = s.memRead (prm + 32) 32 :=
  s.slice_memRead prm 232 32 64 (by decide)

@[simp] theorem State.permitBlockAt_batchTypehash : (s.permitBlockAt prm).batchTypehash = s.memRead (prm + 64) 32 :=
  s.slice_memRead prm 232 64 96 (by decide)

@[simp] theorem State.permitBlockAt_chainId : (s.permitBlockAt prm).chainId = s.memRead (prm + 96) 32 :=
  s.slice_memRead prm 232 96 128 (by decide)

@[simp] theorem State.permitBlockAt_verifyingContract :
    (s.permitBlockAt prm).verifyingContract = s.memRead (prm + 128) 20 :=
  s.slice_memRead prm 232 128 148 (by decide)

@[simp] theorem State.permitBlockAt_spender : (s.permitBlockAt prm).spender = s.memRead (prm + 148) 20 :=
  s.slice_memRead prm 232 148 168 (by decide)

@[simp] theorem State.permitBlockAt_nonce : (s.permitBlockAt prm).nonce = s.memRead (prm + 168) 32 :=
  s.slice_memRead prm 232 168 200 (by decide)

@[simp] theorem State.permitBlockAt_deadline : (s.permitBlockAt prm).deadline = s.memRead (prm + 200) 32 :=
  s.slice_memRead prm 232 200 232 (by decide)

/-! ### The digests of what stands in the scratchpad -/

theorem domainDigest_eq_keccak256 (nam nlen : Nat) :
    domainDigest (s.permitBlockAt prm) (s.memRead nam nlen) = keccak256 (s.domainPreimage prm nam nlen) := by
  simp [domainDigest, State.domainPreimage]

/-- A record is token ‖ amount: its first 20 bytes and the 32 after them (45_eip712.md R303). -/
theorem tokenDigest_eq_keccak256 (est : Nat) :
    tokenDigest (s.permitBlockAt prm) (s.memRead est 52) = keccak256 (s.tokenPreimage prm est) := by
  have htoken : slice (s.memRead est 52) 0 20 = s.memRead est 20 := s.slice_memRead est 52 0 20 (by decide)
  have hamount : slice (s.memRead est 52) 20 52 = s.memRead (est + 20) 32 := s.slice_memRead est 52 20 52 (by decide)
  simp [tokenDigest, State.tokenPreimage, htoken, hamount]

/-- The token digests record by record, at the offsets the records have in the scratchpad (45_eip712.md R303, R305). -/
theorem permissionsDigest_eq_keccak256 (est cnt : Nat) :
    permissionsDigest (s.permitBlockAt prm) (s.estatesAt est cnt) = keccak256 (s.permissionsPreimage prm est cnt) := by
  simp only [permissionsDigest, State.estatesAt, records_memRead s cnt est _ le_rfl, List.flatMap_map,
    tokenDigest_eq_keccak256, State.permissionsPreimage]

theorem batchDigest_eq_keccak256 (est cnt : Nat) :
    batchDigest (s.permitBlockAt prm) (s.estatesAt est cnt) = keccak256 (s.batchPreimage prm est cnt) := by
  simp [batchDigest, State.batchPreimage, permissionsDigest_eq_keccak256]

theorem permitDigest_eq_keccak256 (nam nlen est cnt : Nat) :
    permitDigest (s.permitBlockAt prm) (s.memRead nam nlen) (s.estatesAt est cnt)
      = keccak256 (s.permitPreimage prm nam nlen est cnt) := by
  rw [permitDigest, domainDigest_eq_keccak256, batchDigest_eq_keccak256]
  rfl

end

/-! ### The commands with their checks passed -/

section
variable {s : State}

/-- A rule that ends in a check of its regions and the write of one string, the check passed (60_exceptions.md R353,
R360). -/
theorem conclude_requireRegions_memWrite {rs : List Region} (hbounds : rs.all s.inBounds = true) (off : Nat) {n : Nat}
    {bs : List Byte} (hlen : bs.length = n) :
    ∃ t, conclude s (requireRegions s rs >>= fun _ => pure (s.memWrite off bs)) = .next t
      ∧ WroteOnly s t ⟨off, n⟩ bs :=
  ⟨_, congrArg (conclude s) (requireRegions_bind_of_inBounds hbounds), wroteOnly_memWrite s off n bs hlen⟩

theorem exec_encWord_of_ready (h : Ready .encWord s) :
    ∃ t, exec .encWord s = .next t
      ∧ WroteOnly s t ⟨s.arg 2, 32⟩ (encodeWord (s.memRead (s.arg 0) (s.arg 1))) := by
  obtain ⟨hlen, hbounds, -⟩ := h
  have hle : s.arg 1 ≤ 32 := of_decide_eq_true hlen
  obtain ⟨t, ht, hwrote⟩ := conclude_requireRegions_memWrite hbounds (s.arg 2)
    (encodeWord_length (s.memRead (s.arg 0) (s.arg 1)) (by simpa using hle))
  exact ⟨t, (conclude_require_of_true hlen).trans ht, hwrote⟩

theorem exec_eip712Digest_of_ready (h : Ready .eip712Digest s) :
    ∃ t, exec .eip712Digest s = .next t
      ∧ WroteOnly s t ⟨s.arg 2, 32⟩ (typedDigest (s.memRead (s.arg 0) 32) (s.memRead (s.arg 1) 32)) := by
  obtain ⟨-, hbounds, -⟩ := h
  exact conclude_requireRegions_memWrite hbounds _ (typedDigest_length _ _)

theorem exec_permitDomain_of_ready (h : Ready .permitDomain s) :
    ∃ t, exec .permitDomain s = .next t
      ∧ WroteOnly s t ⟨s.arg 3, 32⟩
          (domainDigest (s.permitBlockAt (s.arg 0)) (s.memRead (s.arg 1) (s.arg 2))) := by
  obtain ⟨-, hbounds, -⟩ := h
  exact conclude_requireRegions_memWrite hbounds _ (domainDigest_length _ _)

theorem exec_permitToken_of_ready (h : Ready .permitToken s) :
    ∃ t, exec .permitToken s = .next t
      ∧ WroteOnly s t ⟨s.arg 2, 32⟩ (tokenDigest (s.permitBlockAt (s.arg 0)) (s.memRead (s.arg 1) 52)) := by
  obtain ⟨-, hbounds, -⟩ := h
  exact conclude_requireRegions_memWrite hbounds _ (tokenDigest_length _ _)

theorem exec_permitBatch_of_ready (h : Ready .permitBatch s) :
    ∃ t, exec .permitBatch s = .next t
      ∧ WroteOnly s t ⟨s.arg 3, 32⟩
          (batchDigest (s.permitBlockAt (s.arg 0)) (s.estatesAt (s.arg 1) (s.arg 2))) := by
  obtain ⟨-, hbounds, -⟩ := h
  exact conclude_requireRegions_memWrite hbounds _ (batchDigest_length _ _)

theorem exec_permitDigest_of_ready (h : Ready .permitDigest s) :
    ∃ t, exec .permitDigest s = .next t
      ∧ WroteOnly s t ⟨s.arg 5, 32⟩
          (permitDigest (s.permitBlockAt (s.arg 0)) (s.memRead (s.arg 1) (s.arg 2))
            (s.estatesAt (s.arg 3) (s.arg 4))) := by
  obtain ⟨-, hbounds, -⟩ := h
  exact conclude_requireRegions_memWrite hbounds _ (permitDigest_length _ _ _)

/-- PERMIT_VERIFY up to the answer of the verification (45_eip712.md R316). -/
theorem exec_permitVerify_of_ready (h : Ready .permitVerify s) :
    exec .permitVerify s = conclude s (do
      let ok ← verified (verifyPermit
        (keccak256 (s.permitPreimage (s.arg 0) (s.arg 1) (s.arg 2) (s.arg 3) (s.arg 4)))
        (s.memRead (s.arg 5) 65) (s.memRead (s.arg 6) 20))
      pure { s with result := if ok then 1 else 0 }) := by
  obtain ⟨-, hbounds, -⟩ := h
  rw [← permitDigest_eq_keccak256]
  exact congrArg (conclude s) (requireRegions_bind_of_inBounds hbounds)

end

/-- Verification asks for the recovered key's address (45_eip712.md R309). -/
theorem verifyPermit_eq_map (digest sig testator : List Byte) :
    verifyPermit digest sig testator
      = (recover (be digest) (bytesSignature sig)).map fun Q => addressOf (pointBytes Q) == testator := by
  rw [verifyPermit]
  cases recover (be digest) (bytesSignature sig) <;> rfl

/-! ### The results -/

/-- Settles O49: zeros in front leave the integer alone, and each rule with its checks passed writes one string. -/
theorem encWordEip712Results : Obligations.EncWordEip712Results := by
  refine ⟨fun s h => ⟨be_zeros_append _ _, ?_⟩, fun s h => exec_eip712Digest_of_ready h⟩
  have hword : encodeWord (s.memRead (s.arg 0) (s.arg 1))
      = zeros (32 - s.arg 1) ++ s.memRead (s.arg 0) (s.arg 1) := by
    rw [encodeWord, State.memRead_length]
  rw [← hword]
  exact exec_encWord_of_ready h

/-- Settles O50: each rule writes its digest, which is Keccak-256 of the pre-image. -/
theorem permitDigestResults : Obligations.PermitDigestResults := by
  refine ⟨fun s h => ?_, fun s h => ?_, fun s h => ?_, fun s h => ?_⟩
  · rw [← domainDigest_eq_keccak256]
    exact exec_permitDomain_of_ready h
  · rw [← tokenDigest_eq_keccak256]
    exact exec_permitToken_of_ready h
  · rw [← batchDigest_eq_keccak256]
    exact exec_permitBatch_of_ready h
  · rw [← permitDigest_eq_keccak256]
    exact exec_permitDigest_of_ready h

/-- Settles O51: the rule past its bounds check has the two cases of the recovered key. -/
theorem permitVerifyResult : Obligations.PermitVerifyResult := by
  intro s h d o
  have hexec := (exec_permitVerify_of_ready h).trans (conclude_verified s _ _)
  rw [verifyPermit_eq_map, bytesSignature_memRead] at hexec
  refine ⟨fun Q hQ => ?_, fun hnone => ?_⟩
  · rw [hexec, show recover _ _ = some Q from hQ]
    simp only [Option.map_some, conclude_pure, beq_iff_eq]
    rfl
  · rw [hexec, show recover _ _ = none from hnone]
    rfl

/-! ### PERMIT_DIGEST and its steps -/

section
variable {s t : State} {r : Region} {bs : List Byte}

theorem WroteOnly.params (h : WroteOnly s t r bs) : t.params = s.params := by
  obtain ⟨heq, -, -, -⟩ := h
  exact (congrArg State.params heq).trans rfl

theorem WroteOnly.errcode (h : WroteOnly s t r bs) : t.errcode = .ok := by
  obtain ⟨heq, -, -, -⟩ := h
  exact congrArg State.errcode heq

theorem WroteOnly.memRead_same (h : WroteOnly s t r bs) : t.memRead r.off r.len = bs := by
  obtain ⟨-, -, hread, -⟩ := h
  exact hread

/-- What lies apart from the region written reads as before (20_memory.md R82). -/
theorem WroteOnly.memRead_disjoint (h : WroteOnly s t r bs) {off n : Nat} (hapart : Region.disjoint r ⟨off, n⟩) :
    t.memRead off n = s.memRead off n := by
  obtain ⟨-, -, -, hkept⟩ := h
  refine State.memRead_congr fun a ha hlt => hkept a fun q hq => ?_
  rw [List.mem_singleton.mp hq, Region.covers, decide_eq_false_iff_not]
  simp only [Region.disjoint] at hapart
  omega

/-- A parameter block apart from the region written is the same block (45_eip712.md R302). -/
theorem WroteOnly.permitBlockAt_disjoint (h : WroteOnly s t r bs) {prm : Nat} (hapart : Region.disjoint r ⟨prm, 232⟩) :
    t.permitBlockAt prm = s.permitBlockAt prm :=
  congrArg bytesPermitBlock (h.memRead_disjoint hapart)

/-- Estate records apart from the region written are the same records (45_eip712.md R303). -/
theorem WroteOnly.estatesAt_disjoint (h : WroteOnly s t r bs) {est cnt : Nat}
    (hapart : Region.disjoint r ⟨est, 52 * cnt⟩) : t.estatesAt est cnt = s.estatesAt est cnt :=
  congrArg (records cnt) (h.memRead_disjoint hapart)

end

/-- Operands that fit their registers are read back from ARG (10_state.md R31). -/
theorem State.arg_withArgs_eq_getD (s : State) {l : List Nat} (hl : ∀ v ∈ l, v < 2 ^ 32) (i : Fin 8) :
    (s.withArgs l).arg i = l.getD i 0 := by
  refine s.arg_withArgs l i rfl ?_
  by_cases hi : (i : Nat) < l.length
  · rw [List.getD_eq_getElem _ _ hi]
    exact hl _ (List.getElem_mem hi)
  · rw [List.getD_eq_default _ _ (not_lt.mp hi)]
    decide

section
variable (s : State) (hp : s.params.spmBytes < 2 ^ 32) {prm nam nlen est cnt ds sh dst : Nat}
include hp

/-- EIP712_DIGEST of the digests at ds and sh to dst (45_eip712.md R311). -/
theorem exec_eip712Digest_withArgs (hds : ds + 32 ≤ s.params.spmBytes) (hsh : sh + 32 ≤ s.params.spmBytes)
    (hdst : dst + 32 ≤ s.params.spmBytes) :
    ∃ t, exec .eip712Digest (s.withArgs [ds, sh, dst]) = .next t
      ∧ WroteOnly (s.withArgs [ds, sh, dst]) t ⟨dst, 32⟩ (typedDigest (s.memRead ds 32) (s.memRead sh 32)) := by
  have harg := s.arg_withArgs_eq_getD (l := [ds, sh, dst]) (by simp; omega)
  have hready : Ready .eip712Digest (s.withArgs [ds, sh, dst]) := by
    refine ⟨rfl, ?_, nofun⟩
    simp [operandRegions, State.inBounds_iff, harg, hds, hsh, hdst]
  have hexec := exec_eip712Digest_of_ready hready
  simp only [harg] at hexec
  exact hexec

/-- PERMIT_DOMAIN of the block at prm and the name at nam to dst (45_eip712.md R312). -/
theorem exec_permitDomain_withArgs (hprm : prm + 232 ≤ s.params.spmBytes) (hnam : nam + nlen ≤ s.params.spmBytes)
    (hdst : dst + 32 ≤ s.params.spmBytes) :
    ∃ t, exec .permitDomain (s.withArgs [prm, nam, nlen, dst]) = .next t
      ∧ WroteOnly (s.withArgs [prm, nam, nlen, dst]) t ⟨dst, 32⟩
          (domainDigest (s.permitBlockAt prm) (s.memRead nam nlen)) := by
  have harg := s.arg_withArgs_eq_getD (l := [prm, nam, nlen, dst]) (by simp; omega)
  have hready : Ready .permitDomain (s.withArgs [prm, nam, nlen, dst]) := by
    refine ⟨rfl, ?_, nofun⟩
    simp [operandRegions, State.inBounds_iff, harg, hprm, hnam, hdst]
  have hexec := exec_permitDomain_of_ready hready
  simp only [harg] at hexec
  exact hexec

/-- PERMIT_BATCH of the block at prm and the cnt records at est to dst (45_eip712.md R314). -/
theorem exec_permitBatch_withArgs (hprm : prm + 232 ≤ s.params.spmBytes) (hest : est + 52 * cnt ≤ s.params.spmBytes)
    (hdst : dst + 32 ≤ s.params.spmBytes) :
    ∃ t, exec .permitBatch (s.withArgs [prm, est, cnt, dst]) = .next t
      ∧ WroteOnly (s.withArgs [prm, est, cnt, dst]) t ⟨dst, 32⟩
          (batchDigest (s.permitBlockAt prm) (s.estatesAt est cnt)) := by
  have harg := s.arg_withArgs_eq_getD (l := [prm, est, cnt, dst]) (by simp; omega)
  have hready : Ready .permitBatch (s.withArgs [prm, est, cnt, dst]) := by
    refine ⟨rfl, ?_, nofun⟩
    simp [operandRegions, State.inBounds_iff, harg, hprm, hest, hdst]
  have hexec := exec_permitBatch_of_ready hready
  simp only [harg] at hexec
  exact hexec

/-- PERMIT_DIGEST of the block, the name and the cnt records to dst (45_eip712.md R315). -/
theorem exec_permitDigest_withArgs (hprm : prm + 232 ≤ s.params.spmBytes) (hnam : nam + nlen ≤ s.params.spmBytes)
    (hest : est + 52 * cnt ≤ s.params.spmBytes) (hdst : dst + 32 ≤ s.params.spmBytes) :
    ∃ t, exec .permitDigest (s.withArgs [prm, nam, nlen, est, cnt, dst]) = .next t
      ∧ WroteOnly (s.withArgs [prm, nam, nlen, est, cnt, dst]) t ⟨dst, 32⟩
          (permitDigest (s.permitBlockAt prm) (s.memRead nam nlen) (s.estatesAt est cnt)) := by
  have harg := s.arg_withArgs_eq_getD (l := [prm, nam, nlen, est, cnt, dst]) (by simp; omega)
  have hready : Ready .permitDigest (s.withArgs [prm, nam, nlen, est, cnt, dst]) := by
    refine ⟨rfl, ?_, nofun⟩
    simp [operandRegions, State.inBounds_iff, harg, hprm, hnam, hest, hdst]
  have hexec := exec_permitDigest_of_ready hready
  simp only [harg] at hexec
  exact hexec

end

/-- Settles O52: the domain separator lies apart from the block, the records and the batch digest, so PERMIT_BATCH reads
the inputs PERMIT_DIGEST reads and EIP712_DIGEST reads both digests as they were written. -/
theorem permitDigestIsItsSteps : Obligations.PermitDigestIsItsSteps := by
  intro s prm nam nlen est cnt d b dst hwf hprm hnam hest hd hb hdst hdPrm hdEst hdb
  have hp := spmBytes_lt hwf
  obtain ⟨s1, hdomain, wrote1⟩ := exec_permitDomain_withArgs s hp hprm hnam hd
  have hs1 : s1.params = s.params := wrote1.params
  rw [← hs1] at hp hprm hest hd hb hdst
  obtain ⟨s2, hbatch, wrote2⟩ := exec_permitBatch_withArgs s1 hp hprm hest hb
  have hs2 : s2.params = s1.params := wrote2.params
  obtain ⟨s3, htyped, wrote3⟩ := exec_eip712Digest_withArgs s2 (ds := d) (sh := b) (dst := dst)
    (by rwa [hs2]) (by rwa [hs2]) (by rwa [hs2]) (by rwa [hs2])
  rw [hs1] at hp hprm hest hdst
  obtain ⟨t, hdigest, wrote⟩ := exec_permitDigest_withArgs s hp hprm hnam hest hdst
  refine ⟨s1, s2, s3, t, hdomain, hbatch, htyped, hdigest, wrote3.errcode, wrote.errcode, ?_⟩
  have hseparator : s2.memRead d 32 = domainDigest (s.permitBlockAt prm) (s.memRead nam nlen) :=
    (wrote2.memRead_disjoint hdb.symm).trans wrote1.memRead_same
  have hblock : s1.permitBlockAt prm = s.permitBlockAt prm := wrote1.permitBlockAt_disjoint hdPrm
  have hestates : s1.estatesAt est cnt = s.estatesAt est cnt := wrote1.estatesAt_disjoint hdEst
  have hstruct : s2.memRead b 32 = batchDigest (s.permitBlockAt prm) (s.estatesAt est cnt) := by
    rw [← hblock, ← hestates]
    exact wrote2.memRead_same
  calc s3.memRead dst 32
      = typedDigest (s2.memRead d 32) (s2.memRead b 32) := wrote3.memRead_same
    _ = permitDigest (s.permitBlockAt prm) (s.memRead nam nlen) (s.estatesAt est cnt) := by
        rw [hseparator, hstruct, permitDigest]
    _ = t.memRead dst 32 := wrote.memRead_same.symm

end Sys2Proof.Machine
end

section
/-! The settlement of O20: the commands that have no check to pass, so that their writes are reached in every state
(46_engine_control.md R340; 40_keccak.md R155, R159). -/

namespace Sys2Proof.Machine

/-- The code OK of a completion is the STATUS of a success (60_exceptions.md R360). -/
theorem State.complete_ok (s : State) : s.complete .ok = s.succeeded := rfl

/-- A rule that has no check and writes KSTATE alone: the write and the STATUS of a success do not interfere. -/
theorem conclude_pure_kstate (s : State) (A : Lanes) :
    conclude s (pure { s with kstate := A }) = .next { s.succeeded with kstate := A } := by
  rw [conclude_pure, State.complete_ok]
  rfl

/-- Settles O20: no check stands before the writes of the three rules; that of NOP writes nothing, those of KINIT and
KPERMUTE write KSTATE. -/
theorem nopKinitKpermuteResults : Obligations.NopKinitKpermuteResults := by
  intro s
  have hnop : exec .nop s = .next s.succeeded := (conclude_pure s s).trans (congrArg _ s.complete_ok)
  exact ⟨hnop, conclude_pure_kstate s zeroLanes, conclude_pure_kstate s (keccakF s.kstate)⟩

end Sys2Proof.Machine
end

section
/-! SUPPORT and the settlements of O53, O54, O57 and O58: how a command completes, and the order of its checks. Every
rule is, in this order, a check of lengths, of bounds and of the key, and then value checks of its own (`exec_reports`,
60_exceptions.md R353); which code a command ends with follows from this one shape. -/

namespace Sys2Proof.Machine

/-! ### Completion -/

/-- Every command leaves some state and completes with one code (60_exceptions.md R350, R360). -/
theorem exec_completes (i : Instr) (s : State) : ∃ (u : State) (c : ErrorCode), exec i s = .next (u.complete c) := by
  obtain ⟨r, hr⟩ := exec_eq_conclude i s
  rw [hr]
  cases r with
  | ok u => exact ⟨u, .ok, rfl⟩
  | error e => exact ⟨s, e, rfl⟩

/-- A completion with an error sets BUSY, DONE, ERR and ERRCODE (60_exceptions.md R356, R360). -/
theorem State.complete_error (s : State) {e : ErrorCode} (he : e ≠ .ok) : s.complete e = s.failed e := by
  rw [State.complete, decide_eq_true he]
  rfl

/-- What follows the rule of a command that ends with an error is the state the rule read (60_exceptions.md R356). -/
theorem eq_failed_of_conclude {s t : State} {r : Except ErrorCode State} (h : conclude s r = .next t)
    (he : t.errcode ≠ .ok) : t = s.failed t.errcode := by
  rcases conclude_next h with ⟨u, -, rfl⟩ | ⟨e, -, rfl⟩
  · exact absurd rfl he
  · exact s.complete_error he

/-- An illegal word too answers through `conclude` (30_encoding.md R111; 60_exceptions.md R360). -/
theorem runCommand_eq_conclude (s : State) : ∃ r, runCommand s = conclude s r := by
  unfold runCommand
  cases decode s.cmd with
  | ok i => exact exec_eq_conclude i s
  | error e => exact ⟨.error .illegalCmd, rfl⟩

/-- Settles O53: completion sets the four fields, whatever the rule did. -/
theorem everyCommandCompletes : Obligations.EveryCommandCompletes := by
  intro i s
  obtain ⟨u, c, h⟩ := exec_completes i s
  exact ⟨u.complete c, h, u.complete_busy c, u.complete_done c, u.complete_err c⟩

/-- Settles O54: a rule that raises an error has its writes discarded (`eq_failed_of_conclude`). -/
theorem errorsWriteNothing : Obligations.ErrorsWriteNothing := by
  constructor
  · intro i s t h he
    obtain ⟨r, hr⟩ := exec_eq_conclude i s
    exact eq_failed_of_conclude (hr.symm.trans h) he
  · intro s t h he
    obtain ⟨r, hr⟩ := runCommand_eq_conclude s
    exact eq_failed_of_conclude (hr.symm.trans h) he

/-! ### Checks in their order -/

/-- The value checks of step 5 of 60_exceptions.md R353: which command can raise which of their codes. -/
def valueError (i : Instr) : ErrorCode → Bool
  | .invalidRange => i ∈ [.ecFinv, .ecPadd, .ecPdbl, .ecSmul, .ecOncurve]
  | .pointNotOnCurve => i ∈ [.ecPadd, .ecPdbl, .ecSmul]
  | .degenerate => i ∈ [.ecFinv, .ecPadd, .ecPdbl, .ecSmul]
  | .recoveryFailure => i ∈ [.ecdsaRecover, .permitVerify]
  | .authFailure => i = .gcmDec
  | .ok | .illegalCmd | .invalidLength | .outOfBounds | .noKey => false

/-- The rule raises the code of the first listed check that fails; with all of them passed it raises value errors of
the command only. -/
def ChecksFirst (i : Instr) : List (Bool × ErrorCode) → Except ErrorCode State → Prop
  | [], r => ∀ e, r = .error e → valueError i e = true
  | (c, e) :: cs, r => (c = false → r = .error e) ∧ (c = true → ChecksFirst i cs r)

/-- Steps 2 to 4 of 60_exceptions.md R353, from the operand tables of Safety.lean. -/
def earlyChecks (i : Instr) (s : State) : List (Bool × ErrorCode) :=
  [(lengthsLegal i s, .invalidLength), ((operandRegions i s).all s.inBounds, .outOfBounds),
    (!needsKey i || s.keyValid, .noKey)]

namespace ChecksFirst

variable {i : Instr} {s u : State} {c : Bool} {e : ErrorCode} {cs : List (Bool × ErrorCode)}
  {r : Except ErrorCode State}

theorem pure : ChecksFirst i [] (pure u) := nofun

/-- A check the command does not have. -/
theorem skip (hr : ChecksFirst i cs r) : ChecksFirst i ((true, e) :: cs) r := ⟨nofun, fun _ => hr⟩

/-- The next listed check. -/
theorem require {k : Unit → Except ErrorCode State} (hk : ChecksFirst i cs (k ())) :
    ChecksFirst i ((c, e) :: cs) (require c e >>= k) := by
  refine ⟨?_, ?_⟩ <;> rintro rfl
  · rfl
  · exact hk

/-- A value check. -/
theorem value {k : Unit → Except ErrorCode State} (he : valueError i e = true) (hk : ChecksFirst i [] (k ())) :
    ChecksFirst i [] (Machine.require c e >>= k) := by
  cases c with
  | false => rintro _ ⟨⟩; exact he
  | true => exact hk

/-- A point to be written, or a value error in place of O. -/
theorem finitePoint {g : GroupPoint} {k : Point → Except ErrorCode State} (he : valueError i e = true)
    (hk : ∀ p, ChecksFirst i [] (k p)) : ChecksFirst i [] (finitePoint g e >>= k) := by
  cases g with
  | none => rintro _ ⟨⟩; exact he
  | some p => exact hk p

theorem verified {o : Option Bool} {k : Bool → Except ErrorCode State} (he : valueError i .recoveryFailure = true)
    (hk : ∀ b, ChecksFirst i [] (k b)) : ChecksFirst i [] (verified o >>= k) := by
  cases o with
  | none => rintro _ ⟨⟩; exact he
  | some b => exact hk b

/-- An error is the code of a listed check that fails, or a value error of the command. -/
theorem of_error (h : ChecksFirst i cs r) (hr : r = .error e) : (false, e) ∈ cs ∨ valueError i e = true := by
  induction cs with
  | nil => exact .inr (h e hr)
  | cons check cs ih =>
    obtain ⟨c, f⟩ := check
    obtain ⟨hfail, hpass⟩ := h
    cases c with
    | false =>
      cases hr.symm.trans (hfail rfl)
      exact .inl List.mem_cons_self
    | true => exact (ih (hpass rfl)).imp_left (List.mem_cons_of_mem _)

end ChecksFirst

/-- The engine step of a rule with its checks in the order of 60_exceptions.md R353. -/
def Reports (i : Instr) (s : State) (o : Result) : Prop :=
  ∃ r, o = conclude s r ∧ ChecksFirst i (earlyChecks i s) r

theorem conclude_reports {i : Instr} {s : State} {r : Except ErrorCode State}
    (h : ChecksFirst i (earlyChecks i s) r) : Reports i s (conclude s r) := ⟨r, rfl, h⟩

/-- The length check of AES_KEYEXP, as its rule and as the operand table write it (41_aes.md R190). -/
theorem lengthsLegal_aesKeyexp (s : State) :
    lengthsLegal .aesKeyexp s = decide (s.arg 1 = 16 ∨ s.arg 1 = 24 ∨ s.arg 1 = 32) := by
  simp [lengthsLegal, Bool.or_assoc, Bool.beq_eq_decide_eq]

/-- One case a command: which of the three early checks it has, and its value checks. -/
theorem exec_reports (i : Instr) (s : State) : Reports i s (exec i s) := by
  cases i with
  | nop | kinit | kpermute | ctrInc => exact conclude_reports (r := .ok _) (.skip (.skip (.skip .pure)))
  | ghSeth => exact conclude_reports (.skip (.skip (.require .pure)))
  | kabsorb | khash | ghUpdate | gfMul | ecAddr | eip712Digest | permitDomain | permitToken | permitBatch
  | permitDigest => exact conclude_reports (.skip (.require (.skip .pure)))
  | kfinal | ksqueeze | encWord => exact conclude_reports (.require (.require (.skip .pure)))
  | aesKeyexp =>
    refine conclude_reports ?_
    rw [earlyChecks, lengthsLegal_aesKeyexp]
    exact .require (.require (.skip .pure))
  | aesEnc | ctrXor | gcmJ0 | gcmEnc => exact conclude_reports (.skip (.require (.require .pure)))
  | gcmDec => exact conclude_reports (.skip (.require (.require (.value rfl .pure))))
  | ecOncurve => exact conclude_reports (.skip (.require (.skip (.value rfl .pure))))
  | ecFinv =>
    exact conclude_reports (.skip (.require (.skip
      (.value rfl (.value rfl .pure)))))
  | ecPadd | ecPdbl =>
    exact conclude_reports (.skip (.require (.skip
      (.value rfl (.value rfl (.value rfl .pure))))))
  | ecSmul =>
    exact conclude_reports (.skip (.require (.skip
      (.value rfl (.value rfl (.value rfl
        (.value rfl (.finitePoint rfl fun _ => .pure))))))))
  | ecdsaRecover =>
    exact conclude_reports (.skip (.require (.skip (.finitePoint rfl fun _ => .pure))))
  | permitVerify =>
    exact conclude_reports (.skip (.require (.skip (.verified rfl fun _ => .pure))))

/-! ### The settlements -/

section
variable {i : Instr} {s t : State} {o : Result}

/-- The first early check that fails ends the command with its code. -/
theorem Reports.first_failure (h : Reports i s o) :
    (lengthsLegal i s = false → o = .next (s.failed .invalidLength))
    ∧ (lengthsLegal i s = true → (operandRegions i s).all s.inBounds = false → o = .next (s.failed .outOfBounds))
    ∧ (lengthsLegal i s = true → (operandRegions i s).all s.inBounds = true → needsKey i = true →
        s.keyValid = false → o = .next (s.failed .noKey)) := by
  obtain ⟨r, rfl, hlength, hrest⟩ := h
  have fails {e : ErrorCode} (he : e ≠ .ok) (hr : r = .error e) : conclude s r = .next (s.failed e) := by
    rw [hr, conclude_error, s.complete_error he]
  refine ⟨fun hl => fails nofun (hlength hl), fun hl hb => ?_, fun hl hb hneeds hkey => ?_⟩
  · obtain ⟨hbounds, -⟩ := hrest hl
    exact fails nofun (hbounds hb)
  · obtain ⟨-, hlast⟩ := hrest hl
    obtain ⟨hnoKey, -⟩ := hlast hb
    exact fails nofun (hnoKey (by simp [hneeds, hkey]))

/-- The check of the command that a code stands for has failed (60_exceptions.md R351). -/
def FailedCheck (i : Instr) (s : State) : ErrorCode → Prop
  | .invalidLength => lengthsLegal i s = false
  | .outOfBounds => (operandRegions i s).all s.inBounds = false
  | .noKey => needsKey i = true ∧ s.keyValid = false
  | e => valueError i e = true

theorem failedCheck_of_mem_earlyChecks {e : ErrorCode} (h : (false, e) ∈ earlyChecks i s) : FailedCheck i s e := by
  simp only [earlyChecks, List.mem_cons, Prod.mk.injEq, List.not_mem_nil, or_false] at h
  rcases h with ⟨hlength, rfl⟩ | ⟨hbounds, rfl⟩ | ⟨hkey, rfl⟩
  · exact hlength.symm
  · exact hbounds.symm
  · simpa [FailedCheck] using hkey.symm

theorem failedCheck_of_valueError {e : ErrorCode} (h : valueError i e = true) : FailedCheck i s e := by
  cases e with
  | invalidLength | outOfBounds | noKey => cases h
  | _ => exact h

/-- A command that ends with an error has failed the check its code stands for. -/
theorem Reports.failedCheck (h : Reports i s (.next t)) (he : t.errcode ≠ .ok) : FailedCheck i s t.errcode := by
  obtain ⟨r, hr, hchecks⟩ := h
  rcases conclude_next hr.symm with ⟨u, -, rfl⟩ | ⟨e, hre, rfl⟩
  · exact absurd rfl he
  · exact (hchecks.of_error hre).elim failedCheck_of_mem_earlyChecks failedCheck_of_valueError

end

/-- The commands that have a length check (60_exceptions.md R351, row INVALID_LENGTH). -/
theorem mem_of_lengthsLegal_eq_false {i : Instr} {s : State} (h : lengthsLegal i s = false) :
    i ∈ [.kfinal, .ksqueeze, .aesKeyexp, .encWord] := by
  cases i with
  | kfinal | ksqueeze | aesKeyexp | encWord => decide
  | _ => cases h

/-- A region out of bounds, on unbounded integers (20_memory.md R83). -/
theorem all_inBounds_eq_false_iff (s : State) (rs : List Region) :
    rs.all s.inBounds = false ↔ ∃ r ∈ rs, s.params.spmBytes < r.off + r.len := by
  simp [State.inBounds]

/-- Settles O57: the codes are the table of `ErrorCode.code`; every rule has the early checks in their order. -/
theorem lengthThenBoundsThenKey : Obligations.LengthThenBoundsThenKey := by
  refine ⟨⟨rfl, rfl, rfl, rfl, rfl, rfl, rfl, rfl, rfl, rfl⟩, fun i s => ?_⟩
  obtain ⟨hlength, hbounds, hkey⟩ := (exec_reports i s).first_failure
  refine ⟨hlength, fun hl hout => hbounds hl ((all_inBounds_eq_false_iff s _).mpr hout), fun hl hin hneeds haes => ?_⟩
  have hall : (operandRegions i s).all s.inBounds = true :=
    List.all_eq_true.mpr fun r hr => (s.inBounds_iff r).mpr (hin r hr)
  exact hkey hl hall hneeds (by simp [State.keyValid, haes])

/-- Settles O58: each code names the check that failed, and the operand tables and `valueError` say which commands have
that check. -/
theorem errorCodesByCommand : Obligations.ErrorCodesByCommand := by
  intro i s t h
  have hreports : Reports i s (.next t) := h ▸ exec_reports i s
  have failed {e : ErrorCode} (ht : t.errcode = e) (he : e ≠ .ok) : FailedCheck i s e :=
    ht ▸ hreports.failedCheck (ht ▸ he)
  refine ⟨fun ht => ?_, fun ht => mem_of_lengthsLegal_eq_false (failed ht nofun), fun ht hnone => ?_, fun ht => ?_,
    fun ht => of_decide_eq_true (failed ht nofun), fun ht => of_decide_eq_true (failed ht nofun),
    fun ht => of_decide_eq_true (failed ht nofun), fun ht => of_decide_eq_true (failed ht nofun),
    fun ht => of_decide_eq_true (failed ht nofun)⟩
  · exact absurd (failed ht nofun) Bool.false_ne_true
  · have hbounds : (operandRegions i s).all s.inBounds = false := failed ht nofun
    rw [hnone] at hbounds
    cases hbounds
  · obtain ⟨hneeds, -⟩ : needsKey i = true ∧ s.keyValid = false := failed ht nofun
    exact of_decide_eq_true hneeds

end Sys2Proof.Machine
end

section
/-! SUPPORT and the settlements of O4 to O6, O18 and O60: the step in which the engine runs a command or stays idle, the
parameters through every event, and the interrupt output. -/

namespace Sys2Proof.Machine

/-! ### The engine's turn -/

/-- Settles O4: the busy engine runs CMD. -/
theorem stepRunsTheDecodedCommand : Obligations.StepRunsTheDecodedCommand := by
  intro s i hnext hbusy hdecode
  have hturn : step s = runCommand { s with agenda := s.agenda.tail } := (step_engineNext hnext).trans (if_pos hbusy)
  exact hturn.trans (runCommand_of_decode_ok hdecode)

/-- An idle engine keeps all state (60_exceptions.md R370). -/
theorem step_engineNext_idle {s : State} (hnext : EngineNext s) (hidle : s.busy = false) :
    step s = .next { s with agenda := s.agenda.tail } :=
  (step_engineNext hnext).trans (if_neg (by simp [hidle]))

/-! ### No event changes the parameters -/

/-- A step that answers a next state with the parameters of `s` (log entry 3). -/
def KeepsParams (s : State) (o : Result) : Prop := ∃ t, o = .next t ∧ t.params = s.params

theorem exec_keepsParams (i : Instr) (s : State) : KeepsParams s (exec i s) := by
  obtain ⟨u, c, h⟩ := exec_completes i s
  obtain ⟨-, -, -, -, hparams, -⟩ := commandFrame i s _ h
  exact ⟨_, h, hparams⟩

theorem engineTurn_keepsParams (s : State) : KeepsParams s (engineTurn s) := by
  unfold engineTurn runCommand
  split
  · split
    · exact exec_keepsParams _ s
    · exact ⟨_, conclude_error s _, rfl⟩
  · exact ⟨s, rfl, rfl⟩

@[simp] theorem State.softReset_params (s : State) : s.softReset.params = s.params := by rw [State.softReset_eq]; rfl

@[simp] theorem State.powerOn_params (s : State) : s.powerOn.params = s.params := by rw [State.powerOn_eq]; rfl

theorem State.writeTarget_params (s : State) (t : Target) (v : Word) : (s.writeTarget t v).params = s.params := by
  cases t with
  | ctrl =>
    simp only [State.writeTarget, State.writeCtrl]
    split
    · exact s.softReset_params
    · rfl
  | _ => rfl

theorem State.blockAccess_params (s : State) (a : Access) : (s.blockAccess a).params = s.params := by
  cases a with
  | read width off => rw [State.blockAccess_read]
  | write width off v =>
    simp only [State.blockAccess, State.hostWrite]
    split
    · split
      · rfl
      · exact s.writeTarget_params _ v
    · rfl

theorem State.hostAccess_params (s : State) (a : Access) : (s.hostAccess a).params = s.params := by
  rcases s.hostAccess_cases a with h | ⟨b, h⟩ <;> rw [h]
  exact s.blockAccess_params b

theorem step_keepsParams (s : State) : KeepsParams s (step s) := by
  unfold step nextEvent
  split
  · exact engineTurn_keepsParams s
  · exact engineTurn_keepsParams s.popAgenda
  · exact ⟨_, rfl, State.hostAccess_params _ _⟩
  · exact ⟨_, rfl, State.powerOn_params _⟩

/-! ### Accesses below the block -/

/-- An access that is not the block's only takes its turn (20_memory.md R93; log entry 11). -/
theorem step_not_block {s : State} {a : Access} {rest : List Turn} (hagenda : s.agenda = .host a :: rest)
    (hnone : relativeAccess s.params.wceBase a = none) : step s = .next { s with agenda := rest } := by
  simp [step, nextEvent, hagenda, State.hostAccess, State.popAgenda, hnone]

/-- Settles O5: each kind of event answers a next state with the parameters it found, and two of them keep all else. -/
theorem stepAlwaysAnswersNext : Obligations.StepAlwaysAnswersNext := by
  refine ⟨step_keepsParams, fun s hnext hidle => step_engineNext_idle hnext hidle, ?_⟩
  intro s width addr v rest hbelow hagenda
  have hout : ¬s.params.wceBase ≤ addr := Nat.not_le.mpr hbelow
  rcases hagenda with h | h <;> exact step_not_block h (if_neg hout)

/-! ### CMD -/

/-- Settles O6: CMD is locked while a command runs, and a write to it is an acceptance otherwise. -/
theorem cmdWriteAcceptedWhenIdle : Obligations.CmdWriteAcceptedWhenIdle := by
  intro s v rest h
  exact ⟨fun hidle => step_write_idle (t := .cmd) h rfl rfl hidle,
    fun hbusy => step_write_dropped (t := .cmd) h rfl rfl hbusy rfl⟩

/-! ### The interrupt output -/

/-- Completion sets DONE, so IRQ is IE (60_exceptions.md R362). -/
theorem State.irq_complete (s : State) (c : ErrorCode) : (s.complete c).irq = s.ie := Bool.and_true s.ie

/-- With DONE at 0 IRQ is 0 (60_exceptions.md R362). -/
theorem State.irq_of_not_done {s : State} (h : s.done = false) : s.irq = false := by rw [State.irq, h, Bool.and_false]

/-- With IE at 0 IRQ is 0 (60_exceptions.md R362). -/
theorem State.irq_of_not_ie {s : State} (h : s.ie = false) : s.irq = false := by rw [State.irq, h, Bool.false_and]

/-- Settles O18: completion sets DONE and leaves IE; each of the accesses clears DONE or IE, but for the dropped write,
which sets OVERRUN alone. -/
theorem interruptFollowsDone : Obligations.InterruptFollowsDone := by
  obtain ⟨-, hstatus⟩ := statusFieldsAndWriteOneToClear
  obtain ⟨-, -, hctrl⟩ := ctrlRegisterFields
  refine ⟨fun i s t h => ?_, fun s v rest h hv => ⟨_, hstatus s v rest h, ?_⟩, fun s v rest h hidle => ?_,
    fun s v rest h hv => ?_, fun s v rest h hbusy => ?_⟩
  · obtain ⟨u, c, hu, rfl⟩ := exec_stepWrites i s t h
    obtain ⟨hie, -⟩ := hu.keeps_control
    rw [u.irq_complete, hie]
  · exact State.irq_of_not_done (by simp [hv])
  · obtain ⟨haccept, -⟩ := cmdWriteAcceptedWhenIdle s v rest h
    exact ⟨_, haccept hidle, State.irq_of_not_done rfl⟩
  · obtain ⟨hset, hreset⟩ := hctrl s v rest h
    cases hsrst : v.getLsbD 1 with
    | false => exact ⟨_, hset hsrst, State.irq_of_not_ie (hv.resolve_right (hsrst ▸ Bool.false_ne_true))⟩
    | true =>
      obtain ⟨t, ht, -, hie⟩ := hreset hsrst
      exact ⟨t, ht, State.irq_of_not_ie hie⟩
  · obtain ⟨-, hdrop⟩ := cmdWriteAcceptedWhenIdle s v rest h
    exact ⟨_, hdrop hbusy, rfl, rfl⟩

/-! ### The state after reset -/

/-- Settles O60: the defaults are legal parameters, nothing is listed in the scratchpad and every register is 0. -/
theorem resetHasInvariant : Obligations.ResetHasInvariant where
  params := by decide
  canonical := rfl
  inside := nofun
  keyRounds := .inl rfl
  roundKeys := fun i _ => by simp [State.reset]
  boolean := .inl rfl
  running := nofun
  errors := nofun

end Sys2Proof.Machine
end

section
/-! SUPPORT and the settlements of O16 and O17: which byte each draw of a reset goes to, and the two resets
(70_reset_and_hazards.md R390, R392). -/

namespace Sys2Proof.Machine

/-! ### Which draw a byte takes -/

section
variable (s : State) (r q : Region)

/-- A region takes one draw for each of its bytes that exist (log entry 6). -/
theorem State.drawRegion_drawn : (s.drawRegion r).drawn = s.drawn + min r.len (s.params.spmBytes - r.off) :=
  congrArg State.drawn (s.drawBytes_eq r.off _)

@[simp] theorem State.drawRegion_params : (s.drawRegion r).params = s.params :=
  (congrArg State.params (s.drawRegion_eq r)).trans rfl

/-- Byte k of a region takes draw k of those the region takes (70_reset_and_hazards.md R392; log entry 6). -/
theorem State.readByte_drawRegion_inside {k : Nat} (hk : k < r.len) (hin : r.off + k < s.params.spmBytes) :
    (s.drawRegion r).readByte (r.off + k) = Config.drawnByte (s.drawn + k) := by
  rw [State.drawRegion, State.readByte_drawBytes, if_pos (by omega), Nat.add_sub_cancel_left]

/-- A second region takes the draws that follow those of the first (log entry 6). -/
theorem State.readByte_drawRegion_second {k : Nat} (hk : k < q.len) (hin : q.off + k < s.params.spmBytes) :
    ((s.drawRegion r).drawRegion q).readByte (q.off + k)
      = Config.drawnByte (s.drawn + min r.len (s.params.spmBytes - r.off) + k) := by
  rw [State.readByte_drawRegion_inside _ q hk (by simpa using hin), State.drawRegion_drawn]

end

/-! ### Power-on reset -/

/-- With every register at its power-on value CTRL reads 0 (10_state.md R35). -/
theorem State.ctrlWord_resetRegisters (s : State) : s.resetRegisters.ctrlWord = 0 := by
  rw [State.ctrlWord, State.resetRegisters_ie]
  decide

/-- With every register at its power-on value STATUS reads 0 (10_state.md R34). -/
theorem State.statusWord_resetRegisters (s : State) : s.resetRegisters.statusWord = 0 := by
  simp only [State.statusWord, State.keyValid, State.resetRegisters_busy, State.resetRegisters_done,
    State.resetRegisters_err, State.resetRegisters_overrun, State.resetRegisters_errcode, State.resetRegisters_aesnr]
  decide

/-- Settles O17: the whole scratchpad is one region of draws, and then every register is reset. -/
theorem powerOnResetsEverything : Obligations.PowerOnResetsEverything := by
  intro s rest hagenda
  have hstep : step s = .next { s with agenda := rest }.powerOn := by
    simp [step, nextEvent, hagenda, State.popAgenda]
  refine ⟨_, hstep, State.powerOn_eq _, rfl, State.statusWord_resetRegisters _,
    State.ctrlWord_resetRegisters _, fun a ha => ?_⟩
  have hdraw := State.readByte_drawRegion_inside { s with agenda := rest } ⟨0, s.params.spmBytes⟩ ha
    ((Nat.zero_add a).trans_lt ha)
  rwa [Nat.zero_add] at hdraw

/-! ### The soft reset -/

section
variable {s : State}

theorem State.softReset_of_no_output (h : s.runningOutputs = []) : s.softReset = s.resetRegisters := by
  rw [State.softReset, h]
  rfl

theorem State.runningOutputs_of_idle (h : s.busy = false) : s.runningOutputs = [] := if_neg (by simp [h])

theorem State.runningOutputs_of_illegal {e : DecodeError} (h : decode s.cmd = .error e) : s.runningOutputs = [] := by
  unfold State.runningOutputs
  rw [h]
  split <;> rfl

theorem State.runningOutputs_of_running {i : Instr} (hbusy : s.busy = true) (h : decode s.cmd = .ok i) :
    s.runningOutputs = outputRegions i s := by
  unfold State.runningOutputs
  rw [if_pos hbusy, h]

end

/-- Which regions a command writes does not depend on the agenda (30_encoding.md R112). -/
theorem outputRegions_withAgenda (i : Instr) (s : State) (rest : List Turn) :
    outputRegions i { s with agenda := rest } = outputRegions i s := by
  cases i <;> rfl

/-- Settles O16: a write to CTRL with SRST is the soft reset (`ctrlRegisterFields`), which draws the output regions of
the command that is running and resets the registers, BUSY among them, so that the engine's next turn is idle. -/
theorem softResetCancelsAndResets : Obligations.SoftResetCancelsAndResets := by
  intro s v rest h hsrst
  obtain ⟨-, -, hctrl⟩ := ctrlRegisterFields
  obtain ⟨-, hreset⟩ := hctrl s v rest h
  obtain ⟨t, hstep, ht, -⟩ := hreset hsrst
  have hquiet (hnone : State.runningOutputs { s with agenda := rest } = []) : t.spm = s.spm ∧ t.drawn = s.drawn := by
    rw [ht, State.softReset_of_no_output hnone]
    exact ⟨rfl, rfl⟩
  have hregs := ht.trans (State.softReset_eq _)
  rw [← ht] at hregs
  refine ⟨t, hstep, hregs, fun hidle => hquiet (State.runningOutputs_of_idle hidle),
    fun e _ hill => hquiet (State.runningOutputs_of_illegal hill), fun i hbusy hdecode => ?_, fun more hmore => ?_⟩
  · have hout : State.runningOutputs { s with agenda := rest } = outputRegions i s :=
      (State.runningOutputs_of_running hbusy hdecode).trans (outputRegions_withAgenda i s rest)
    have hread (a : Nat) :
        t.readByte a = ((outputRegions i s).foldl State.drawRegion { s with agenda := rest }).readByte a := by
      rw [ht, State.softReset, hout]
      rfl
    refine ⟨fun a ha => ?_, fun r hr k hk hin => ?_, fun r q hrq => ⟨fun k hk hin hq => ?_, fun k hk hin => ?_⟩⟩
    · exact (hread a).trans (State.readByte_drawRegions _ _ a ha)
    · rw [hread, hr]
      exact State.readByte_drawRegion_inside _ r hk hin
    · rw [hread, hrq]
      exact (State.readByte_drawRegion _ q _ hq).trans (State.readByte_drawRegion_inside _ r hk hin)
    · rw [hread, hrq]
      exact State.readByte_drawRegion_second _ r q hk hin
  · have hbusy : t.busy = false := congrArg State.busy hregs
    have hagenda : t.agenda = .engine :: more := (congrArg State.agenda hregs).trans hmore
    rw [step_engineNext_idle (.inr ⟨more, hagenda⟩) hbusy, hagenda, List.tail_cons]

end Sys2Proof.Machine
end

section
/-! SUPPORT and the settlement of O19: two runs of one rule, in a state and in the same state with other DONE, ERR,
OVERRUN and agenda, which no rule reads, so that both check and write the same; and from it a host access and the engine
step in either order (60_exceptions.md R363). -/

namespace Sys2Proof.Machine

/-! ### What a rule does not read -/

section
variable (done err overrun : Bool) (agenda : List Turn)

/-- The state with other values in what a STATUS write clears, and another agenda (10_state.md R34; log entry 1). -/
def State.withFlags (s : State) : State :=
  { s with done := done, err := err, overrun := overrun, agenda := agenda }

/-- The second rule fails as the first does, or leaves the state the first leaves with the other flags. -/
def SameButFlags (r r' : Except ErrorCode State) : Prop := r' = r.map (State.withFlags done err overrun agenda)

/-- The second step answers the state the first answers with the other OVERRUN and agenda: completion sets DONE and
ERR. -/
def StepSameButFlags (o o' : Result) : Prop :=
  ∀ t, o = .next t → o' = .next { t with overrun := overrun, agenda := agenda }

variable {done err overrun agenda}

/-- Registers written. -/
theorem SameButFlags.registers {u : State} :
    SameButFlags done err overrun agenda (pure u) (pure (u.withFlags done err overrun agenda)) := rfl

/-- A string written to the scratchpad. -/
theorem SameButFlags.string {u : State} {off : Nat} {bs : List Byte} :
    SameButFlags done err overrun agenda (pure (u.memWrite off bs))
      (pure ((u.withFlags done err overrun agenda).memWrite off bs)) := rfl

/-- RESULT written. -/
theorem SameButFlags.answer {u : State} {w : Word} :
    SameButFlags done err overrun agenda (pure { u with result := w })
      (pure { u.withFlags done err overrun agenda with result := w }) := rfl

/-- A check or a value that both rules compute alike. -/
theorem SameButFlags.bind {α : Type} {x : Except ErrorCode α} {k k' : α → Except ErrorCode State}
    (hk : ∀ a, SameButFlags done err overrun agenda (k a) (k' a)) :
    SameButFlags done err overrun agenda (x >>= k) (x >>= k') := by
  cases x with
  | error e => rfl
  | ok a => exact hk a

theorem conclude_sameButFlags {s : State} {r r' : Except ErrorCode State}
    (h : SameButFlags done err overrun agenda r r') :
    StepSameButFlags overrun agenda (conclude s r) (conclude (s.withFlags done err overrun agenda) r') := by
  subst h
  cases r <;> rintro _ ⟨⟩ <;> rfl

/-- One case a command: the checks and values that stand before its writes, and what kind of write they are. -/
theorem exec_sameButFlags (i : Instr) (s : State) :
    StepSameButFlags overrun agenda (exec i s) (exec i (s.withFlags done err overrun agenda)) := by
  cases i with
  | nop | kinit | kpermute | ctrInc => exact conclude_sameButFlags (s := s) .registers
  | kabsorb | ghSeth | ghUpdate => exact conclude_sameButFlags (.bind fun _ => .registers)
  | khash | gfMul | ecAddr | eip712Digest | permitDomain | permitToken | permitBatch | permitDigest =>
    exact conclude_sameButFlags (.bind fun _ => .string)
  | kfinal | aesKeyexp | ctrXor | gcmJ0 =>
    exact conclude_sameButFlags (.bind fun _ => .bind fun _ => .registers)
  | ecOncurve | permitVerify => exact conclude_sameButFlags (.bind fun _ => .bind fun _ => .answer)
  | ksqueeze | aesEnc | gcmEnc | ecdsaRecover | encWord =>
    exact conclude_sameButFlags (.bind fun _ => .bind fun _ => .string)
  | gcmDec | ecFinv => exact conclude_sameButFlags (.bind fun _ => .bind fun _ => .bind fun _ => .string)
  | ecPadd | ecPdbl =>
    exact conclude_sameButFlags (.bind fun _ => .bind fun _ => .bind fun _ => .bind fun _ => .string)
  | ecSmul =>
    exact conclude_sameButFlags (.bind fun _ => .bind fun _ => .bind fun _ => .bind fun _ => .bind fun _ =>
      .bind fun _ => .string)

end

/-! ### The engine step after a host access, and before it -/

section
variable {s u : State} {i : Instr} (hbusy : s.busy = true) (hdecode : decode s.cmd = .ok i)
  (hexec : exec i { s with agenda := [] } = .next u)

include hexec in
/-- The command that leaves `u`, with other flags and another agenda before it. -/
theorem exec_withFlags (done err overrun : Bool) (agenda : List Turn) :
    exec i (s.withFlags done err overrun agenda) = .next { u with overrun := overrun, agenda := agenda } :=
  exec_sameButFlags i { s with agenda := [] } u hexec

include hexec in
/-- The agenda after a command is the one before it (log entry 1). -/
theorem agenda_of_exec_last : u.agenda = [] := by
  obtain ⟨-, -, -, -, -, hagenda, -⟩ := commandFrame i _ u hexec
  exact hagenda

include hbusy hdecode hexec

/-- The last engine step, of a command whose STATUS flags the host has written: completion sets DONE and ERR, so only
OVERRUN is as the host left it (60_exceptions.md R360, R363). -/
theorem step_after_flags (done err overrun : Bool) :
    step (s.withFlags done err overrun [.engine]) = .next { u with overrun := overrun } := by
  have hturn : step (s.withFlags done err overrun [.engine]) = exec i (s.withFlags done err overrun []) :=
    stepRunsTheDecodedCommand _ i (.inr ⟨[], rfl⟩) hbusy hdecode
  rw [hturn, exec_withFlags hexec, ← agenda_of_exec_last hexec]

/-- The engine step with a host access still to come (60_exceptions.md R360, R363). -/
theorem step_before_access {a : Turn} (hagenda : s.agenda = [.engine, a]) :
    step s = .next { u with agenda := [a] } := by
  have hoverrun : u.overrun = s.overrun := by
    obtain ⟨-, hoverrun, -⟩ := commandFrame i _ u hexec
    exact hoverrun
  have hturn : step s = exec i (s.withFlags s.done s.err s.overrun [a]) := by
    rw [stepRunsTheDecodedCommand s i (.inr ⟨[a], hagenda⟩) hbusy hdecode, hagenda]
    rfl
  rw [hturn, exec_withFlags hexec, ← hoverrun]

/-- A write the busy engine drops, before the engine step (20_memory.md R88; 60_exceptions.md R363 (b)). -/
theorem run_dropped_write_then_engine {off : Nat} {v : Word} {t : Target}
    (hagenda : s.agenda = [s.hostTurn (.write 32 off v), .engine]) (h4 : off % 4 = 0) (hloc : locate s.params off = t)
    (ht : t.lockedWhileBusy = true) : core.run 2 s = .next { u with overrun := true } :=
  core_run_two (step_write_dropped hagenda h4 hloc hbusy ht)
    (step_after_flags hbusy hdecode hexec s.done s.err true)

end

/-- Settles O19: each order is two steps, the host's (by what its access does while the engine is busy or idle) and the
engine's (`step_after_flags`, `step_before_access`). -/
theorem racesResolveByOrder : Obligations.RacesResolveByOrder := by
  intro s u i v k hbusy hdecode hexec
  refine ⟨fun h => ?_, fun h => ?_, fun h => ?_, fun h => ?_, fun h hsrst => ?_⟩
  · obtain ⟨-, hstatus⟩ := statusFieldsAndWriteOneToClear
    exact core_run_two (hstatus s v [.engine] h) (step_after_flags hbusy hdecode hexec _ _ _)
  · exact run_dropped_write_then_engine hbusy hdecode hexec (t := .cmd) h rfl rfl rfl
  · exact run_dropped_write_then_engine hbusy hdecode hexec h (by omega) (locate_arg s.params k) rfl
  · obtain ⟨w, hw, hidle, -⟩ := everyCommandCompletes i { s with agenda := [] }
    cases hexec.symm.trans hw
    obtain ⟨-, -, -, -, hparams, -⟩ := commandFrame i _ u hexec
    have hnext : HostNext { u with agenda := [s.hostTurn (.write 32 (0x020 + 4 * k.val) v)] }
        (.write 32 (0x020 + 4 * k.val) v) [] := hostNext_congr (s := { s with agenda := _ }) rfl hparams rfl
    have hwrite : step { u with agenda := [s.hostTurn (.write 32 (0x020 + 4 * k.val) v)] }
        = .next { u with agenda := [], args := u.args.set k v } :=
      step_write_idle hnext (by omega) (locate_arg u.params k) hidle
    exact (core_run_two (step_before_access hbusy hdecode hexec h) hwrite).trans
      (by rw [agenda_of_exec_last hexec])
  · obtain ⟨t, hreset, ht, -, -, -, hidle⟩ := softResetCancelsAndResets s v [.engine] h hsrst
    refine ⟨_, core_run_two hreset (hidle [] rfl), ?_, ?_⟩ <;> rw [ht]

end Sys2Proof.Machine
end
